-- ==== Sys2Proof/Word.lean ====
section
/-! DEFINITION. Word.lean: the limb, the block's only word, and its base.

R7 of spec/00_scope.md: every limb in limb memory, every scalar operand and every value in `RET` is a
64-bit unsigned integer; the base is `2^64`. -/

namespace Sys2Proof

/-- A limb (R7, R18): one 64-bit machine word of the multi-precision representation.  Registers are
limbs too (R23). -/
abbrev Limb := BitVec 64

/-- The base `β = 2^W` with `W = 64` (R7). -/
def beta : Nat := 2 ^ 64

end Sys2Proof
end

