-- ==== Sys2Proof/Syntax.lean ====
section
/-! DEFINITION. Syntax.lean: the twenty commands (R77 of spec/30_encoding.md).

A command carries no operand: every operand stands in an operand register (R75, R78), so a constructor
has no argument.  The docstrings give the document's call signature. -/

namespace Sys2Proof

/-- The commands of NTT3-CORE, one constructor per row of spec/opcode_table.json, in the table's order. -/
inductive Instr where
  /-- `add_n(out, a, b, n) → carry_out` (R102). -/
  | addN
  /-- `sub_n(out, a, b, n) → borrow_out` (R104). -/
  | subN
  /-- `add_1(out, a, n, scalar) → carry` (R106). -/
  | add1
  /-- `sub_1(out, a, n, scalar) → borrow` (R108). -/
  | sub1
  /-- `mul_1(out, a, n, scalar) → high_limb` (R110). -/
  | mul1
  /-- `addmul_1(out, a, n, scalar) → high_limb` (R112). -/
  | addmul1
  /-- `submul_1(out, a, n, scalar) → high_limb` (R114). -/
  | submul1
  /-- `lshift(out, a, n, k) → bits_shifted_out` (R117). -/
  | lshift
  /-- `rshift(out, a, n, k) → bits_shifted_out` (R119). -/
  | rshift
  /-- `cmp(a, b, n) → −1, 0 or +1` (R124). -/
  | cmp
  /-- `divrem_1(quot, a, n, scalar) → remainder` (R126). -/
  | divrem1
  /-- `mul_basecase(r, a, na, b, nb)` (R131). -/
  | mulBasecase
  /-- `sqr_basecase(r, a, n)` (R134). -/
  | sqrBasecase
  /-- `mul_karatsuba(r, a, b, n)` (R141). -/
  | mulKaratsuba
  /-- `sqr_karatsuba(r, a, n)` (R150). -/
  | sqrKaratsuba
  /-- `mul_ntt(r, a, na, b, nb)` (R160). -/
  | mulNtt
  /-- `sqr_ntt(r, a, n)` (R177). -/
  | sqrNtt
  /-- `mul(r, a, na, b, nb)` (R210). -/
  | mul
  /-- `sqr(r, a, n)` (R218). -/
  | sqr
  /-- `div_qr(quot, dividend, nn, divisor, dn)` (R230). -/
  | divQr
  deriving DecidableEq, Repr

/-- Every command, in the order of R77. -/
def Instr.all : List Instr :=
  [.addN, .subN, .add1, .sub1, .mul1, .addmul1, .submul1, .lshift, .rshift, .cmp, .divrem1] ++
  [.mulBasecase, .sqrBasecase, .mulKaratsuba, .sqrKaratsuba, .mulNtt, .sqrNtt, .mul, .sqr, .divQr]

end Sys2Proof
end

