-- ==== Sys2Proof/Config.lean ====
section
/-! DEFINITION. Config.lean: the parameters the spec leaves OPEN (R7 to R13), as plain data, the reference
configuration, and the values that nothing constrains.

R40: the configuration is fixed for the life of the block and is a parameter of the step relation.  The
interface of the package gives `step` no parameter, so a State carries its configuration in the field
`cfg`, which no step changes (notes/assumptions/3.md).  A claim that holds for every legal configuration
holds whatever an implementation chose. -/

namespace Sys2Proof

/-- Which internal representation the NTT engine uses (R12, R178). -/
inductive NttView where
  /-- 32-bit internal limbs, three primes: the main line. -/
  | v32
  /-- 64-bit internal limbs, four primes: the configuration alternative. -/
  | v64
  deriving DecidableEq, Repr

/-- How the OPEN parameter `root(i, N)` (R165) is given: by one generator for each prime, `root(i, N) =
g_i^((p_i - 1)/N) mod p_i` as the reference configuration does, or by a table of `(i, N, root)`.  The table
form can hold any choice (notes/assumptions/5.md). -/
inductive RootPlan where
  | generators (gs : List Nat)
  | table (rows : List (Nat × Nat × Nat))
  deriving DecidableEq, Repr

/-- One question to the OPEN predicate `alloc_ok(cmd, operands)` (R296): the command and the operand
registers it uses (an operand register the command does not use stands as zero here, R78). -/
structure AllocRequest where
  cmd : Instr
  rp : Limb
  ap : Limb
  bp : Limb
  na : Limb
  nb : Limb
  sc : Limb
  deriving DecidableEq, Repr

/-- The configuration (R40).  Which values are legal is `Config.Legal`. -/
structure Config where
  /-- `K_THRESHOLD` (R8). -/
  kThreshold : Nat
  /-- `N_THRESHOLD` (R9). -/
  nThreshold : Nat
  /-- `MEM_LIMBS` (R13, R50). -/
  memLimbs : Nat
  /-- `NTT_VIEW` (R12). -/
  view : NttView
  /-- `N_MAX_V64` (R10, R178); not read when the view is V32. -/
  nMaxV64 : Nat
  /-- `NTT_K_MIN` (R13, R162). -/
  nttKMin : Nat
  /-- The prime set `P`, in its order (R11, R163). -/
  primes : List Nat
  /-- `root(i, N)` (R165). -/
  roots : RootPlan
  /-- `TW_PRECOMPUTE` (R38). -/
  twPrecompute : Bool
  /-- `alloc_ok` (R296), as the list of the requests it refuses (notes/assumptions/4.md). -/
  allocDenied : List AllocRequest
  deriving DecidableEq, Repr

/-- The reference configuration (R8, R9, R11, R13, R18, R165, R296).  `MEM_LIMBS`, for which the spec gives no
reference value but "large enough" (spec/95_test_vectors.md), is the largest legal value `2^61`.
DESIGN CHOICE, notes/assumptions/3.md. -/
def Config.reference : Config where
  kThreshold := 32
  nThreshold := 1024
  memLimbs := 2 ^ 61
  view := .v32
  nMaxV64 := 0
  nttKMin := 6
  primes := [754974721, 880803841, 2013265921]
  roots := .generators [11, 26, 31]
  twPrecompute := false
  allocDenied := []

/-- What `RET` holds after a command that ended in error (R25, R300; R19: "a value under no law").  A free
value, drawn with the counter `State.free` (notes/assumptions/9.md). -/
opaque Config.freeRet : Nat → Limb

/-- What a limb of limb memory reads as when nothing specified stands in it (R42, R301, R19): the first
argument is the counter `State.free` of the step that reads, the second the limb index.  A free value
(notes/assumptions/7.md). -/
opaque Config.freeLimb : Nat → Nat → Limb

end Sys2Proof
end

