-- ==== Sys2Proof/Machine/Params.lean ====
section
/-! DEFINITION. Machine/Params.lean: what the configuration determines: internal width, `N_max`, the permitted
transform lengths, the roots of unity and the twiddle tables. -/

namespace Sys2Proof

/-- `W_I`, the internal limb width of the NTT engine (R7, R12, R178). -/
def NttView.width : NttView → Nat
  | .v32 => 32
  | .v64 => 64

/-- `k`, the number of primes (R11). -/
def NttView.primeCount : NttView → Nat
  | .v32 => 3
  | .v64 => 4

/-- How many internal limbs one 64-bit limb is (R161, R178). -/
def NttView.perLimb : NttView → Nat
  | .v32 => 2
  | .v64 => 1

/-- `β_I = 2^W_I` (R7). -/
def NttView.base (v : NttView) : Nat := 2 ^ v.width

/-- `N_max` (R10): `3·2^23` in the 32-bit view, the OPEN `N_MAX_V64` in the 64-bit view. -/
def Config.nMax (c : Config) : Nat :=
  match c.view with
  | .v32 => 3 * 2 ^ 23
  | .v64 => c.nMaxV64

/-- `N` is a permitted transform length (R162): `c·2^k` with `c` in {1, 3, 5} and `k >= NTT_K_MIN`, at most
`N_max`, and a divisor of every `p_i - 1`. -/
def Config.permits (c : Config) (m k : Nat) : Bool :=
  c.nttKMin ≤ k && m * 2 ^ k ≤ c.nMax && c.primes.all fun p => (p - 1) % (m * 2 ^ k) == 0

/-- The set `S` of permitted transform lengths (R162), as a list. -/
def Config.sizes (c : Config) : List Nat :=
  (List.range (Nat.log2 c.nMax + 1)).flatMap fun k =>
    ([1, 3, 5].filter fun m => c.permits m k).map fun m => m * 2 ^ k

/-- `select_size(L)` (R162): the smallest permitted length that is at least `L`.  For a legal
configuration and `L <= N_max` it exists, since `N_max` is permitted. -/
def Config.selectSize (c : Config) (len : Nat) : Nat :=
  (c.sizes.filter fun n => len ≤ n).foldl min c.nMax

/-- `b^e mod p` by repeated squaring; `fuel` bounds the number of bits of `e`. -/
def powModFuel (p : Nat) : Nat → Nat → Nat → Nat
  | 0, _, _ => 1 % p
  | fuel + 1, b, e =>
    if e = 0 then 1 % p
    else
      let r := powModFuel p fuel (b * b % p) (e / 2)
      if e % 2 = 1 then b * r % p else r

/-- `b^e mod p`. -/
def powMod (b e p : Nat) : Nat := powModFuel p (Nat.log2 e + 1) b e

/-- The inverse of `a` modulo the prime `p`, by Fermat: `a^(p-2) mod p` (R163, R170, R172, G7). -/
def invMod (a p : Nat) : Nat := powMod a (p - 2) p

/-- The prime `p_i`, `i` counted from 1 (R11, R37). -/
def Config.prime (c : Config) (i : Nat) : Nat := c.primes.getD (i - 1) 0

/-- `root(i, N)` (R165): an element of order exactly `N` modulo `p_i`. -/
def Config.root (c : Config) (i n : Nat) : Nat :=
  match c.roots with
  | .generators gs => powMod (gs.getD (i - 1) 0) ((c.prime i - 1) / n) (c.prime i)
  | .table rows => ((rows.find? fun r => r.1 == i && r.2.1 == n).map fun r => r.2.2).getD 0

/-- `[1, w, w^2, ..., w^(n-1)]` modulo `p`, from the current power on. -/
def powersFrom (w p : Nat) : Nat → Nat → List Nat
  | _, 0 => []
  | x, n + 1 => x :: powersFrom w p (x * w % p) n

/-- The content of a present twiddle table (R37): the powers of the root, the powers of its inverse, and
`N^(-1)`, all modulo `p_i`. -/
structure TwiddleTable where
  powers : List Nat
  invPowers : List Nat
  nInv : Nat
  deriving DecidableEq, Repr

/-- The twiddle table of prime index `i` and length `N`, which the configuration alone determines (R37). -/
def Config.twiddle (c : Config) (i n : Nat) : TwiddleTable :=
  let p := c.prime i
  let w := c.root i n
  { powers := powersFrom w p (1 % p) n
    invPowers := powersFrom (invMod w p) p (1 % p) n
    nInv := invMod (n % p) p }

/-- A twiddle table's name `(i, N)` (R37). -/
abbrev TableName := Nat × Nat

/-- The order in which present tables are listed: by prime index, then by length. -/
def TableName.before (s t : TableName) : Bool := s.1 < t.1 || (s.1 == t.1 && s.2 < t.2)

/-- Add one table to the sorted list of the present ones; idempotent (R37). -/
def insertTable (t : TableName) : List TableName → List TableName
  | [] => [t]
  | u :: us =>
    if t = u then u :: us
    else if TableName.before t u then t :: u :: us
    else u :: insertTable t us

/-- The tables of length `N` for every prime index `1 .. k` (R166). -/
def Config.tablesOf (c : Config) (n : Nat) : List TableName :=
  (List.range c.primes.length).map fun i => (i + 1, n)

/-- Every table, sorted: what is present after reset with `TW_PRECOMPUTE` (R38). -/
def Config.allTables (c : Config) : List TableName :=
  (c.sizes.flatMap c.tablesOf).foldr insertTable []

end Sys2Proof
end

