-- ==== Sys2Proof/WellFormed.lean ====
section
/-! DEFINITION. WellFormed.lean: which command words are well formed (R75, R77, R79) and which
configurations are legal (R8 to R13, R50, R162, R163, R165, R178). -/

namespace Sys2Proof

/-- The opcode values R77 assigns. -/
def assignedOpcodes : List Nat :=
  [0x01, 0x02, 0x03, 0x04, 0x05, 0x06, 0x07, 0x08, 0x09, 0x0A, 0x0B] ++
  [0x10, 0x11, 0x20, 0x21, 0x30, 0x31, 0x40, 0x41, 0x50]

/-- The reserved bits 63:8 of a command word are zero (R75). -/
def reservedBitsZero (w : Limb) : Bool := w.toNat / 2 ^ 8 == 0

/-- Bits 7:0 of a command word are an assigned opcode (R77, R79). -/
def opcodeAssigned (w : Limb) : Bool := assignedOpcodes.contains (w.toNat % 2 ^ 8)

/-- A command word is one of the twenty legal ones (R75, R77). -/
def wordWellFormed (w : Limb) : Bool := reservedBitsZero w && opcodeAssigned w

/-- An instruction carries no operand field, so nothing in it can be ill formed (R75, R78): what can be
wrong with a command's operands is found at run time and is an error of the command (R302). -/
def Instr.wellFormed : Instr → Bool
  | .addN | .subN | .add1 | .sub1 | .mul1 | .addmul1 | .submul1 | .lshift | .rshift | .cmp
  | .divrem1 | .mulBasecase | .sqrBasecase | .mulKaratsuba | .sqrKaratsuba | .mulNtt | .sqrNtt
  | .mul | .sqr | .divQr => true

/-- `16 <= K_THRESHOLD <= 64` and `K_THRESHOLD < N_THRESHOLD`, which fits its register (R8, R9, R32). -/
def Config.thresholdsOk (c : Config) : Bool :=
  16 ≤ c.kThreshold && c.kThreshold ≤ 64 && c.kThreshold < c.nThreshold && c.nThreshold < beta

/-- `1 <= MEM_LIMBS <= 2^61` (R50). -/
def Config.memLimbsOk (c : Config) : Bool := 1 ≤ c.memLimbs && c.memLimbs ≤ 2 ^ 61

/-- `k` distinct primes below `2^W_I` (R11, R163 (a), (b); that they are prime is `Config.Legal.prime`). -/
def Config.primesOk (c : Config) : Bool :=
  c.primes.length == c.view.primeCount && decide c.primes.Nodup &&
    c.primes.all fun p => 1 < p && p < c.view.base

/-- `N_max` divides every `p_i - 1` and is itself permitted, and fits its register (R163 (c), R33). -/
def Config.nMaxOk (c : Config) : Bool :=
  c.sizes.contains c.nMax && c.nMax < beta

/-- `p_1 ⋯ p_k > 2^(2·W_I)·N_max` (R163 (d), R178). -/
def Config.productOk (c : Config) : Bool := 2 ^ (2 * c.view.width) * c.nMax < c.primes.prod

/-- The part of a configuration's legality that is computed. -/
def Config.wellFormed (c : Config) : Bool :=
  c.thresholdsOk && c.memLimbsOk && c.primesOk && c.nMaxOk && c.productOk

/-- A legal configuration: the computed checks, primality of every `p_i` (R163 (a)), and `root(i, N)` an
element of `Z_{p_i}` of order exactly `N` for every permitted `N` (R165). -/
structure Config.Legal (c : Config) : Prop where
  wellFormed : c.wellFormed = true
  prime : ∀ p ∈ c.primes, p.Prime
  root_lt : ∀ i, 1 ≤ i → i ≤ c.primes.length → ∀ n ∈ c.sizes, c.root i n < c.prime i
  root_order : ∀ i, 1 ≤ i → i ≤ c.primes.length → ∀ n ∈ c.sizes,
    orderOf ((c.root i n : Nat) : ZMod (c.prime i)) = n

end Sys2Proof
end

