-- ==== Sys2Proof/Decode.lean ====
section
/-! DEFINITION. Decode.lean: the decoder and the encoder of command words (R75, R77, R79 of
spec/30_encoding.md), each written from the opcode map of R77. -/

namespace Sys2Proof

/-- Why a command word is not a command (R79). -/
inductive DecodeError where
  /-- One of the reserved bits 63:8 is set. -/
  | reservedBits
  /-- Bits 7:0 are not an assigned opcode. -/
  | unassignedOpcode
  deriving DecidableEq, Repr

/-- The opcode map of R77, one row per command. -/
def opcodeMap : List (Nat × Instr) :=
  [(0x01, .addN), (0x02, .subN), (0x03, .add1), (0x04, .sub1), (0x05, .mul1), (0x06, .addmul1)] ++
  [(0x07, .submul1), (0x08, .lshift), (0x09, .rshift), (0x0A, .cmp), (0x0B, .divrem1)] ++
  [(0x10, .mulBasecase), (0x11, .sqrBasecase), (0x20, .mulKaratsuba), (0x21, .sqrKaratsuba)] ++
  [(0x30, .mulNtt), (0x31, .sqrNtt), (0x40, .mul), (0x41, .sqr), (0x50, .divQr)]

/-- The command an opcode value selects (R77). -/
def ofOpcode (op : Nat) : Option Instr := (opcodeMap.find? fun row => row.1 == op).map fun row => row.2

/-- `OPCODE`, bits 7:0 of a command word (R75). -/
def opcodeField (w : Limb) : Nat := w.toNat % 2 ^ 8

/-- Bits 63:8 of a command word, which must be zero (R75). -/
def reservedField (w : Limb) : Nat := w.toNat / 2 ^ 8

/-- Decode a command word (R76 step 1, R79): total, rejecting by name. -/
def decode (w : Limb) : Except DecodeError Instr :=
  if reservedField w ≠ 0 then .error .reservedBits
  else
    match ofOpcode (opcodeField w) with
    | some i => .ok i
    | none => .error .unassignedOpcode

/-- The instruction the decoder reads from a table row's word: the word's low `nbits` bits, every bit above
them zero, as the one 64-bit value the host writes to `CMD` (R55, R75). -/
def decodeTableWord (nbits w : Nat) : Option Instr :=
  match decode (BitVec.ofNat 64 (w % 2 ^ nbits)) with
  | .ok i => some i
  | .error _ => none

/-- The opcode of a command (R77), written out for the encoder. -/
def Instr.opcode : Instr → BitVec 8
  | .addN => 0x01
  | .subN => 0x02
  | .add1 => 0x03
  | .sub1 => 0x04
  | .mul1 => 0x05
  | .addmul1 => 0x06
  | .submul1 => 0x07
  | .lshift => 0x08
  | .rshift => 0x09
  | .cmp => 0x0A
  | .divrem1 => 0x0B
  | .mulBasecase => 0x10
  | .sqrBasecase => 0x11
  | .mulKaratsuba => 0x20
  | .sqrKaratsuba => 0x21
  | .mulNtt => 0x30
  | .sqrNtt => 0x31
  | .mul => 0x40
  | .sqr => 0x41
  | .divQr => 0x50

/-- The command word of a command: its opcode, zero-extended (R75). -/
def encode (i : Instr) : Limb := i.opcode.zeroExtend 64

end Sys2Proof
end

