-- ==== Sys2Proof/Machine/State.lean ====
section
/-! DEFINITION. Machine/State.lean: the state of the machine as plain data, its value after reset, and the
reasons a step can stop. -/

namespace Sys2Proof.Machine

/-- One action of the host on the block (R20, R81): the four actions of R81's listings and the platform's
reset (R320).  Register numbers and limb indices are unbounded here; which exist is said where the action
is carried out. -/
inductive HostAction where
  /-- `wr REG, value`: write a register; a write of register 0, `CMD`, starts a command (R24). -/
  | wr (reg : Nat) (value : Limb)
  /-- `rd REG`: read a register. -/
  | rd (reg : Nat)
  /-- `st addr, value`: write one limb of limb memory. -/
  | st (addr : Nat) (value : Limb)
  /-- `ld addr`: read one limb of limb memory. -/
  | ld (addr : Nat)
  /-- The platform resets the block (R320, R321). -/
  | reset
  deriving DecidableEq, Repr

/-- Limb memory (R34): the limbs that hold a specified value, as pairs (limb index, limb) with strictly rising
indices.  An index that is not listed holds no specified value (R42, R301); it reads as `none`, and a command or
a host read that needs it draws a free value.  The block addresses whole limbs and nothing smaller (R50, R58),
so a cell is a limb (notes/assumptions/6.md). -/
abbrev Memory := List (Nat × Limb)

/-- The state (R20): the register file of R23, limb memory, the twiddle state, and, beside these, the
configuration it was built with and three fields of the model's own (`host`, `rdata`, `free`). -/
structure State where
  /-- The configuration; no step changes it (R40).  The registers `CFG_ID`, `CFG_K`, `CFG_N`, `CFG_NMAX` and
  `CFG_MEM` (R31 to R33) are read from it. -/
  cfg : Config
  /-- `CMD`, register 0 (R24). -/
  cmd : Limb
  /-- `RP`, register 1 (R21). -/
  rp : Limb
  /-- `AP`, register 2 (R21). -/
  ap : Limb
  /-- `BP`, register 3 (R21). -/
  bp : Limb
  /-- `NA`, register 4 (R21). -/
  na : Limb
  /-- `NB`, register 5 (R21). -/
  nb : Limb
  /-- `SC`, register 6 (R21). -/
  sc : Limb
  /-- `RET`, register 7 (R25). -/
  ret : Limb
  /-- `STATUS`, register 8 (R28). -/
  status : Limb
  /-- `ERR`, register 9 (R29). -/
  err : Limb
  /-- `LM`, limb memory (R34). -/
  mem : Memory
  /-- `TW`: which twiddle tables are present (R37), sorted, without repeats. -/
  tw : List TableName
  /-- The host's actions that have not been carried out yet, the next one first (R20, R69). -/
  host : List HostAction
  /-- What the host's last read returned (R20): the model's own field. -/
  rdata : Limb
  /-- How many free values have been drawn: the model's own field (R19). -/
  free : Nat
  deriving DecidableEq, Repr

/-- Why a step can stop with a fault.  No command stops with one: every command word in every state has a next
state (R76). -/
inductive Fault where
  /-- The host reads or writes a limb index that is not below `MEM_LIMBS`: the address does not exist (R34).
  Raised by the host actions `st` and `ld`.  Safe. -/
  | hostLimbOutside (addr : Nat)
  deriving DecidableEq, Repr

/-- Why a step can be refused. -/
inductive Refusal where
  /-- The command has no meaning in the model.  No arm of `exec` raises it.  Safe. -/
  | notModelled (mnemonic : String)
  /-- The host accesses a register number above 15, which R30 calls "outside the block and ... the platform's
  business".  Raised by the host actions `wr` and `rd`.  Safe. -/
  | outsideBlock (reg : Nat)
  deriving DecidableEq, Repr

/-- The state after reset of a block with configuration `c` (R41, R320): every register 0, nothing specified in
limb memory, the twiddle tables absent, or all present with `TW_PRECOMPUTE`. -/
def State.resetOf (c : Config) : State where
  cfg := c
  cmd := 0
  rp := 0
  ap := 0
  bp := 0
  na := 0
  nb := 0
  sc := 0
  ret := 0
  status := 0
  err := 0
  mem := []
  tw := if c.twPrecompute then c.allTables else []
  host := []
  rdata := 0
  free := 0

/-- The machine right after reset (R41), in the reference configuration. -/
def State.reset : State := State.resetOf Config.reference

end Sys2Proof.Machine
end

