-- ==== Sys2Proof/Machine/Ops.lean ====
section
/-! DEFINITION. Machine/Ops.lean: limb lists and their values (R14, R16), limb memory (R34, R52, R60), extents,
overlap and range checks (R62, R66), the register file as the host sees it (R23 to R33), raising an error
(R300, R301) and completing a command (R76 step 5). -/

namespace Sys2Proof.Machine

/-! ### Values and limb lists -/

/-- `val(l)` (R14): the little-endian value of a limb list; the empty list has the value 0. -/
def val : List Limb → Nat
  | [] => 0
  | x :: xs => x.toNat + beta * val xs

/-- `limbs(v, n)` (R16): the `n`-limb little-endian list of `v mod β^n`. -/
def limbs (v : Nat) : Nat → List Limb
  | 0 => []
  | n + 1 => BitVec.ofNat 64 v :: limbs (v / beta) n

/-- `limbs(d mod β^n, n)` for an integer `d` that may be negative (R16, R104). -/
def limbsOfInt (d : Int) (n : Nat) : List Limb := limbs (d % ((beta ^ n : Nat) : Int)).toNat n

/-! ### Limb memory -/

/-- The specified value of a limb, if there is one. -/
def Memory.read : Memory → Nat → Option Limb
  | [], _ => none
  | (k, v) :: m, a => if a = k then some v else Memory.read m a

/-- Write one limb, keeping the indices strictly rising. -/
def Memory.write : Memory → Nat → Limb → Memory
  | [], a, v => [(a, v)]
  | (k, w) :: m, a, v =>
    if a < k then (a, v) :: (k, w) :: m
    else if a = k then (a, v) :: m
    else (k, w) :: Memory.write m a v

/-- Write a limb list from index `a` upward: `MemWrite(a, n, l)` (R16, R52). -/
def Memory.writeList : Memory → Nat → List Limb → Memory
  | m, _, [] => m
  | m, a, v :: vs => Memory.writeList (Memory.write m a v) (a + 1) vs

/-- Leave no specified value in the `n` limbs from index `a` on (R301, second row). -/
def Memory.forget (m : Memory) (a n : Nat) : Memory :=
  m.filter fun cell => !(a ≤ cell.1 && cell.1 < a + n)

/-- The canonical form of limb memory: strictly rising indices.  An unlisted index reads as `none`, which no
listed value equals, so equal memories are equal lists. -/
abbrev Memory.wf (m : Memory) : Prop := m.Pairwise fun x y => x.1 < y.1

/-- `LM[a]` as the step that runs in `s` reads it: the specified value, or, where there is none, a free value
(R42, R301, R19; notes/assumptions/7.md). -/
def State.limb (s : State) (a : Nat) : Limb := (s.mem.read a).getD (Config.freeLimb s.free a)

/-- `MemRead(p, n)` (R16, R60): the limbs `LM[p], ..., LM[p+n-1]`; the sum is on unbounded integers. -/
def State.memRead (s : State) (p n : Nat) : List Limb := (List.range n).map fun i => s.limb (p + i)

/-! ### Extents -/

/-- A range of limbs `[ptr, ptr + len)` (R15, R60). -/
structure Extent where
  ptr : Nat
  len : Nat
  deriving DecidableEq, Repr

/-- The range check (R62): a range of length 0 is legal whatever the pointer. -/
def Extent.inside (limit : Nat) (e : Extent) : Bool := e.len == 0 || e.ptr + e.len ≤ limit

/-- Two ranges are disjoint (R66). -/
def Extent.disjoint (x y : Extent) : Bool :=
  x.len == 0 || y.len == 0 || x.ptr + x.len ≤ y.ptr || y.ptr + y.len ≤ x.ptr

/-- Two ranges are identical: same pointer, same length (R66). -/
def Extent.identical (x y : Extent) : Bool := x.ptr == y.ptr && x.len == y.len

/-- Exactly in place or disjoint (R66): what the commands that allow in-place use demand. -/
def Extent.inPlace (x y : Extent) : Bool := x.identical y || x.disjoint y

/-- The limb index `a` lies in the range. -/
def Extent.has (e : Extent) (a : Nat) : Bool := e.ptr ≤ a && a < e.ptr + e.len

/-- Leave no specified value in any of the ranges (R301). -/
def Memory.forgetAll (m : Memory) (outs : List Extent) : Memory :=
  outs.foldl (fun m e => m.forget e.ptr e.len) m

/-! ### Errors and completion -/

/-- The error kinds (R291). -/
inductive ErrorKind where
  /-- Code 1: "malformed decimal input"; no command raises it (R292). -/
  | parseError
  /-- Code 2 (R293). -/
  | divisionByZero
  /-- Code 3 (R295). -/
  | allocationFailure
  /-- Code 4 (R294). -/
  | sizeLimit
  /-- Code 5 (R297). -/
  | illegalCommand
  /-- Code 6 (R297). -/
  | badOperand
  /-- Code 7 (R299). -/
  | aliasViolation
  /-- Code 8 (R298). -/
  | addressRange
  deriving DecidableEq, Repr

/-- `ERR.CODE` of an error kind (R291). -/
def ErrorKind.code : ErrorKind → Nat
  | .parseError => 1
  | .divisionByZero => 2
  | .allocationFailure => 3
  | .sizeLimit => 4
  | .illegalCommand => 5
  | .badOperand => 6
  | .aliasViolation => 7
  | .addressRange => 8

/-- After this error the command's write ranges are unspecified (R301): codes 2 to 4.  After the others limb
memory is unchanged.  (Code 1 never arises in the block.) -/
def ErrorKind.clobbers : ErrorKind → Bool
  | .divisionByZero | .allocationFailure | .sizeLimit => true
  | .parseError | .illegalCommand | .badOperand | .aliasViolation | .addressRange => false

/-- The `STATUS` word (R28): bit 0 `DONE`, bit 1 `ERROR`, the rest 0. -/
def statusWord (done error : Bool) : Limb :=
  BitVec.ofNat 64 ((if done then 1 else 0) + (if error then 2 else 0))

/-- The `ERR` word (R29): bits 7:0 `CODE`, the rest 0. -/
def errWord (code : Nat) : Limb := BitVec.ofNat 64 (code % 2 ^ 8)

/-- `STATUS.DONE` (R28). -/
def State.done (s : State) : Bool := s.status.getLsbD 0

/-- `STATUS.ERROR` (R28). -/
def State.error (s : State) : Bool := s.status.getLsbD 1

/-- `ERR.CODE` (R29). -/
def State.errCode (s : State) : Nat := s.err.toNat % 2 ^ 8

/-- "raise E" (R300, R301), the one place where a command ends in error: `ERR` and `STATUS` written, `RET` a free
value, the command's write ranges `outs` left unspecified for codes 2 to 4, nothing else changed. -/
def State.raise (s : State) (e : ErrorKind) (outs : List Extent) : State :=
  { s with
    err := errWord e.code
    status := statusWord true true
    ret := Config.freeRet s.free
    mem := if e.clobbers then s.mem.forgetAll outs else s.mem
    free := s.free + 1 }

/-- What a command that completes does: the limb lists it stores, in order, its return value, and the twiddle
tables it makes present. -/
structure Effect where
  stores : List (Nat × List Limb)
  ret : Limb
  tables : List TableName := []

/-- Carry out the stores of an effect. -/
def Memory.store (m : Memory) (stores : List (Nat × List Limb)) : Memory :=
  stores.foldl (fun m w => m.writeList w.1 w.2) m

/-- Make tables present (R38, R166). -/
def addTables (tw : List TableName) (ts : List TableName) : List TableName :=
  ts.foldr insertTable tw

/-- Execute and complete (R76 steps 4 and 5): the stores, the tables, `RET`, `ERR = 0`, `STATUS` with `DONE = 1` and
`ERROR = 0`. -/
def State.complete (s : State) (eff : Effect) : State :=
  { s with
    mem := s.mem.store eff.stores
    tw := addTables s.tw eff.tables
    ret := eff.ret
    err := errWord 0
    status := statusWord true false
    free := s.free + 1 }

/-- A command ends in the error its checks found, or completes (R76). -/
def State.finish (s : State) (failure : Option ErrorKind) (outs : List Extent) (eff : Unit → Effect) :
    Host.Outcome State Fault Refusal :=
  match failure with
  | some e => .next (s.raise e outs)
  | none => .next (s.complete (eff ()))

/-! ### The register file as the host sees it -/

/-- `CFG_ID` (R31): `W`, `W_I`, `NPRIMES`, `VERSION`, one byte each; bits 63:32 zero. -/
def idWord (c : Config) : Limb :=
  BitVec.ofNat 64 (64 + c.view.width * 2 ^ 8 + c.view.primeCount * 2 ^ 16 + 1 * 2 ^ 24)

/-- What the host reads from a register number (R23, R30); `none` above 15. -/
def State.readReg (s : State) : Nat → Option Limb
  | 0 => some s.cmd
  | 1 => some s.rp
  | 2 => some s.ap
  | 3 => some s.bp
  | 4 => some s.na
  | 5 => some s.nb
  | 6 => some s.sc
  | 7 => some s.ret
  | 8 => some s.status
  | 9 => some s.err
  | 10 => some (idWord s.cfg)
  | 11 => some (BitVec.ofNat 64 s.cfg.kThreshold)
  | 12 => some (BitVec.ofNat 64 s.cfg.nThreshold)
  | 13 => some (BitVec.ofNat 64 s.cfg.nMax)
  | 14 => some (BitVec.ofNat 64 s.cfg.memLimbs)
  | 15 => some 0
  | _ => none

/-- The host writes a register other than `CMD` (R21, R23, R30): the operand registers take the value, a write to
a read-only register (7 to 15) is ignored; `none` above 15. -/
def State.writeReg (s : State) (r : Nat) (v : Limb) : Option State :=
  match r with
  | 1 => some { s with rp := v }
  | 2 => some { s with ap := v }
  | 3 => some { s with bp := v }
  | 4 => some { s with na := v }
  | 5 => some { s with nb := v }
  | 6 => some { s with sc := v }
  | r => if r ≤ 15 then some s else none

/-- Byte `j` of limb `i` for a host that addresses bytes (R50, R53): bits `8j+7 : 8j`. -/
def State.hostByte (s : State) (i j : Nat) : BitVec 8 := (s.limb i).extractLsb' (8 * j) 8

/-! ### Host actions -/

/-- The command word an action starts, if it is a write of `CMD` (R24). -/
def HostAction.commandWord : HostAction → Option Limb
  | .wr 0 w => some w
  | _ => none

/-- The write of `CMD` itself (R24, R76): the word is kept, and the action is taken off the host's list. -/
def State.startCommand (s : State) (w : Limb) (rest : List HostAction) : State :=
  { s with cmd := w, host := rest }

/-- A word that is no command raises IllegalCommand (R79). -/
def State.illegal (s : State) : State := s.raise .illegalCommand []

/-- The platform resets the block (R320, R321).  What is not the block stays: its configuration, the host's further
actions, what the host last read, and the counter of free values (notes/assumptions/13.md). -/
def State.platformReset (s : State) : State :=
  { State.resetOf s.cfg with host := s.host, rdata := s.rdata, free := s.free + 1 }

/-- An action of the host that starts no command, in a state whose list it has been taken off (R20, R21, R30,
R51, R69, R320).  No such action changes `STATUS` or `ERR` but a reset (R290). -/
def hostAct (act : HostAction) (s : State) : Host.Outcome State Fault Refusal :=
  match act with
  | .wr r v =>
    match s.writeReg r v with
    | some s' => .next s'
    | none => .refused (.outsideBlock r)
  | .rd r =>
    match s.readReg r with
    | some v => .next { s with rdata := v }
    | none => .refused (.outsideBlock r)
  | .st a v =>
    if a < s.cfg.memLimbs then .next { s with mem := s.mem.write a v }
    else .fault (.hostLimbOutside a)
  | .ld a =>
    if a < s.cfg.memLimbs then .next { s with rdata := s.limb a, free := s.free + 1 }
    else .fault (.hostLimbOutside a)
  | .reset => .next s.platformReset

end Sys2Proof.Machine
end

