-- ==== Sys2Proof/Machine/Flags.lean ====
section
/-! DEFINITION. Machine/Flags.lean: carries and borrows.  The block has no flags register (R26): what a processor
keeps in a carry flag is returned as a whole limb.  This file holds the limb recurrences that say how a carry, a
borrow or a high limb runs from limb to limb (R103, R105, R106, R108, R111, R113, R115, R118, R120, R127).  Each is
the spec's second description of a command whose value equation governs; the divider and the base-case loop run
them (R132, R238, R239). -/

namespace Sys2Proof.Machine

/-- Limb recurrence of `add_n` from carry `c` on (R103): the result limbs and the final carry. -/
def addChain : List Limb → List Limb → Nat → List Limb × Nat
  | x :: xs, y :: ys, c =>
    let t := x.toNat + y.toNat + c
    let r := addChain xs ys (t / beta)
    (BitVec.ofNat 64 t :: r.1, r.2)
  | [], _, c => ([], c)
  | _ :: _, [], c => ([], c)

/-- Limb recurrence of `sub_n` from borrow `w` on (R105). -/
def subChain : List Limb → List Limb → Nat → List Limb × Nat
  | x :: xs, y :: ys, w =>
    let t : Int := (x.toNat : Int) - y.toNat - w
    let r := subChain xs ys (if t < 0 then 1 else 0)
    (BitVec.ofInt 64 t :: r.1, r.2)
  | [], _, w => ([], w)
  | _ :: _, [], w => ([], w)

/-- Limb recurrence of `add_1` (R106): the carry into limb 0 is the scalar. -/
def addOneChain : List Limb → Nat → List Limb × Nat
  | [], c => ([], c)
  | x :: xs, c =>
    let t := x.toNat + c
    let r := addOneChain xs (t / beta)
    (BitVec.ofNat 64 t :: r.1, r.2)

/-- Limb recurrence of `sub_1` (R108): the borrow into limb 0 is the scalar. -/
def subOneChain : List Limb → Nat → List Limb × Nat
  | [], w => ([], w)
  | x :: xs, w =>
    let t : Int := (x.toNat : Int) - w
    let r := subOneChain xs (if t < 0 then 1 else 0)
    (BitVec.ofInt 64 t :: r.1, r.2)

/-- Limb recurrence of `mul_1` (R111): every product is the full 128-bit product. -/
def mulChain (s : Limb) : List Limb → Nat → List Limb × Nat
  | [], h => ([], h)
  | x :: xs, h =>
    let t := x.toNat * s.toNat + h
    let r := mulChain s xs (t / beta)
    (BitVec.ofNat 64 t :: r.1, r.2)

/-- Limb recurrence of `addmul_1` (R113), first list `out`, second `a`. -/
def addmulChain (s : Limb) : List Limb → List Limb → Nat → List Limb × Nat
  | z :: zs, x :: xs, h =>
    let t := z.toNat + x.toNat * s.toNat + h
    let r := addmulChain s zs xs (t / beta)
    (BitVec.ofNat 64 t :: r.1, r.2)
  | [], _, h => ([], h)
  | _ :: _, [], h => ([], h)

/-- Limb recurrence of `submul_1` (R115), first list `out`, second `a`; the second component is the borrow limb. -/
def submulChain (s : Limb) : List Limb → List Limb → Nat → List Limb × Nat
  | z :: zs, x :: xs, h =>
    let p := x.toNat * s.toNat + h
    let lo := p % beta
    let hi := p / beta
    let r := submulChain s zs xs (hi + if z.toNat < lo then 1 else 0)
    (BitVec.ofInt 64 ((z.toNat : Int) - lo) :: r.1, r.2)
  | [], _, h => ([], h)
  | _ :: _, [], h => ([], h)

/-- Limb formula of `lshift` (R118), low limb first; `below` is the limb under the first one (0 at the bottom).
The second component is `RET`, the top limb shifted right by `64 - k`. -/
def lshiftChain (k : Nat) : List Limb → Limb → List Limb × Limb
  | [], below => ([], below >>> (64 - k))
  | x :: xs, below =>
    let r := lshiftChain k xs x
    ((x <<< k ||| below >>> (64 - k)) :: r.1, r.2)

/-- Limb formula of `rshift` (R120): limb `i` takes its high bits from limb `i + 1`; the second component is `RET`,
limb 0 shifted left by `64 - k`. -/
def rshiftChain (k : Nat) : List Limb → List Limb × Limb
  | [] => ([], 0)
  | x :: xs => ((x >>> k ||| (xs.headD 0) <<< (64 - k)) :: (rshiftChain k xs).1, x <<< (64 - k))

/-- Limb recurrence of `divrem_1` (R127), from the most significant limb down: the quotient limbs of the list and
the remainder. -/
def divremChain (s : Limb) : List Limb → List Limb × Nat
  | [] => ([], 0)
  | x :: xs =>
    let r := divremChain s xs
    let t := r.2 * beta + x.toNat
    (BitVec.ofNat 64 (t / s.toNat) :: r.1, t % s.toNat)

/-- `cmp` by the most significant differing limb (R124). -/
def cmpChain : List Limb → List Limb → Ordering
  | x :: xs, y :: ys =>
    match cmpChain xs ys with
    | .eq => compare x.toNat y.toNat
    | o => o
  | _, _ => .eq

end Sys2Proof.Machine
end

