-- ==== Sys2Proof/Machine/Operands.lean ====
section
/-! DEFINITION. Machine/Operands.lean: the binding of operands to registers (R78), the footprint of every
command (R61), the overlap rules (R67), the order of the checks (R302) and the question to `alloc_ok` (R296). -/

namespace Sys2Proof.Machine

/-- The operand registers as a command samples them, each whole, as an unsigned integer (R22, R78). -/
structure Operands where
  rp : Nat
  ap : Nat
  bp : Nat
  na : Nat
  nb : Nat
  sc : Nat
  deriving DecidableEq, Repr

/-- Sample the operand registers (R76 step 2). -/
def State.operands (s : State) : Operands :=
  { rp := s.rp.toNat, ap := s.ap.toNat, bp := s.bp.toNat
    na := s.na.toNat, nb := s.nb.toNat, sc := s.sc.toNat }

/-- Which operand registers a command uses (R78). -/
structure RegUse where
  rp : Bool
  ap : Bool
  bp : Bool
  na : Bool
  nb : Bool
  sc : Bool
  deriving DecidableEq, Repr

/-- The binding table of R78: which registers each command reads; an unused register is not read. -/
def uses : Instr → RegUse
  | .addN | .subN => ⟨true, true, true, true, false, false⟩
  | .add1 | .sub1 => ⟨true, true, false, true, false, true⟩
  | .mul1 | .addmul1 | .submul1 => ⟨true, true, false, true, false, true⟩
  | .lshift | .rshift => ⟨true, true, false, true, false, true⟩
  | .cmp => ⟨false, true, true, true, false, false⟩
  | .divrem1 => ⟨true, true, false, true, false, true⟩
  | .mulBasecase | .mulNtt | .mul => ⟨true, true, true, true, true, false⟩
  | .mulKaratsuba => ⟨true, true, true, true, false, false⟩
  | .sqrBasecase | .sqrKaratsuba | .sqrNtt | .sqr => ⟨true, true, false, true, false, false⟩
  | .divQr => ⟨true, true, true, true, true, false⟩

/-- The first input array, `a` (for `div_qr` the dividend) (R21, R78). -/
def Operands.a (o : Operands) : Extent := ⟨o.ap, o.na⟩

/-- The second input array of a command whose two inputs have the one length `n` (R78). -/
def Operands.bSame (o : Operands) : Extent := ⟨o.bp, o.na⟩

/-- The second input array of a command with a length of its own for it, `b` or `divisor` (R78). -/
def Operands.b (o : Operands) : Extent := ⟨o.bp, o.nb⟩

/-- The ranges a command reads (R61). -/
def inputs (i : Instr) (o : Operands) : List Extent :=
  match i with
  | .addN | .subN | .cmp => [o.a, o.bSame]
  | .add1 | .sub1 | .mul1 | .lshift | .rshift | .divrem1 => [o.a]
  | .addmul1 | .submul1 => [o.a, ⟨o.rp, o.na⟩]
  | .mulBasecase | .mulNtt | .mul => [o.a, o.b]
  | .mulKaratsuba => [o.a, o.bSame]
  | .sqrBasecase | .sqrKaratsuba | .sqrNtt | .sqr => [o.a]
  | .divQr => [o.a, o.b]

/-- The quotient range of `div_qr`: `nn - dn + 1` limbs, and empty when `dn = 0` (R62, R231, R301). -/
def Operands.quotient (o : Operands) : Extent := ⟨o.rp, if o.nb = 0 then 0 else o.na - o.nb + 1⟩

/-- The ranges a command writes (R61). -/
def outputs (i : Instr) (o : Operands) : List Extent :=
  match i with
  | .addN | .subN | .add1 | .sub1 | .mul1 | .addmul1 | .submul1 => [⟨o.rp, o.na⟩]
  | .lshift | .rshift | .divrem1 => [⟨o.rp, o.na⟩]
  | .cmp => []
  | .mulBasecase | .mulNtt | .mul => [⟨o.rp, o.na + o.nb⟩]
  | .mulKaratsuba | .sqrBasecase | .sqrKaratsuba | .sqrNtt | .sqr => [⟨o.rp, 2 * o.na⟩]
  | .divQr => [o.quotient, o.a]

/-- The overlap rule of each command (R67). -/
def overlapOk (i : Instr) (o : Operands) : Bool :=
  match i with
  | .addN | .subN => (Extent.mk o.rp o.na).inPlace o.a && (Extent.mk o.rp o.na).inPlace o.bSame
  | .add1 | .sub1 | .lshift | .rshift => (Extent.mk o.rp o.na).inPlace o.a
  | .mul1 | .addmul1 | .submul1 | .divrem1 => (Extent.mk o.rp o.na).disjoint o.a
  | .cmp => true
  | .mulBasecase | .mulNtt | .mul =>
    (Extent.mk o.rp (o.na + o.nb)).disjoint o.a && (Extent.mk o.rp (o.na + o.nb)).disjoint o.b
  | .mulKaratsuba =>
    (Extent.mk o.rp (2 * o.na)).disjoint o.a && (Extent.mk o.rp (2 * o.na)).disjoint o.bSame
  | .sqrBasecase | .sqrKaratsuba | .sqrNtt | .sqr => (Extent.mk o.rp (2 * o.na)).disjoint o.a
  | .divQr => o.quotient.disjoint o.a && o.quotient.disjoint o.b && o.a.disjoint o.b

/-- Every range of the footprint lies inside limb memory (R62). -/
def footprintInside (i : Instr) (c : Config) (o : Operands) : Bool :=
  (inputs i o).all (·.inside c.memLimbs) && (outputs i o).all (·.inside c.memLimbs)

/-- BadOperand from registers alone (R302 check 2): a shift count of 64 or more (R116), or `nn < dn` with `dn >= 1`
(R231 check 1). -/
def badRegisters (i : Instr) (o : Operands) : Bool :=
  match i with
  | .lshift | .rshift => 64 ≤ o.sc
  | .divQr => 1 ≤ o.nb && o.na < o.nb
  | .addN | .subN | .add1 | .sub1 | .mul1 | .addmul1 | .submul1 | .cmp | .divrem1
  | .mulBasecase | .sqrBasecase | .mulKaratsuba | .sqrKaratsuba | .mulNtt | .sqrNtt
  | .mul | .sqr => false

/-- The checks every command has in common, in their order (R302 checks 2 to 4): all from registers. -/
def registerFailure (i : Instr) (c : Config) (o : Operands) : Option ErrorKind :=
  if badRegisters i o then some .badOperand
  else if !footprintInside i c o then some .addressRange
  else if !overlapOk i o then some .aliasViolation
  else none

/-- The question a command puts to `alloc_ok` (R296): the command and the registers it uses. -/
def State.allocRequest (s : State) (i : Instr) : AllocRequest :=
  let u := uses i
  { cmd := i
    rp := if u.rp then s.rp else 0
    ap := if u.ap then s.ap else 0
    bp := if u.bp then s.bp else 0
    na := if u.na then s.na else 0
    nb := if u.nb then s.nb else 0
    sc := if u.sc then s.sc else 0 }

/-- `alloc_ok(cmd, operands)` (R296). -/
def State.allocOk (s : State) (i : Instr) : Bool := !s.cfg.allocDenied.contains (s.allocRequest i)

/-- AllocationFailure (R302 check 8): only a command that needs scratch asks (R296). -/
def State.allocFailure (s : State) (i : Instr) (needsScratch : Bool) : Option ErrorKind :=
  if needsScratch && !s.allocOk i then some .allocationFailure else none

/-- Run a command (R76 steps 2 to 5): sample the operands; the register checks; then the command's `late` checks
(R302 checks 5 to 8); the first that fails is raised, otherwise the command has its effect and completes. -/
def State.run (s : State) (i : Instr) (late : Operands → Option ErrorKind) (eff : Operands → Effect) :
    Host.Outcome State Fault Refusal :=
  let o := s.operands
  match registerFailure i s.cfg o with
  | some e => .next (s.raise e (outputs i o))
  | none => s.finish (late o) (outputs i o) fun _ => eff o

end Sys2Proof.Machine
end

