-- ==== Sys2Proof/Machine/LimbPrimitives.lean ====
section
/-! DEFINITION. Machine/LimbPrimitives.lean: unit C1, the eleven limb primitives (spec/40_limb_primitives.md).  Each
meaning is the value equation of the command's rule, which governs; the limb recurrences are in Machine/Flags.lean
and are proved equal. -/

namespace Sys2Proof.Machine

/-- The value of the first input array `a[0..n)`. -/
def State.valA (s : State) (o : Operands) : Nat := val (s.memRead o.ap o.na)

/-- The value of a second input array `b[0..n)` of the same length. -/
def State.valBSame (s : State) (o : Operands) : Nat := val (s.memRead o.bp o.na)

/-- The value of a second input array `b[0..nb)` of its own length. -/
def State.valB (s : State) (o : Operands) : Nat := val (s.memRead o.bp o.nb)

/-- The old value of `out[0..n)` where `out` is an input too (R112, R114). -/
def State.valOut (s : State) (o : Operands) : Nat := val (s.memRead o.rp o.na)

/-- No check of its own beyond those of R302 2 to 4 (R100, R130). -/
def noLateCheck (_ : Operands) : Option ErrorKind := none

/-- `add_n(out, a, b, n) → carry_out` (R102). -/
def execAddN (s : State) : Host.Outcome State Fault Refusal :=
  s.run .addN noLateCheck fun o =>
    let sum := s.valA o + s.valBSame o
    { stores := [(o.rp, limbs sum o.na)], ret := BitVec.ofNat 64 (sum / beta ^ o.na) }

/-- `sub_n(out, a, b, n) → borrow_out` (R104). -/
def execSubN (s : State) : Host.Outcome State Fault Refusal :=
  s.run .subN noLateCheck fun o =>
    let d : Int := (s.valA o : Int) - s.valBSame o
    { stores := [(o.rp, limbsOfInt d o.na)], ret := if s.valA o < s.valBSame o then 1 else 0 }

/-- `add_1(out, a, n, scalar) → carry` (R106): with `n = 0` it returns the scalar. -/
def execAdd1 (s : State) : Host.Outcome State Fault Refusal :=
  s.run .add1 noLateCheck fun o =>
    let sum := s.valA o + o.sc
    { stores := [(o.rp, limbs sum o.na)], ret := BitVec.ofNat 64 (sum / beta ^ o.na) }

/-- `sub_1(out, a, n, scalar) → borrow` (R108): `RET` is the unique `w >= 0` with `A - s = val(out) - w·β^n`, that is
`-floor((A - s)/β^n)`. -/
def execSub1 (s : State) : Host.Outcome State Fault Refusal :=
  s.run .sub1 noLateCheck fun o =>
    let d : Int := (s.valA o : Int) - o.sc
    { stores := [(o.rp, limbsOfInt d o.na)], ret := BitVec.ofInt 64 (-(d / ((beta ^ o.na : Nat) : Int))) }

/-- `mul_1(out, a, n, scalar) → high_limb` (R110). -/
def execMul1 (s : State) : Host.Outcome State Fault Refusal :=
  s.run .mul1 noLateCheck fun o =>
    let p := s.valA o * o.sc
    { stores := [(o.rp, limbs p o.na)], ret := BitVec.ofNat 64 (p / beta ^ o.na) }

/-- `addmul_1(out, a, n, scalar) → high_limb` (R112). -/
def execAddmul1 (s : State) : Host.Outcome State Fault Refusal :=
  s.run .addmul1 noLateCheck fun o =>
    let t := s.valOut o + s.valA o * o.sc
    { stores := [(o.rp, limbs t o.na)], ret := BitVec.ofNat 64 (t / beta ^ o.na) }

/-- `submul_1(out, a, n, scalar) → high_limb` (R114): `RET` is the unique `w` with `T = val(out) - w·β^n`, that is
`-floor(T/β^n)`. -/
def execSubmul1 (s : State) : Host.Outcome State Fault Refusal :=
  s.run .submul1 noLateCheck fun o =>
    let t : Int := (s.valOut o : Int) - s.valA o * o.sc
    { stores := [(o.rp, limbsOfInt t o.na)], ret := BitVec.ofInt 64 (-(t / ((beta ^ o.na : Nat) : Int))) }

/-- `lshift(out, a, n, k) → bits_shifted_out` (R117); the bits shifted out stand right-aligned in `RET`. -/
def execLshift (s : State) : Host.Outcome State Fault Refusal :=
  s.run .lshift noLateCheck fun o =>
    let v := s.valA o * 2 ^ o.sc
    { stores := [(o.rp, limbs v o.na)], ret := BitVec.ofNat 64 (v / beta ^ o.na) }

/-- `rshift(out, a, n, k) → bits_shifted_out` (R119); the bits shifted out stand left-aligned in `RET`. -/
def execRshift (s : State) : Host.Outcome State Fault Refusal :=
  s.run .rshift noLateCheck fun o =>
    { stores := [(o.rp, limbs (s.valA o / 2 ^ o.sc) o.na)]
      ret := if o.sc = 0 then 0 else BitVec.ofNat 64 (s.valA o % 2 ^ o.sc * 2 ^ (64 - o.sc)) }

/-- The three-valued result of `cmp` (R124): -1 is the all-ones limb. -/
def cmpWord (a b : Nat) : Limb := if a < b then BitVec.allOnes 64 else if a = b then 0 else 1

/-- `cmp(a, b, n) → −1, 0 or +1` (R124). -/
def execCmp (s : State) : Host.Outcome State Fault Refusal :=
  s.run .cmp noLateCheck fun o => { stores := [], ret := cmpWord (s.valA o) (s.valBSame o) }

/-- `divrem_1(quot, a, n, scalar) → remainder` (R126): a zero scalar is DivisionByZero, whatever `n` is. -/
def execDivrem1 (s : State) : Host.Outcome State Fault Refusal :=
  s.run .divrem1 (fun o => if o.sc = 0 then some .divisionByZero else none) fun o =>
    { stores := [(o.rp, limbs (s.valA o / o.sc) o.na)], ret := BitVec.ofNat 64 (s.valA o % o.sc) }

end Sys2Proof.Machine
end

