-- ==== Sys2Proof/Machine/Division.lean ====
section
/-! DEFINITION. Machine/Division.lean: unit C6, the multi-limb schoolbook divider (spec/45_division.md): the meaning of
`div_qr` (R230, R231), and the algorithm of R233 to R241 by which the document realises it. -/

namespace Sys2Proof.Machine

/-- The checks of `div_qr` that read the divisor, and `alloc_ok` (R231 checks 4 to 6). -/
def State.divFailure (s : State) (o : Operands) : Option ErrorKind :=
  if s.valB o = 0 then some .divisionByZero
  else if s.limb (o.bp + (o.nb - 1)) = 0 then some .badOperand
  else s.allocFailure .divQr true

/-- `div_qr(quot, dividend, nn, divisor, dn)` (R230): quotient, remainder in the dividend's low `dn` limbs, zero in its
upper limbs (R242); the divisor is not written. -/
def execDivQr (s : State) : Host.Outcome State Fault Refusal :=
  s.run .divQr s.divFailure fun o =>
    let u := s.valA o
    let v := s.valB o
    { stores :=
        [(o.rp, limbs (u / v) (o.na - o.nb + 1)), (o.ap, limbs (u % v) o.nb),
          (o.ap + o.nb, List.replicate (o.na - o.nb) 0)]
      ret := 0 }

/-! ### The algorithm (R233 to R241) -/

/-- The number of leading zero bits of a nonzero limb (R233). -/
def leadingZeros (x : Limb) : Nat := 63 - Nat.log2 x.toNat

/-- Step 2b (R237): Knuth's test with the next divisor limb `v2` and the next dividend limb `u3`; at most `fuel`
decrements. -/
def refine (v1 v2 u3 : Nat) : Nat → Nat → Nat → Nat
  | 0, qh, _ => qh
  | fuel + 1, qh, rh =>
    if rh < beta ∧ rh * beta + u3 < qh * v2 then refine v1 v2 u3 fuel (qh - 1) (rh + v1) else qh

/-- Steps 2a and 2b (R236, R237): the estimate of the quotient limb from the top limbs `u1 u2 u3` of the window and
`v1 v2` of the normalized divisor; with a one-limb divisor there is no refinement. -/
def estimate (dn u1 u2 u3 v1 v2 : Nat) : Nat :=
  let num := u1 * beta + u2
  let qh := min (num / v1) (beta - 1)
  let rh := num - qh * v1
  if 2 ≤ dn then refine v1 v2 u3 2 qh rh else qh

/-- One pass of the loop (R235 to R240) on the window `un[j..j+dn]`, given as its low `dn` limbs and its top limb:
the quotient limb and the window's new low limbs and top limb. -/
def divPass (vn low : List Limb) (top : Limb) : Limb × List Limb × Limb :=
  let dn := vn.length
  let limbAt (l : List Limb) (i : Nat) : Nat := (l.getD i 0).toNat
  let qh := estimate dn top.toNat (limbAt low (dn - 1)) (limbAt low (dn - 2)) (limbAt vn (dn - 1))
    (limbAt vn (dn - 2))
  let sub := submulChain (BitVec.ofNat 64 qh) low vn 0
  let top' := BitVec.ofInt 64 ((top.toNat : Int) - sub.2)
  if top.toNat < sub.2 then
    let back := addChain sub.1 vn 0
    (BitVec.ofNat 64 (qh - 1), back.1, BitVec.ofNat 64 (top'.toNat + back.2))
  else (BitVec.ofNat 64 qh, sub.1, top')

/-- Step 2 (R235): the passes for `j` from `count - 1` down to 0 over the normalized dividend `un`; `quot` collects the
quotient limbs, the lowest first (R240). -/
def divLoop (vn : List Limb) : Nat → List Limb → List Limb → List Limb × List Limb
  | 0, un, quot => (quot, un)
  | j + 1, un, quot =>
    let dn := vn.length
    let r := divPass vn ((un.drop j).take dn) (un.getD (j + dn) 0)
    divLoop vn j (un.take j ++ r.2.1 ++ r.2.2 :: un.drop (j + dn + 1)) (r.1 :: quot)

/-- The whole algorithm (R233 to R241): the quotient's `nn - dn + 1` limbs and the remainder's `dn` limbs. -/
def knuthDivide (u v : List Limb) : List Limb × List Limb :=
  let nn := u.length
  let dn := v.length
  let s := leadingZeros (v.getD (dn - 1) 0)
  let vn := limbs (val v * 2 ^ s) dn
  let un := limbs (val u * 2 ^ s) (nn + 1)
  let r := divLoop vn (nn - dn + 1) un []
  (r.1, limbs (val (r.2.take dn) / 2 ^ s) dn)

end Sys2Proof.Machine
end

