-- ==== Sys2Proof/Machine/Basecase.lean ====
section
/-! DEFINITION. Machine/Basecase.lean: unit C2, the schoolbook multiplier and squarer
(spec/41_basecase_multiply.md): the value equations the commands have, and the loop and the symmetric sum by which
the document realises them. -/

namespace Sys2Proof.Machine

/-- The product of two limb arrays by the value equation (R131): `na + nb` limbs. -/
def basecase (a : List Limb) (na : Nat) (b : List Limb) (nb : Nat) : List Limb :=
  limbs (val a * val b) (na + nb)

/-- The square of a limb array by the value equation (R134): `2n` limbs. -/
def basecaseSqr (a : List Limb) (n : Nat) : List Limb := limbs (val a * val a) (2 * n)

/-- `mul_basecase(r, a, na, b, nb)` (R131). -/
def execMulBasecase (s : State) : Host.Outcome State Fault Refusal :=
  s.run .mulBasecase noLateCheck fun o =>
    { stores := [(o.rp, basecase (s.memRead o.ap o.na) o.na (s.memRead o.bp o.nb) o.nb)], ret := 0 }

/-- `sqr_basecase(r, a, n)` (R134). -/
def execSqrBasecase (s : State) : Host.Outcome State Fault Refusal :=
  s.run .sqrBasecase noLateCheck fun o =>
    { stores := [(o.rp, basecaseSqr (s.memRead o.ap o.na) o.na)], ret := 0 }

/-- The loop of `mul_basecase` (R132).  `r` holds the limbs from position `j` on, of which the first `na` are in use
and the rest still zero; one pass runs `addmul_1` on them with scalar `b[j]` and puts its high limb on the limb above,
then the lowest limb is final. -/
def mulLoop (a : List Limb) : List Limb → List Limb → List Limb
  | r, [] => r
  | r, y :: ys =>
    let pass := addmulChain y (r.take a.length) a 0
    match pass.1 ++ BitVec.ofNat 64 pass.2 :: r.drop (a.length + 1) with
    | [] => []
    | low :: rest => low :: mulLoop a rest ys

/-- The whole loop of `mul_basecase` on a cleared result range (R132). -/
def mulByLoop (a b : List Limb) : List Limb :=
  mulLoop a (List.replicate (a.length + b.length) 0) b

/-- `OFF` of R135: each off-diagonal product `a[i]·a[j]·β^(i+j)`, `i < j`, once.  For the list `x :: xs` the products with
`x` are `x·val(xs)·β`, and those inside `xs` stand two limbs higher. -/
def offDiagonal : List Limb → Nat
  | [] => 0
  | x :: xs => x.toNat * val xs * beta + beta ^ 2 * offDiagonal xs

/-- `DIAG` of R135: the sum of `a[i]^2·β^(2i)`. -/
def diagonal : List Limb → Nat
  | [] => 0
  | x :: xs => x.toNat ^ 2 + beta ^ 2 * diagonal xs

end Sys2Proof.Machine
end

