-- ==== Sys2Proof/Machine/Karatsuba.lean ====
section
/-! DEFINITION. Machine/Karatsuba.lean: unit C3, the Karatsuba recursive multiplier controller
(spec/42_karatsuba.md). -/

namespace Sys2Proof.Machine

/-- `kara(a, b, n)` (R142 to R147) with threshold `K`: below it the base case, otherwise the additive three-way split.
The first argument bounds the recursion; `n` is always enough (R148), and when it is used up the product is the base
case's. -/
def kara (K : Nat) : Nat → List Limb → List Limb → Nat → List Limb
  | 0, a, b, n => limbs (val a * val b) (2 * n)
  | fuel + 1, a, b, n =>
    if n < K then limbs (val a * val b) (2 * n)
    else
      let h := (n + 1) / 2
      let l := n - h
      let z0 := kara K fuel (a.take h) (b.take h) h
      let z2 := kara K fuel (a.drop h) (b.drop h) l
      let sa := limbs (val (a.take h) + val (a.drop h)) (h + 1)
      let sb := limbs (val (b.take h) + val (b.drop h)) (h + 1)
      let zs := kara K fuel sa sb (h + 1)
      let z1 := val zs - val z0 - val z2
      limbs (val z0 + z1 * beta ^ h + val z2 * beta ^ (2 * h)) (2 * n)

/-- `kara_sqr(a, n)` (R151). -/
def karaSqr (K : Nat) : Nat → List Limb → Nat → List Limb
  | 0, a, n => basecaseSqr a n
  | fuel + 1, a, n =>
    if n < K then basecaseSqr a n
    else
      let h := (n + 1) / 2
      let l := n - h
      let z0 := karaSqr K fuel (a.take h) h
      let z2 := karaSqr K fuel (a.drop h) l
      let sa := limbs (val (a.take h) + val (a.drop h)) (h + 1)
      let zs := karaSqr K fuel sa (h + 1)
      let z1 := val zs - val z0 - val z2
      limbs (val z0 + z1 * beta ^ h + val z2 * beta ^ (2 * h)) (2 * n)

/-- `mul_karatsuba(r, a, b, n)` (R141); it needs scratch from `n >= K_THRESHOLD` on (R153). -/
def execMulKaratsuba (s : State) : Host.Outcome State Fault Refusal :=
  s.run .mulKaratsuba (fun o => s.allocFailure .mulKaratsuba (s.cfg.kThreshold ≤ o.na)) fun o =>
    { stores := [(o.rp, kara s.cfg.kThreshold o.na (s.memRead o.ap o.na) (s.memRead o.bp o.na) o.na)]
      ret := 0 }

/-- `sqr_karatsuba(r, a, n)` (R150). -/
def execSqrKaratsuba (s : State) : Host.Outcome State Fault Refusal :=
  s.run .sqrKaratsuba (fun o => s.allocFailure .sqrKaratsuba (s.cfg.kThreshold ≤ o.na)) fun o =>
    { stores := [(o.rp, karaSqr s.cfg.kThreshold o.na (s.memRead o.ap o.na) o.na)], ret := 0 }

end Sys2Proof.Machine
end

