-- ==== Sys2Proof/Machine/Ntt.lean ====
section
/-! DEFINITION. Machine/Ntt.lean: unit C4, the NTT convolution engine (spec/43_ntt_engine.md), step by step, on the
represented values (R164: the Montgomery form is a representation only, and a model need not have it). -/

namespace Sys2Proof.Machine

/-! ### Step 0 and step 7: the internal view -/

/-- The internal view of a limb array (R54, R161, R178): in V32 two 32-bit limbs for each limb, low half first; in V64
the limbs themselves. -/
def internalView (v : NttView) : List Limb → List Nat
  | [] => []
  | x :: xs =>
    match v with
    | .v32 => x.toNat % 2 ^ 32 :: x.toNat / 2 ^ 32 :: internalView v xs
    | .v64 => x.toNat :: internalView v xs

/-- Packing (R54, R175): the inverse of the view. -/
def pack (v : NttView) : List Nat → List Limb
  | [] => []
  | [x] => [BitVec.ofNat 64 x]
  | x :: y :: xs =>
    match v with
    | .v32 => BitVec.ofNat 64 (x + 2 ^ 32 * y) :: pack v xs
    | .v64 => BitVec.ofNat 64 x :: pack v (y :: xs)

/-! ### Steps 3 to 5: transform, multiply, transform back -/

/-- `sum of xs[t]·w^t` modulo `p`. -/
def evalMod (p : Nat) (xs : List Nat) (w : Nat) : Nat := xs.foldr (fun x acc => (x + w * acc) % p) 0

/-- `pad_N(x mod p)` (R167): reduced, and zero-padded to length `n`. -/
def padMod (p n : Nat) (xs : List Nat) : List Nat :=
  xs.map (· % p) ++ List.replicate (n - xs.length) 0

/-- Step 3 (R167): output `j` is `sum of x[t]·w^(t·j)` modulo `p`, where `powers` lists `w^j`. -/
def forward (p : Nat) (powers : List Nat) (xs : List Nat) : List Nat := powers.map (evalMod p xs)

/-- Step 4 (R169): the index-wise product. -/
def pointwise (p : Nat) (fa fb : List Nat) : List Nat := List.zipWith (fun x y => x * y % p) fa fb

/-- Step 5 (R170): the same sums with the inverse powers, then the scaling by `N^(-1)`. -/
def inverse (p : Nat) (invPowers : List Nat) (nInv : Nat) (xs : List Nat) : List Nat :=
  invPowers.map fun w => nInv * evalMod p xs w % p

/-- Steps 3 to 5 for prime index `i` (R160): the residues `c_i`. -/
def residues (c : Config) (i n : Nat) (a b : List Nat) : List Nat :=
  let p := c.prime i
  let t := c.twiddle i n
  inverse p t.invPowers t.nInv
    (pointwise p (forward p t.powers (padMod p n a)) (forward p t.powers (padMod p n b)))

/-- Steps 3 to 5 for a squaring (R177): one forward transform, squared. -/
def residuesSqr (c : Config) (i n : Nat) (a : List Nat) : List Nat :=
  let p := c.prime i
  let t := c.twiddle i n
  let fa := forward p t.powers (padMod p n a)
  inverse p t.invPowers t.nInv (fa.map fun x => x * x % p)

/-! ### Step 6: Garner -/

/-- Garner's recurrence (R172) over pairs (prime, residue), with the value `v` and the product `m` of the primes so far:
the mixed-radix digit is `((c_j - v) · m^(-1)) mod p_j`, all of it modulo `p_j`. -/
def garnerFrom : List (Nat × Nat) → Nat → Nat → Nat
  | [], v, _ => v
  | (p, r) :: rest, v, m =>
    let d := (r % p + (p - v % p)) % p * invMod (m % p) p % p
    garnerFrom rest (v + d * m) (m * p)

/-- `garner(c_1, ..., c_k)` (R172). -/
def garner (rows : List (Nat × Nat)) : Nat := garnerFrom rows 0 1

/-- Step 6 (R172): the coefficient at each index from the residues at that index. -/
def coefficients (primes : List Nat) (res : List (List Nat)) (n : Nat) : List Nat :=
  (List.range n).map fun t => garner (primes.zip (res.map fun r => r.getD t 0))

/-! ### Step 7: carries -/

/-- `carry_propagate` (R174) from the accumulator `acc` on. -/
def carryPropagate (base : Nat) : List Nat → Nat → List Nat
  | [], _ => []
  | x :: xs, acc => (acc + x) % base :: carryPropagate base xs ((acc + x) / base)

/-! ### The engine -/

/-- `L`, the length of the product in the internal view (R160). -/
def viewLen (c : Config) (n : Nat) : Nat := c.view.perLimb * n

/-- Steps 6 and 7 and packing (R160, R172, R174, R175). -/
def reconstruct (c : Config) (len n : Nat) (res : List (List Nat)) : List Limb :=
  pack c.view (carryPropagate c.view.base ((coefficients c.primes res n).take len) 0)

/-- Steps 0 to 7 of the engine (R160): the product limbs of two arrays. -/
def nttMul (c : Config) (a : List Limb) (na : Nat) (b : List Limb) (nb : Nat) : List Limb :=
  let len := viewLen c (na + nb)
  let n := c.selectSize len
  let a' := internalView c.view a
  let b' := internalView c.view b
  reconstruct c len n ((List.range c.primes.length).map fun i => residues c (i + 1) n a' b')

/-- The squaring form (R177). -/
def nttSqr (c : Config) (a : List Limb) (na : Nat) : List Limb :=
  let len := viewLen c (2 * na)
  let n := c.selectSize len
  let a' := internalView c.view a
  reconstruct c len n ((List.range c.primes.length).map fun i => residuesSqr c (i + 1) n a')

/-- A transform length exists for a product of `n` limbs (R162, R179): `L <= N_max`. -/
def nttFits (c : Config) (n : Nat) : Bool := viewLen c n ≤ c.nMax

/-- The tables an NTT product of `n` limbs makes present (R166). -/
def nttTables (c : Config) (n : Nat) : List TableName :=
  c.tablesOf (c.selectSize (viewLen c n))

/-- The late checks of the engine's own commands (R160, R179, R180): SizeLimit, then AllocationFailure. -/
def State.nttFailure (s : State) (i : Instr) (n : Nat) : Option ErrorKind :=
  if !nttFits s.cfg n then some .sizeLimit else s.allocFailure i true

/-- `mul_ntt(r, a, na, b, nb)` (R160). -/
def execMulNtt (s : State) : Host.Outcome State Fault Refusal :=
  s.run .mulNtt (fun o => s.nttFailure .mulNtt (o.na + o.nb)) fun o =>
    { stores := [(o.rp, nttMul s.cfg (s.memRead o.ap o.na) o.na (s.memRead o.bp o.nb) o.nb)]
      ret := 0
      tables := nttTables s.cfg (o.na + o.nb) }

/-- `sqr_ntt(r, a, n)` (R177). -/
def execSqrNtt (s : State) : Host.Outcome State Fault Refusal :=
  s.run .sqrNtt (fun o => s.nttFailure .sqrNtt (2 * o.na)) fun o =>
    { stores := [(o.rp, nttSqr s.cfg (s.memRead o.ap o.na) o.na)]
      ret := 0
      tables := nttTables s.cfg (2 * o.na) }

/-! ### Conforming realisations the spec writes out (R181, R182) -/

/-- `REDC(T)` (R181) for the odd modulus `p < R` with `p' = (-p^(-1)) mod R`. -/
def redc (p p' r t : Nat) : Nat :=
  let m := (t % r) * p' % r
  let u := (t + m * p) / r
  if u ≥ p then u - p else u

/-- One decimation-in-frequency stage of radix `c` (R182): part `s` of the input `x` of length `c·m` at index `t` is
`( sum over q < c of ζ^(s·q)·x[t + q·m] )·w^(s·t)` with `ζ = w^m`. -/
def difPart (p c m w : Nat) (x : List Nat) (s : Nat) : List Nat :=
  (List.range m).map fun t =>
    ((List.range c).map fun q => powMod w (m * (s * q)) p * x.getD (t + q * m) 0).sum
      * powMod w (s * t) p % p

/-- Put part `s` at the outputs `X[c·j + s]` (R182). -/
def mergeParts (c m : Nat) (parts : List (List Nat)) : List Nat :=
  (List.range (c * m)).map fun k => (parts.getD (k % c) []).getD (k / c) 0

/-- The mixed-radix transform (R168, R182): `radices` lists the stages from the top, the length is their product. -/
def difTransform (p : Nat) : List Nat → Nat → List Nat → List Nat
  | [], _, x => x
  | c :: cs, w, x =>
    let m := cs.prod
    mergeParts c m ((List.range c).map fun s => difTransform p cs (powMod w c p) (difPart p c m w x s))

end Sys2Proof.Machine
end

