-- ==== Sys2Proof/Machine/MulDispatch.lean ====
section
/-! DEFINITION. Machine/MulDispatch.lean: unit C5, the multiplication dispatcher (spec/44_dispatcher.md). -/

namespace Sys2Proof.Machine

/-- Cut a limb list from the low end into blocks of exactly `n` limbs, the last one holding what remains (R216).
The first argument bounds the number of blocks. -/
def blocksOf (n : Nat) : Nat → List Limb → List (List Limb)
  | 0, _ => []
  | fuel + 1, a => if a.length = 0 then [] else a.take n :: blocksOf n fuel (a.drop n)

/-- "sum with offset" (R216): the `t`-th product counts `β^(t·n)`. -/
def sumBlocks (n : Nat) : List (List Limb) → Nat
  | [] => 0
  | p :: ps => val p + beta ^ n * sumBlocks n ps

/-- `dispatch(a, na, b, nb, allow_ntt)` (R212 to R217).  The first argument bounds the recursion; `na + nb` is enough
(R216), and when it is used up the product is the base case's. -/
def dispatch (c : Config) : Nat → List Limb → Nat → List Limb → Nat → Bool → List Limb
  | 0, a, na, b, nb, _ => basecase a na b nb
  | fuel + 1, a, na, b, nb, allowNtt =>
    let m := min na nb
    let row24 (allow : Bool) : List Limb :=
      if na = nb then kara c.kThreshold na a b na
      else
        let long := if nb < na then a else b
        let short := if nb < na then b else a
        let prods := (blocksOf m (max na nb) long).map fun blk =>
          dispatch c fuel blk blk.length short m allow
        limbs (sumBlocks m prods) (na + nb)
    if m < c.kThreshold then basecase a na b nb
    else if allowNtt && c.nThreshold ≤ m then
      if nttFits c (na + nb) then nttMul c a na b nb else row24 false
    else row24 allowNtt

/-- The NTT row is the one `mul` takes (R214, R217): then the engine's tables become present.  A nested call of
`dispatch` never takes it: its smaller length is not larger, and after a fallback it is disallowed (R215). -/
def takesNtt (c : Config) (na nb : Nat) : Bool :=
  c.kThreshold ≤ min na nb && c.nThreshold ≤ min na nb && nttFits c (na + nb)

/-- `mul(r, a, na, b, nb)` (R210); it needs scratch whenever it leaves the base case (R220). -/
def execMul (s : State) : Host.Outcome State Fault Refusal :=
  s.run .mul (fun o => s.allocFailure .mul (s.cfg.kThreshold ≤ min o.na o.nb)) fun o =>
    { stores :=
        [(o.rp, dispatch s.cfg (o.na + o.nb) (s.memRead o.ap o.na) o.na (s.memRead o.bp o.nb) o.nb true)]
      ret := 0
      tables := if takesNtt s.cfg o.na o.nb then nttTables s.cfg (o.na + o.nb) else [] }

/-- The decision tree of `sqr` (R218). -/
def dispatchSqr (c : Config) (a : List Limb) (n : Nat) : List Limb :=
  if n < c.kThreshold then basecaseSqr a n
  else if c.nThreshold ≤ n && nttFits c (2 * n) then nttSqr c a n
  else karaSqr c.kThreshold n a n

/-- `sqr(r, a, n)` (R218). -/
def execSqr (s : State) : Host.Outcome State Fault Refusal :=
  s.run .sqr (fun o => s.allocFailure .sqr (s.cfg.kThreshold ≤ o.na)) fun o =>
    { stores := [(o.rp, dispatchSqr s.cfg (s.memRead o.ap o.na) o.na)]
      ret := 0
      tables := if takesNtt s.cfg o.na o.na then nttTables s.cfg (2 * o.na) else [] }

end Sys2Proof.Machine
end

