-- ==== Sys2Proof/Machine/Dispatch.lean ====
section
/-! DEFINITION. Machine/Dispatch.lean: which meaning each command has, one arm a command. -/

namespace Sys2Proof.Machine

def exec (i : Instr) (s : State) : Host.Outcome State Fault Refusal :=
  match i with
  | .addN => Sys2Proof.Machine.execAddN s
  | .subN => Sys2Proof.Machine.execSubN s
  | .add1 => Sys2Proof.Machine.execAdd1 s
  | .sub1 => Sys2Proof.Machine.execSub1 s
  | .mul1 => Sys2Proof.Machine.execMul1 s
  | .addmul1 => Sys2Proof.Machine.execAddmul1 s
  | .submul1 => Sys2Proof.Machine.execSubmul1 s
  | .lshift => Sys2Proof.Machine.execLshift s
  | .rshift => Sys2Proof.Machine.execRshift s
  | .cmp => Sys2Proof.Machine.execCmp s
  | .divrem1 => Sys2Proof.Machine.execDivrem1 s
  | .mulBasecase => Sys2Proof.Machine.execMulBasecase s
  | .sqrBasecase => Sys2Proof.Machine.execSqrBasecase s
  | .mulKaratsuba => Sys2Proof.Machine.execMulKaratsuba s
  | .sqrKaratsuba => Sys2Proof.Machine.execSqrKaratsuba s
  | .mulNtt => Sys2Proof.Machine.execMulNtt s
  | .sqrNtt => Sys2Proof.Machine.execSqrNtt s
  | .mul => Sys2Proof.Machine.execMul s
  | .sqr => Sys2Proof.Machine.execSqr s
  | .divQr => Sys2Proof.Machine.execDivQr s

end Sys2Proof.Machine
end

