-- ==== Sys2Proof/Machine/Step.lean ====
section
/-! DEFINITION. Machine/Step.lean: one step of the machine: the next action of the host (R20, R69, R76). -/

namespace Sys2Proof.Machine

/-- Execute a command word that has been written to `CMD` (R76 step 1): decode it and run the command, or raise
IllegalCommand (R79). -/
def execWord (w : Limb) (s : State) : Host.Outcome State Fault Refusal :=
  match decode w with
  | .ok i => exec i s
  | .error _ => .next s.illegal

/-- One step: carry out the host's next action, one atomic step (R20, R69, R76).  With no action pending the block is
idle and its state stands (R309). -/
def step (s : State) : Host.Outcome State Fault Refusal :=
  match s.host with
  | [] => .next s
  | act :: rest =>
    match act.commandWord with
    | some w => execWord w (s.startCommand w rest)
    | none => hostAct act { s with host := rest }

/-- The state `s` in which the host's next action is the write of a command word to `CMD` (R24): the low `nbits` bits of
`w`, every bit above them zero.  This is how a program reaches the block, which fetches no instructions (R27). -/
def State.withFetchWord (s : State) (nbits w : Nat) : State :=
  { s with host := .wr 0 (BitVec.ofNat 64 (w % 2 ^ nbits)) :: s.host }

end Sys2Proof.Machine
end

