-- ==== Sys2Proof/Safety.lean ====
section
/-! DEFINITION. Safety.lean: the terms in which claims about the machine are made: where operands may lie, what it means
that a command completed or ended in an error, what it left alone, which steps of a run are safe, and the invariant of
the state. -/

namespace Sys2Proof.Machine

/-! ### Where operands lie -/

/-- The range `[p, p + n)` lies inside limb memory (R62). -/
abbrev State.InLM (s : State) (p n : Nat) : Prop := n = 0 ∨ p + n ≤ s.cfg.memLimbs

/-- The ranges `[p, p + m)` and `[q, q + n)` are disjoint (R66). -/
abbrev Apart (p m q n : Nat) : Prop := m = 0 ∨ n = 0 ∨ p + m ≤ q ∨ q + n ≤ p

/-- The ranges `[p, p + n)` and `[q, q + n)` are identical or disjoint (R66). -/
abbrev InPlaceOrApart (p q n : Nat) : Prop := p = q ∨ Apart p n q n

/-- `val(MemRead(p, n))` (R16): the value of an array as a command that starts in `s` reads it. -/
abbrev State.valAt (s : State) (p n : Nat) : Nat := val (s.memRead p n)

/-- From index `p` upward limb memory holds exactly the list `l`, every limb a specified value. -/
def State.Holds (t : State) (p : Nat) (l : List Limb) : Prop :=
  ∀ (i : Nat) (h : i < l.length), t.mem.read (p + i) = some l[i]

/-! ### What a command leaves alone -/

/-- Every limb outside the given ranges (pointer, length) reads as before. -/
def MemoryKeptOutside (s t : State) (ranges : List (Nat × Nat)) : Prop :=
  ∀ a, (∀ r ∈ ranges, a < r.1 ∨ r.1 + r.2 ≤ a) → t.mem.read a = s.mem.read a

/-- What no command writes: the configuration, `CMD`, the six operand registers, the host's actions, and what the host
last read (R22, R40, R100). -/
structure Frame (s t : State) : Prop where
  cfg : t.cfg = s.cfg
  cmd : t.cmd = s.cmd
  rp : t.rp = s.rp
  ap : t.ap = s.ap
  bp : t.bp = s.bp
  na : t.na = s.na
  nb : t.nb = s.nb
  sc : t.sc = s.sc
  host : t.host = s.host
  rdata : t.rdata = s.rdata

/-- The tables of length `n` for every prime index are present, and no other table became present (R38, R166). -/
def TablesBuilt (s t : State) (n : Nat) : Prop :=
  ∀ i m, (i, m) ∈ t.tw ↔ (i, m) ∈ s.tw ∨ (1 ≤ i ∧ i ≤ s.cfg.primes.length ∧ m = n)

/-! ### How a command ends -/

/-- `t` is `s` after a command that completed without error (R76 step 5): it stored exactly the lists `out`, returned
`ret`, set `DONE`, cleared `ERROR` and `ERR`, and left alone what `Frame` names and every limb it did not store to. -/
structure Completed (s t : State) (out : List (Nat × List Limb)) (ret : Nat) : Prop where
  ret : t.ret.toNat = ret
  status : t.status = 1
  err : t.err = 0
  holds : ∀ w ∈ out, t.Holds w.1 w.2
  memory : MemoryKeptOutside s t (out.map fun w => (w.1, w.2.length))
  frame : Frame s t

/-- `t` is `s` after a command that ended in the error `code` (R300, R301): `ERR` and `STATUS` say so, the twiddle tables
and what `Frame` names are unchanged, and so is every limb outside the ranges `lost`, which are the command's write
ranges for the codes 2 to 4 and empty for the others.  Nothing is said of `RET` or of the limbs in `lost`. -/
structure Errored (s t : State) (code : Nat) (lost : List (Nat × Nat)) : Prop where
  err : t.err.toNat = code
  status : t.status = 3
  tables : t.tw = s.tw
  memory : MemoryKeptOutside s t lost
  frame : Frame s t

/-- The command `i` started in `s` ends in the error `code`. -/
def EndsIn (i : Instr) (s : State) (code : Nat) (lost : List (Nat × Nat) := []) : Prop :=
  ∃ t, exec i s = .next t ∧ Errored s t code lost

/-! ### Safe steps -/

/-- The register or limb that a host action names exists (R30, R34).  A step of any other action stops. -/
def HostAction.onBlock (c : Config) : HostAction → Prop
  | .wr r _ => r ≤ 15
  | .rd r => r ≤ 15
  | .st a _ => a < c.memLimbs
  | .ld a => a < c.memLimbs
  | .reset => True

/-- The next step of `s` is safe: it neither faults nor is refused. -/
def State.Safe (s : State) : Prop := ∀ act ∈ s.host.head?, act.onBlock s.cfg

/-! ### The invariant -/

/-- What every step keeps: the configuration is legal; limb memory is canonical and lists no index the block does not
have; the list of present tables is sorted, without repeats, names only tables that can exist, and is complete if
they are built at start-up (R37, R38); the reserved bits of `STATUS` and `ERR` read 0 and only the codes of R291 that
the block raises occur (R28, R29, R292); `ERROR` is set exactly when the code is not 0 (R29) and never without `DONE`;
before the first command `RET` and `ERR` are 0. -/
structure State.Inv (s : State) : Prop where
  legal : s.cfg.Legal
  canonical : s.mem.wf
  inside : ∀ c ∈ s.mem, c.1 < s.cfg.memLimbs
  sorted : s.tw.Pairwise fun x y => TableName.before x y = true
  named : ∀ x ∈ s.tw, 1 ≤ x.1 ∧ x.1 ≤ s.cfg.primes.length ∧ x.2 ∈ s.cfg.sizes
  precomputed : s.cfg.twPrecompute = true → ∀ i n, 1 ≤ i → i ≤ s.cfg.primes.length → n ∈ s.cfg.sizes → (i, n) ∈ s.tw
  status : s.status.toNat < 4
  code : s.err.toNat = 0 ∨ (2 ≤ s.err.toNat ∧ s.err.toNat ≤ 8)
  errorBit : s.error = true ↔ s.errCode ≠ 0
  errorDone : s.error = true → s.done = true
  fresh : s.done = false → s.ret = 0 ∧ s.err = 0

end Sys2Proof.Machine
end

