-- ==== Sys2Proof/Certificates/Slice0/Obligations.lean ====
section
/-! DEFINITION. Certificates/Slice0/Obligations.lean: the statements about the machine, in the terms of Safety.lean.

Every statement about one command gives its command word (R77) and speaks of `exec` from an arbitrary state; `step` runs
`exec` by `Obligations.StepRunsTheCommand`.  `limbs`, `limbsOfInt` and `val` are the notations of R14 and R16. -/

section
open Sys2Proof Sys2Proof.Machine

/-! ### Encoding -/

/-- The twenty command words of R77, each written out, select the commands R77 names. -/
def Obligations.CommandWordsDecode : Prop :=
  (decode 0x0000000000000001 = .ok .addN ∧ decode 0x0000000000000002 = .ok .subN ∧
    decode 0x0000000000000003 = .ok .add1 ∧ decode 0x0000000000000004 = .ok .sub1 ∧
    decode 0x0000000000000005 = .ok .mul1 ∧ decode 0x0000000000000006 = .ok .addmul1 ∧
    decode 0x0000000000000007 = .ok .submul1 ∧ decode 0x0000000000000008 = .ok .lshift ∧
    decode 0x0000000000000009 = .ok .rshift ∧ decode 0x000000000000000A = .ok .cmp ∧
    decode 0x000000000000000B = .ok .divrem1) ∧
  (decode 0x0000000000000010 = .ok .mulBasecase ∧ decode 0x0000000000000011 = .ok .sqrBasecase ∧
    decode 0x0000000000000020 = .ok .mulKaratsuba ∧ decode 0x0000000000000021 = .ok .sqrKaratsuba ∧
    decode 0x0000000000000030 = .ok .mulNtt ∧ decode 0x0000000000000031 = .ok .sqrNtt ∧
    decode 0x0000000000000040 = .ok .mul ∧ decode 0x0000000000000041 = .ok .sqr ∧
    decode 0x0000000000000050 = .ok .divQr)

/-- R75: a 64-bit word decodes to a command exactly when it is that command's encoding: each command comes back from its
own word, and no other word of the `2^64` is a command. -/
def Obligations.DecodeIsInverseOfEncode : Prop :=
  (∀ i : Instr, decode (encode i) = .ok i) ∧ ∀ (w : Limb) (i : Instr), decode w = .ok i → w = encode i

/-! ### A step -/

/-- R76: a host write of a command's word to `CMD` runs that command, on the state in which `CMD` holds the word and the
action is taken off the host's list. -/
def Obligations.StepRunsTheCommand : Prop :=
  ∀ (s : State) (w : Limb) (rest : List HostAction) (i : Instr),
    s.host = .wr 0 w :: rest → decode w = .ok i → step s = exec i { s with cmd := w, host := rest }

/-- R79: a word with any of bits 63:8 set, or with an unassigned opcode, raises IllegalCommand and changes nothing else. -/
def Obligations.IllegalWordsRaise : Prop :=
  ∀ (s : State) (w : Limb) (rest : List HostAction),
    s.host = .wr 0 w :: rest →
    (w.toNat / 2 ^ 8 ≠ 0 ∨
      w.toNat % 2 ^ 8 ∉ [0x01, 0x02, 0x03, 0x04, 0x05, 0x06, 0x07, 0x08, 0x09, 0x0A, 0x0B, 0x10, 0x11, 0x20, 0x21,
        0x30, 0x31, 0x40, 0x41, 0x50]) →
    ∃ t, step s = .next t ∧ Errored { s with cmd := w, host := rest } t 5 []

/-- R76, R28, R29: every write of `CMD`, whatever the word and the state, ends in one of two ways: without error, with
`STATUS = 1` and `ERR = 0`, or with error, with `STATUS = 3` and one of the codes 2 to 8 in `ERR`; `CMD` holds the
word. -/
def Obligations.EveryCommandEnds : Prop :=
  ∀ (s : State) (w : Limb) (rest : List HostAction), s.host = .wr 0 w :: rest →
    ∃ t, step s = .next t ∧ t.cmd = w ∧ t.host = rest ∧
      ((t.status = 1 ∧ t.err = 0) ∨ (t.status = 3 ∧ 2 ≤ t.err.toNat ∧ t.err.toNat ≤ 8))

/-- R318: `DONE`, once set, stays set in every step but a reset of the block. -/
def Obligations.DoneStaysUntilReset : Prop :=
  ∀ s t : State, step s = .next t → s.host.head? ≠ some .reset → s.done = true → t.done = true

/-- R290: a host action that is neither a write of `CMD` nor a reset raises no error: `STATUS`, `ERR`, `RET`, `CMD` and the
twiddle tables stay as they are. -/
def Obligations.HostAccessRaisesNoError : Prop :=
  ∀ (s t : State) (act : HostAction) (rest : List HostAction),
    s.host = act :: rest → (∀ w, act ≠ .wr 0 w) → act ≠ .reset → step s = .next t →
    t.status = s.status ∧ t.err = s.err ∧ t.ret = s.ret ∧ t.cmd = s.cmd ∧ t.tw = s.tw ∧ t.cfg = s.cfg

/-- A step goes on exactly when the host's next action names a register or a limb the block has; with no action pending
the state stands (R309).  That the model stops on the others, and how it idles, is the model's choice
(notes/assumptions/2.md and 12.md). -/
def Obligations.StepsThatGoOn : Prop :=
  (∀ s : State, s.Safe ↔ ∃ t, step s = .next t) ∧ ∀ s : State, s.host = [] → step s = .next s

/-! ### The host's accesses -/

/-- R21, R30: a host write to one of the operand registers 1 to 6 is read back, and changes no other register and no limb;
a write to one of the read-only registers 7 to 15 changes nothing. -/
def Obligations.HostWritesRegisters : Prop :=
  ∀ (s : State) (r : Nat) (v : Limb) (rest : List HostAction), s.host = .wr r v :: rest →
    (1 ≤ r → r ≤ 6 → ∃ t, step s = .next t ∧ t.readReg r = some v ∧ (∀ q, q ≠ r → t.readReg q = s.readReg q) ∧
      t.mem = s.mem ∧ t.tw = s.tw ∧ t.cfg = s.cfg ∧ t.host = rest) ∧
    (7 ≤ r → r ≤ 15 → step s = .next { s with host := rest })

/-- R31, R32, R33: what the host reads from the configuration registers and from register 15, in every legal
configuration; reading changes no register, no limb and no twiddle table; and no step changes these registers. -/
def Obligations.HostReadsConfiguration : Prop :=
  (∀ (s : State) (r : Nat) (rest : List HostAction), s.host = .rd r :: rest → r ≤ 15 →
    ∃ v, s.readReg r = some v ∧ step s = .next { s with host := rest, rdata := v }) ∧
  ∀ s : State, s.cfg.Legal →
    (∃ id, s.readReg 10 = some id ∧ id.toNat % 2 ^ 8 = 64 ∧ id.toNat / 2 ^ 8 % 2 ^ 8 = s.cfg.view.width ∧
      id.toNat / 2 ^ 16 % 2 ^ 8 = s.cfg.primes.length ∧ id.toNat / 2 ^ 24 % 2 ^ 8 = 1 ∧ id.toNat / 2 ^ 32 = 0) ∧
    (∃ k, s.readReg 11 = some k ∧ k.toNat = s.cfg.kThreshold) ∧
    (∃ n, s.readReg 12 = some n ∧ n.toNat = s.cfg.nThreshold) ∧
    (∃ n, s.readReg 13 = some n ∧ n.toNat = s.cfg.nMax) ∧
    (∃ m, s.readReg 14 = some m ∧ m.toNat = s.cfg.memLimbs) ∧ s.readReg 15 = some 0 ∧
    (s.cfg.view = .v32 → s.cfg.nMax = 25165824) ∧ (s.cfg = Config.reference → s.readReg 10 = some 0x01032040) ∧
    ∀ t, step s = .next t → ∀ r, 10 ≤ r → t.readReg r = s.readReg r

/-- R34, R69: a limb the host stores is there for every later access, and no other limb, register or table changes; a
host load of a limb that holds a specified value returns it. -/
def Obligations.HostStoresAndLoads : Prop :=
  (∀ (s : State) (a : Nat) (v : Limb) (rest : List HostAction), s.host = .st a v :: rest → a < s.cfg.memLimbs →
    ∃ t, step s = .next t ∧ t.mem.read a = some v ∧ MemoryKeptOutside s t [(a, 1)] ∧
      (∀ q, t.readReg q = s.readReg q) ∧ t.tw = s.tw ∧ t.host = rest) ∧
  (∀ (s : State) (a : Nat) (v : Limb) (rest : List HostAction), s.host = .ld a :: rest → a < s.cfg.memLimbs →
    s.mem.read a = some v →
    ∃ t, step s = .next t ∧ t.rdata = v ∧ t.mem = s.mem ∧ (∀ q, t.readReg q = s.readReg q) ∧ t.tw = s.tw ∧
      t.host = rest)

/-! ### Reset -/

/-- R41: the state after reset of a block with configuration `c`: registers 0 to 9 and 15 read 0, the configuration
registers their constants, no limb holds a specified value, the twiddle tables are absent, or all present with
`TW_PRECOMPUTE`. -/
def Obligations.ResetLeavesStatedValues : Prop :=
  ∀ c : Config,
    (∀ r, r ≤ 9 ∨ r = 15 → (State.resetOf c).readReg r = some 0) ∧
    (State.resetOf c).readReg 10 = some (idWord c) ∧
    (State.resetOf c).readReg 11 = some (BitVec.ofNat 64 c.kThreshold) ∧
    (State.resetOf c).readReg 12 = some (BitVec.ofNat 64 c.nThreshold) ∧
    (State.resetOf c).readReg 13 = some (BitVec.ofNat 64 c.nMax) ∧
    (State.resetOf c).readReg 14 = some (BitVec.ofNat 64 c.memLimbs) ∧
    (∀ a, (State.resetOf c).mem.read a = none) ∧
    ∀ i n, (i, n) ∈ (State.resetOf c).tw ↔
      c.twPrecompute = true ∧ 1 ≤ i ∧ i ≤ c.primes.length ∧ n ∈ c.sizes

/-- R320, R321: a reset by the platform, whatever the state, leaves registers 0 to 9 and 15 at 0, the configuration registers
at their constants, no specified limb, and the twiddle tables as after R41; the configuration is the same. -/
def Obligations.PlatformResetGivesResetState : Prop :=
  ∀ (s : State) (rest : List HostAction), s.host = .reset :: rest →
    ∃ t, step s = .next t ∧ t.cfg = s.cfg ∧ t.host = rest ∧
      (∀ r, r ≤ 9 ∨ r = 15 → t.readReg r = some 0) ∧ (∀ r, 10 ≤ r → r ≤ 14 → t.readReg r = s.readReg r) ∧
      (∀ a, t.mem.read a = none) ∧
      ∀ i n, (i, n) ∈ t.tw ↔ s.cfg.twPrecompute = true ∧ 1 ≤ i ∧ i ≤ s.cfg.primes.length ∧ n ∈ s.cfg.sizes

/-! ### The invariant -/

/-- The invariant holds right after the reset of a block with any legal configuration, and right after that of the machine
itself, whose configuration is the reference one (the model's choice, notes/assumptions/3.md); in particular the reference
configuration is legal (R163, R165). -/
def Obligations.ResetKeepsInvariant : Prop :=
  (∀ c : Config, c.Legal → (State.resetOf c).Inv) ∧ State.reset = State.resetOf Config.reference ∧ State.reset.Inv

/-- Every step from a state in which the invariant holds leads to one in which it holds. -/
def Obligations.StepKeepsInvariant : Prop := ∀ s t : State, s.Inv → step s = .next t → t.Inv

/-! ### C1: the limb primitives -/

/-- R102: `add_n`.  The carry out is 0 or 1. -/
def Obligations.AddNStoresSum : Prop :=
  decode 0x01 = .ok .addN ∧ ∀ s : State,
    let n := s.na.toNat
    let out := s.rp.toNat
    let a := s.ap.toNat
    let b := s.bp.toNat
    let sum := s.valAt a n + s.valAt b n
    let ranges := s.InLM a n ∧ s.InLM b n ∧ s.InLM out n
    let overlap := InPlaceOrApart out a n ∧ InPlaceOrApart out b n
    (ranges → overlap →
      ∃ t, exec .addN s = .next t ∧ Completed s t [(out, limbs sum n)] (sum / beta ^ n) ∧ t.tw = s.tw ∧
        sum / beta ^ n ≤ 1) ∧
    (¬ranges → EndsIn .addN s 8) ∧ (ranges → ¬overlap → EndsIn .addN s 7)

/-- R104: `sub_n`. -/
def Obligations.SubNStoresDifference : Prop :=
  decode 0x02 = .ok .subN ∧ ∀ s : State,
    let n := s.na.toNat
    let out := s.rp.toNat
    let a := s.ap.toNat
    let b := s.bp.toNat
    let diff : Int := (s.valAt a n : Int) - s.valAt b n
    let borrow := if s.valAt a n < s.valAt b n then 1 else 0
    let ranges := s.InLM a n ∧ s.InLM b n ∧ s.InLM out n
    let overlap := InPlaceOrApart out a n ∧ InPlaceOrApart out b n
    (ranges → overlap →
      ∃ t, exec .subN s = .next t ∧ Completed s t [(out, limbsOfInt diff n)] borrow ∧ t.tw = s.tw ∧
        diff = (val (limbsOfInt diff n) : Int) - borrow * (beta ^ n : Nat)) ∧
    (¬ranges → EndsIn .subN s 8) ∧ (ranges → ¬overlap → EndsIn .subN s 7)

/-- R106: `add_1`; with `n = 0` it returns the scalar. -/
def Obligations.AddOneStoresSum : Prop :=
  decode 0x03 = .ok .add1 ∧ ∀ s : State,
    let n := s.na.toNat
    let out := s.rp.toNat
    let a := s.ap.toNat
    let sum := s.valAt a n + s.sc.toNat
    let ranges := s.InLM a n ∧ s.InLM out n
    (ranges → InPlaceOrApart out a n →
      ∃ t, exec .add1 s = .next t ∧ Completed s t [(out, limbs sum n)] (sum / beta ^ n) ∧ t.tw = s.tw ∧
        (n = 0 → t.ret = s.sc) ∧ (1 ≤ n → sum / beta ^ n ≤ 1)) ∧
    (¬ranges → EndsIn .add1 s 8) ∧ (ranges → ¬InPlaceOrApart out a n → EndsIn .add1 s 7)

/-- R108: `sub_1`; with `n = 0` it returns the scalar. -/
def Obligations.SubOneStoresDifference : Prop :=
  decode 0x04 = .ok .sub1 ∧ ∀ s : State,
    let n := s.na.toNat
    let out := s.rp.toNat
    let a := s.ap.toNat
    let diff : Int := (s.valAt a n : Int) - s.sc.toNat
    let borrow := if n = 0 then s.sc.toNat else if s.valAt a n < s.sc.toNat then 1 else 0
    let ranges := s.InLM a n ∧ s.InLM out n
    (ranges → InPlaceOrApart out a n →
      ∃ t, exec .sub1 s = .next t ∧ Completed s t [(out, limbsOfInt diff n)] borrow ∧ t.tw = s.tw ∧
        diff = (val (limbsOfInt diff n) : Int) - borrow * (beta ^ n : Nat)) ∧
    (¬ranges → EndsIn .sub1 s 8) ∧ (ranges → ¬InPlaceOrApart out a n → EndsIn .sub1 s 7)

/-- R110: `mul_1`.  The high limb is at most `β - 2`. -/
def Obligations.MulOneStoresProduct : Prop :=
  decode 0x05 = .ok .mul1 ∧ ∀ s : State,
    let n := s.na.toNat
    let out := s.rp.toNat
    let a := s.ap.toNat
    let prod := s.valAt a n * s.sc.toNat
    let ranges := s.InLM a n ∧ s.InLM out n
    (ranges → Apart out n a n →
      ∃ t, exec .mul1 s = .next t ∧ Completed s t [(out, limbs prod n)] (prod / beta ^ n) ∧ t.tw = s.tw ∧
        prod / beta ^ n ≤ beta - 2) ∧
    (¬ranges → EndsIn .mul1 s 8) ∧ (ranges → ¬Apart out n a n → EndsIn .mul1 s 7)

/-- R112: `addmul_1`: the old content of `out` is an input. -/
def Obligations.AddmulOneAccumulates : Prop :=
  decode 0x06 = .ok .addmul1 ∧ ∀ s : State,
    let n := s.na.toNat
    let out := s.rp.toNat
    let a := s.ap.toNat
    let total := s.valAt out n + s.valAt a n * s.sc.toNat
    let ranges := s.InLM a n ∧ s.InLM out n
    (ranges → Apart out n a n →
      ∃ t, exec .addmul1 s = .next t ∧ Completed s t [(out, limbs total n)] (total / beta ^ n) ∧ t.tw = s.tw ∧
        total / beta ^ n ≤ beta - 1) ∧
    (¬ranges → EndsIn .addmul1 s 8) ∧ (ranges → ¬Apart out n a n → EndsIn .addmul1 s 7)

/-- R114: `submul_1`: `RET` is the unique `w` with `T = val(out) - w·β^n`. -/
def Obligations.SubmulOneSubtracts : Prop :=
  decode 0x07 = .ok .submul1 ∧ ∀ s : State,
    let n := s.na.toNat
    let out := s.rp.toNat
    let a := s.ap.toNat
    let total : Int := (s.valAt out n : Int) - s.valAt a n * s.sc.toNat
    let ranges := s.InLM a n ∧ s.InLM out n
    (ranges → Apart out n a n →
      ∃ t w, exec .submul1 s = .next t ∧ Completed s t [(out, limbsOfInt total n)] w ∧ t.tw = s.tw ∧
        total = (val (limbsOfInt total n) : Int) - w * (beta ^ n : Nat)) ∧
    (¬ranges → EndsIn .submul1 s 8) ∧ (ranges → ¬Apart out n a n → EndsIn .submul1 s 7)

/-- R116, R117: `lshift`: a count of 64 or more is BadOperand; the bits shifted out stand right-aligned in `RET`. -/
def Obligations.LshiftStoresShiftedLeft : Prop :=
  decode 0x08 = .ok .lshift ∧ ∀ s : State,
    let n := s.na.toNat
    let out := s.rp.toNat
    let a := s.ap.toNat
    let k := s.sc.toNat
    let v := s.valAt a n * 2 ^ k
    let ranges := s.InLM a n ∧ s.InLM out n
    (64 ≤ k → EndsIn .lshift s 6) ∧
    (k < 64 → ranges → InPlaceOrApart out a n →
      ∃ t, exec .lshift s = .next t ∧ Completed s t [(out, limbs v n)] (v / beta ^ n) ∧ t.tw = s.tw ∧
        v / beta ^ n < 2 ^ k) ∧
    (k < 64 → ¬ranges → EndsIn .lshift s 8) ∧ (k < 64 → ranges → ¬InPlaceOrApart out a n → EndsIn .lshift s 7)

/-- R116, R119: `rshift`: the bits shifted out stand left-aligned in `RET`. -/
def Obligations.RshiftStoresShiftedRight : Prop :=
  decode 0x09 = .ok .rshift ∧ ∀ s : State,
    let n := s.na.toNat
    let out := s.rp.toNat
    let a := s.ap.toNat
    let k := s.sc.toNat
    let low := if k = 0 then 0 else s.valAt a n % 2 ^ k * 2 ^ (64 - k)
    let ranges := s.InLM a n ∧ s.InLM out n
    (64 ≤ k → EndsIn .rshift s 6) ∧
    (k < 64 → ranges → InPlaceOrApart out a n →
      ∃ t, exec .rshift s = .next t ∧ Completed s t [(out, limbs (s.valAt a n / 2 ^ k) n)] low ∧ t.tw = s.tw ∧
        s.valAt a n * beta = (s.valAt a n / 2 ^ k * beta + low) * 2 ^ k) ∧
    (k < 64 → ¬ranges → EndsIn .rshift s 8) ∧ (k < 64 → ranges → ¬InPlaceOrApart out a n → EndsIn .rshift s 7)

/-- R124: `cmp` writes no limb; `RET` is all ones, 0 or 1.  Its only error is AddressRange. -/
def Obligations.CmpReturnsOrdering : Prop :=
  decode 0x0A = .ok .cmp ∧ ∀ s : State,
    let n := s.na.toNat
    let a := s.valAt s.ap.toNat n
    let b := s.valAt s.bp.toNat n
    let ranges := s.InLM s.ap.toNat n ∧ s.InLM s.bp.toNat n
    (ranges →
      ∃ t, exec .cmp s = .next t ∧
        Completed s t [] (if a < b then 0xFFFFFFFFFFFFFFFF else if a = b then 0 else 1) ∧ t.tw = s.tw) ∧
    (¬ranges → EndsIn .cmp s 8)

/-- R126: `divrem_1`: a zero scalar is DivisionByZero, after the range and overlap checks. -/
def Obligations.DivremOneStoresQuotient : Prop :=
  decode 0x0B = .ok .divrem1 ∧ ∀ s : State,
    let n := s.na.toNat
    let quot := s.rp.toNat
    let a := s.ap.toNat
    let d := s.sc.toNat
    let ranges := s.InLM a n ∧ s.InLM quot n
    (ranges → Apart quot n a n → d ≠ 0 →
      ∃ t, exec .divrem1 s = .next t ∧
        Completed s t [(quot, limbs (s.valAt a n / d) n)] (s.valAt a n % d) ∧ t.tw = s.tw ∧
        s.valAt a n = val (limbs (s.valAt a n / d) n) * d + s.valAt a n % d) ∧
    (¬ranges → EndsIn .divrem1 s 8) ∧ (ranges → ¬Apart quot n a n → EndsIn .divrem1 s 7) ∧
    (ranges → Apart quot n a n → d = 0 → EndsIn .divrem1 s 2 [(quot, n)])

/-! ### C2: the base case -/

/-- R131: `mul_basecase`: all `na + nb` limbs of the product are written, and no bit of it is lost. -/
def Obligations.MulBasecaseStoresProduct : Prop :=
  decode 0x10 = .ok .mulBasecase ∧ ∀ s : State,
    let na := s.na.toNat
    let nb := s.nb.toNat
    let r := s.rp.toNat
    let a := s.ap.toNat
    let b := s.bp.toNat
    let prod := s.valAt a na * s.valAt b nb
    let ranges := s.InLM a na ∧ s.InLM b nb ∧ s.InLM r (na + nb)
    let apart := Apart r (na + nb) a na ∧ Apart r (na + nb) b nb
    (ranges → apart →
      ∃ t, exec .mulBasecase s = .next t ∧ Completed s t [(r, limbs prod (na + nb))] 0 ∧ t.tw = s.tw ∧
        val (limbs prod (na + nb)) = prod) ∧
    (¬ranges → EndsIn .mulBasecase s 8) ∧ (ranges → ¬apart → EndsIn .mulBasecase s 7)

/-- R134: `sqr_basecase`. -/
def Obligations.SqrBasecaseStoresSquare : Prop :=
  decode 0x11 = .ok .sqrBasecase ∧ ∀ s : State,
    let n := s.na.toNat
    let r := s.rp.toNat
    let a := s.ap.toNat
    let square := s.valAt a n * s.valAt a n
    let ranges := s.InLM a n ∧ s.InLM r (2 * n)
    (ranges → Apart r (2 * n) a n →
      ∃ t, exec .sqrBasecase s = .next t ∧ Completed s t [(r, limbs square (2 * n))] 0 ∧ t.tw = s.tw ∧
        val (limbs square (2 * n)) = square) ∧
    (¬ranges → EndsIn .sqrBasecase s 8) ∧ (ranges → ¬Apart r (2 * n) a n → EndsIn .sqrBasecase s 7)

/-! ### C3: Karatsuba -/

/-- R141, R153: `mul_karatsuba` writes the exact product; from `n >= K_THRESHOLD` on it asks for scratch. -/
def Obligations.MulKaratsubaStoresProduct : Prop :=
  decode 0x20 = .ok .mulKaratsuba ∧ ∀ s : State,
    let n := s.na.toNat
    let r := s.rp.toNat
    let a := s.ap.toNat
    let b := s.bp.toNat
    let ranges := s.InLM a n ∧ s.InLM b n ∧ s.InLM r (2 * n)
    let apart := Apart r (2 * n) a n ∧ Apart r (2 * n) b n
    let scratch := n < s.cfg.kThreshold ∨ s.allocOk .mulKaratsuba = true
    (ranges → apart → scratch →
      ∃ t, exec .mulKaratsuba s = .next t ∧
        Completed s t [(r, limbs (s.valAt a n * s.valAt b n) (2 * n))] 0 ∧ t.tw = s.tw) ∧
    (¬ranges → EndsIn .mulKaratsuba s 8) ∧ (ranges → ¬apart → EndsIn .mulKaratsuba s 7) ∧
    (ranges → apart → ¬scratch → EndsIn .mulKaratsuba s 3 [(r, 2 * n)])

/-- R150, R153: `sqr_karatsuba`. -/
def Obligations.SqrKaratsubaStoresSquare : Prop :=
  decode 0x21 = .ok .sqrKaratsuba ∧ ∀ s : State,
    let n := s.na.toNat
    let r := s.rp.toNat
    let a := s.ap.toNat
    let ranges := s.InLM a n ∧ s.InLM r (2 * n)
    let scratch := n < s.cfg.kThreshold ∨ s.allocOk .sqrKaratsuba = true
    (ranges → Apart r (2 * n) a n → scratch →
      ∃ t, exec .sqrKaratsuba s = .next t ∧
        Completed s t [(r, limbs (s.valAt a n * s.valAt a n) (2 * n))] 0 ∧ t.tw = s.tw) ∧
    (¬ranges → EndsIn .sqrKaratsuba s 8) ∧ (ranges → ¬Apart r (2 * n) a n → EndsIn .sqrKaratsuba s 7) ∧
    (ranges → Apart r (2 * n) a n → ¬scratch → EndsIn .sqrKaratsuba s 3 [(r, 2 * n)])

/-! ### C4: the NTT engine -/

/-- R160, R166, R176, R179, R180: `mul_ntt`, whose meaning runs the seven steps of the engine, writes the exact product in
every legal configuration, and makes present exactly the tables of the selected length. -/
def Obligations.MulNttStoresProduct : Prop :=
  decode 0x30 = .ok .mulNtt ∧ ∀ s : State,
    let na := s.na.toNat
    let nb := s.nb.toNat
    let r := s.rp.toNat
    let a := s.ap.toNat
    let b := s.bp.toNat
    let len := s.cfg.view.perLimb * (na + nb)
    let ranges := s.InLM a na ∧ s.InLM b nb ∧ s.InLM r (na + nb)
    let apart := Apart r (na + nb) a na ∧ Apart r (na + nb) b nb
    (s.cfg.Legal → ranges → apart → len ≤ s.cfg.nMax → s.allocOk .mulNtt = true →
      ∃ t, exec .mulNtt s = .next t ∧
        Completed s t [(r, limbs (s.valAt a na * s.valAt b nb) (na + nb))] 0 ∧
        TablesBuilt s t (s.cfg.selectSize len)) ∧
    (¬ranges → EndsIn .mulNtt s 8) ∧ (ranges → ¬apart → EndsIn .mulNtt s 7) ∧
    (ranges → apart → s.cfg.nMax < len → EndsIn .mulNtt s 4 [(r, na + nb)]) ∧
    (ranges → apart → len ≤ s.cfg.nMax → s.allocOk .mulNtt = false → EndsIn .mulNtt s 3 [(r, na + nb)])

/-- R177, R166, R176, R179, R180: `sqr_ntt`. -/
def Obligations.SqrNttStoresSquare : Prop :=
  decode 0x31 = .ok .sqrNtt ∧ ∀ s : State,
    let n := s.na.toNat
    let r := s.rp.toNat
    let a := s.ap.toNat
    let len := s.cfg.view.perLimb * (2 * n)
    let ranges := s.InLM a n ∧ s.InLM r (2 * n)
    (s.cfg.Legal → ranges → Apart r (2 * n) a n → len ≤ s.cfg.nMax → s.allocOk .sqrNtt = true →
      ∃ t, exec .sqrNtt s = .next t ∧
        Completed s t [(r, limbs (s.valAt a n * s.valAt a n) (2 * n))] 0 ∧
        TablesBuilt s t (s.cfg.selectSize len)) ∧
    (¬ranges → EndsIn .sqrNtt s 8) ∧ (ranges → ¬Apart r (2 * n) a n → EndsIn .sqrNtt s 7) ∧
    (ranges → Apart r (2 * n) a n → s.cfg.nMax < len → EndsIn .sqrNtt s 4 [(r, 2 * n)]) ∧
    (ranges → Apart r (2 * n) a n → len ≤ s.cfg.nMax → s.allocOk .sqrNtt = false →
      EndsIn .sqrNtt s 3 [(r, 2 * n)])

/-! ### C5: the dispatcher -/

/-- R210, R211, R214, R215, R220: `mul` writes the exact product in every legal configuration, whichever algorithm runs; it
never ends in SizeLimit; the NTT row alone makes tables present. -/
def Obligations.MulStoresProduct : Prop :=
  decode 0x40 = .ok .mul ∧ ∀ s : State,
    let na := s.na.toNat
    let nb := s.nb.toNat
    let r := s.rp.toNat
    let a := s.ap.toNat
    let b := s.bp.toNat
    let len := s.cfg.view.perLimb * (na + nb)
    let ranges := s.InLM a na ∧ s.InLM b nb ∧ s.InLM r (na + nb)
    let apart := Apart r (na + nb) a na ∧ Apart r (na + nb) b nb
    let scratch := min na nb < s.cfg.kThreshold ∨ s.allocOk .mul = true
    let nttRow := s.cfg.kThreshold ≤ min na nb ∧ s.cfg.nThreshold ≤ min na nb ∧ len ≤ s.cfg.nMax
    (s.cfg.Legal → ranges → apart → scratch →
      ∃ t, exec .mul s = .next t ∧
        Completed s t [(r, limbs (s.valAt a na * s.valAt b nb) (na + nb))] 0 ∧
        (nttRow → TablesBuilt s t (s.cfg.selectSize len)) ∧ (¬nttRow → t.tw = s.tw)) ∧
    (¬ranges → EndsIn .mul s 8) ∧ (ranges → ¬apart → EndsIn .mul s 7) ∧
    (ranges → apart → ¬scratch → EndsIn .mul s 3 [(r, na + nb)])

/-- R218, R211, R220: `sqr`. -/
def Obligations.SqrStoresSquare : Prop :=
  decode 0x41 = .ok .sqr ∧ ∀ s : State,
    let n := s.na.toNat
    let r := s.rp.toNat
    let a := s.ap.toNat
    let len := s.cfg.view.perLimb * (2 * n)
    let ranges := s.InLM a n ∧ s.InLM r (2 * n)
    let scratch := n < s.cfg.kThreshold ∨ s.allocOk .sqr = true
    let nttRow := s.cfg.kThreshold ≤ n ∧ s.cfg.nThreshold ≤ n ∧ len ≤ s.cfg.nMax
    (s.cfg.Legal → ranges → Apart r (2 * n) a n → scratch →
      ∃ t, exec .sqr s = .next t ∧
        Completed s t [(r, limbs (s.valAt a n * s.valAt a n) (2 * n))] 0 ∧
        (nttRow → TablesBuilt s t (s.cfg.selectSize len)) ∧ (¬nttRow → t.tw = s.tw)) ∧
    (¬ranges → EndsIn .sqr s 8) ∧ (ranges → ¬Apart r (2 * n) a n → EndsIn .sqr s 7) ∧
    (ranges → Apart r (2 * n) a n → ¬scratch → EndsIn .sqr s 3 [(r, 2 * n)])

/-! ### C6: the divider -/

/-- R230, R231, R232, R242: `div_qr`: the six checks in their order, and the quotient, the remainder in the dividend's low
limbs, zeros above it. -/
def Obligations.DivQrStoresQuotientAndRemainder : Prop :=
  decode 0x50 = .ok .divQr ∧ ∀ s : State,
    let nn := s.na.toNat
    let dn := s.nb.toNat
    let quot := s.rp.toNat
    let u := s.ap.toNat
    let v := s.bp.toNat
    let ql := if dn = 0 then 0 else nn - dn + 1
    let ranges := s.InLM u nn ∧ s.InLM v dn ∧ s.InLM quot ql
    let apart := Apart quot ql u nn ∧ Apart quot ql v dn ∧ Apart u nn v dn
    let lost := [(quot, ql), (u, nn)]
    (1 ≤ dn → nn < dn → EndsIn .divQr s 6) ∧
    ((dn = 0 ∨ dn ≤ nn) →
      (¬ranges → EndsIn .divQr s 8) ∧ (ranges → ¬apart → EndsIn .divQr s 7) ∧
      (ranges → apart → s.valAt v dn = 0 → EndsIn .divQr s 2 lost) ∧
      (ranges → apart → s.valAt v dn ≠ 0 → s.limb (v + (dn - 1)) = 0 → EndsIn .divQr s 6) ∧
      (ranges → apart → s.valAt v dn ≠ 0 → s.limb (v + (dn - 1)) ≠ 0 → s.allocOk .divQr = false →
        EndsIn .divQr s 3 lost) ∧
      (ranges → apart → s.valAt v dn ≠ 0 → s.limb (v + (dn - 1)) ≠ 0 → s.allocOk .divQr = true →
        ∃ t, exec .divQr s = .next t ∧
          Completed s t
            [(quot, limbs (s.valAt u nn / s.valAt v dn) (nn - dn + 1)), (u, limbs (s.valAt u nn % s.valAt v dn) dn),
              (u + dn, List.replicate (nn - dn) 0)] 0 ∧
          t.tw = s.tw ∧
          s.valAt u nn = val (limbs (s.valAt u nn / s.valAt v dn) (nn - dn + 1)) * s.valAt v dn
            + val (limbs (s.valAt u nn % s.valAt v dn) dn) ∧
          val (limbs (s.valAt u nn % s.valAt v dn) dn) < s.valAt v dn))

/-! ### Errors -/

/-- R302, R296: which error a write of `CMD` ends in: IllegalCommand for a word that is no command; for every command and
every state, the first check that fails, in the order of R302; code 0 when none fails. -/
def Obligations.FirstFailingCheckIsReported : Prop :=
  (∀ (s : State) (w : Limb) (rest : List HostAction), s.host = .wr 0 w :: rest → (∀ i, decode w ≠ .ok i) →
    ∃ t, step s = .next t ∧ t.err = 5) ∧
  ∀ (i : Instr) (s : State),
    let o := s.operands
    let second := match i with | .mulNtt | .mul => o.nb | _ => o.na
    let bad := ((i = .lshift ∨ i = .rshift) ∧ 64 ≤ o.sc) ∨ (i = .divQr ∧ 1 ≤ o.nb ∧ o.na < o.nb)
    let range := footprintInside i s.cfg o = false
    let overlap := overlapOk i o = false
    let zero := (i = .divrem1 ∧ o.sc = 0) ∨ (i = .divQr ∧ s.valAt o.bp o.nb = 0)
    let top := i = .divQr ∧ s.limb (o.bp + (o.nb - 1)) = 0
    let size := (i = .mulNtt ∨ i = .sqrNtt) ∧ s.cfg.nMax < s.cfg.view.perLimb * (o.na + second)
    let scratch := i = .mulNtt ∨ i = .sqrNtt ∨ i = .divQr ∨
      ((i = .mulKaratsuba ∨ i = .sqrKaratsuba ∨ i = .mul ∨ i = .sqr) ∧ s.cfg.kThreshold ≤ min o.na second)
    let alloc := scratch ∧ s.allocOk i = false
    ∃ t, exec i s = .next t ∧
      (bad → t.err = 6) ∧ (¬bad → range → t.err = 8) ∧ (¬bad → ¬range → overlap → t.err = 7) ∧
      (¬bad → ¬range → ¬overlap →
        (zero → t.err = 2) ∧ (¬zero → top → t.err = 6) ∧ (¬zero → ¬top → size → t.err = 4) ∧
        (¬zero → ¬top → ¬size → alloc → t.err = 3) ∧ (¬zero → ¬top → ¬size → ¬alloc → t.err = 0))

/-- R63, R300, R301: what any command that ends in error leaves alone: `CMD`, the operand registers and the twiddle tables;
after the codes 5 to 8 every limb, after the codes 2 to 4 every limb outside the command's write ranges (R61); and a
command without error changes no limb outside them either. -/
def Obligations.WritesAreConfined : Prop :=
  ∀ (i : Instr) (s t : State), exec i s = .next t →
    MemoryKeptOutside s t ((outputs i s.operands).map fun e => (e.ptr, e.len)) ∧ Frame s t ∧
    (t.err ≠ 0 → t.tw = s.tw ∧ t.status = 3 ∧ (5 ≤ t.err.toNat → ∀ a, t.mem.read a = s.mem.read a))

/-! ### What commands read and write -/

/-- R22, R325: a command reads, of the six operand registers, only those its row of R78 names: two states that agree on
these, on limb memory and on the configuration end alike, whatever the other operand registers hold.  (They agree on
`free` too, so that a limb with no specified value reads the same in both.)  And it writes none of the six. -/
def Obligations.OnlyBoundOperandsAreRead : Prop :=
  (∀ (s : State) (w : Limb) (rest : List HostAction) (t : State), s.host = .wr 0 w :: rest → step s = .next t →
    t.rp = s.rp ∧ t.ap = s.ap ∧ t.bp = s.bp ∧ t.na = s.na ∧ t.nb = s.nb ∧ t.sc = s.sc) ∧
  ∀ (i : Instr) (s s' t t' : State),
    s'.cfg = s.cfg → s'.mem = s.mem → s'.free = s.free →
    ((uses i).rp = true → s'.rp = s.rp) → ((uses i).ap = true → s'.ap = s.ap) →
    ((uses i).bp = true → s'.bp = s.bp) → ((uses i).na = true → s'.na = s.na) →
    ((uses i).nb = true → s'.nb = s.nb) → ((uses i).sc = true → s'.sc = s.sc) →
    exec i s = .next t → exec i s' = .next t' →
    t'.mem = t.mem ∧ (t.err = 0 → t'.ret = t.ret) ∧ t'.status = t.status ∧ t'.err = t.err ∧
      (s'.tw = s.tw → t'.tw = t.tw)

/-- R26, R38, R166: no command reads `RET`, `STATUS`, `ERR`, `CMD` or which twiddle tables are present: changing them changes
nothing in what the command stores, returns and reports.
The runs start with the same `free`, so a limb never written reads alike in them (notes/assumptions/7.md and 23.md). -/
def Obligations.NothingElseIsRead : Prop :=
  ∀ (i : Instr) (s t t' : State) (cmd ret status err : Limb) (tw : List TableName),
    exec i s = .next t →
    exec i { s with cmd := cmd, ret := ret, status := status, err := err, tw := tw } = .next t' →
    t'.mem = t.mem ∧ (t.err = 0 → t'.ret = t.ret) ∧ t'.status = t.status ∧ t'.err = t.err

/-- R38, R322: a present twiddle table stays present in every step but a reset; tables become present only in a write of
`CMD` with the word of `mul_ntt`, `sqr_ntt`, `mul` or `sqr` that ends without error. -/
def Obligations.TablesOnlyGrow : Prop :=
  ∀ s t : State, step s = .next t → s.host.head? ≠ some .reset →
    (∀ x ∈ s.tw, x ∈ t.tw) ∧
    ∀ x ∈ t.tw, x ∉ s.tw →
      t.err = 0 ∧ ∃ w, s.host.head? = some (.wr 0 w) ∧ (w = 0x30 ∨ w = 0x31 ∨ w = 0x40 ∨ w = 0x41)

/-! ### Laws -/

/-- R128: the identities of C1, for every state in which the command ends without error.  `A` and `B` are the input values
before, `old` the old value of the output array, `OUT` its value after, `RET` the value returned. -/
def Obligations.ArithmeticIdentitiesHold : Prop :=
  ∀ (i : Instr) (s t : State), exec i s = .next t → t.err = 0 →
    let n := s.na.toNat
    let A : Int := s.valAt s.ap.toNat n
    let B : Int := s.valAt s.bp.toNat n
    let old : Int := s.valAt s.rp.toNat n
    let OUT : Int := t.valAt s.rp.toNat n
    let RET : Int := t.ret.toNat
    let sc : Int := s.sc.toNat
    let P : Int := ((beta ^ n : Nat) : Int)
    (i = .addN → A + B = RET * P + OUT) ∧ (i = .subN → A - B = OUT - RET * P) ∧
    (i = .add1 → A + sc = RET * P + OUT) ∧ (i = .sub1 → A - sc = OUT - RET * P) ∧
    (i = .mul1 → A * sc = RET * P + OUT) ∧ (i = .addmul1 → old + A * sc = RET * P + OUT) ∧
    (i = .submul1 → old - A * sc = OUT - RET * P) ∧
    (i = .lshift → A * 2 ^ s.sc.toNat = RET * P + OUT) ∧
    (i = .rshift → A * beta = (OUT * beta + RET) * 2 ^ s.sc.toNat) ∧
    (i = .divrem1 → A = OUT * sc + RET ∧ RET < sc)

/-- R121: if `lshift` loses no bit at the top, an `rshift` of its result by the same count, into any array `dst`, gives the
operand back and returns 0. -/
def Obligations.ShiftsUndoEachOther : Prop :=
  ∀ (s t v : State) (dst : Limb), exec .lshift s = .next t → t.err = 0 → t.ret = 0 →
    exec .rshift { t with ap := s.rp, rp := dst } = .next v → v.err = 0 →
    v.Holds dst.toNat (s.memRead s.ap.toNat s.na.toNat) ∧ v.ret = 0

/-- R125: `cmp` returns -1 exactly when `sub_n` on the same operands returns the borrow 1, and 0 exactly when the arrays are
equal limb for limb; swapped operands negate the result.
The runs start with the same `free`, so a limb never written reads alike in them (notes/assumptions/7.md and 23.md). -/
def Obligations.CompareAgreesWithSubtract : Prop :=
  ∀ s t u v : State, exec .cmp s = .next t → t.err = 0 →
    exec .cmp { s with ap := s.bp, bp := s.ap } = .next u → exec .subN s = .next v →
    (v.err = 0 → (t.ret = 0xFFFFFFFFFFFFFFFF ↔ v.ret = 1)) ∧
    (t.ret = 0 ↔ s.memRead s.ap.toNat s.na.toNat = s.memRead s.bp.toNat s.na.toNat) ∧
    u.ret = -t.ret

/-- R83: an addition of unequal lengths, by `add_n` on the low `nb` limbs and then `add_1` of its carry on the upper ones,
gives the exact sum with the final carry in `RET`.  The result array is apart from both operands, whose limbs hold
specified values. -/
def Obligations.UnequalAdditionIsExact : Prop :=
  ∀ (s t v : State) (a b : List Limb), b.length ≤ a.length → s.nb.toNat = b.length → s.na.toNat = a.length →
    s.Holds s.ap.toNat a → s.Holds s.bp.toNat b →
    s.rp.toNat + a.length < beta → s.ap.toNat + a.length < beta →
    Apart s.rp.toNat a.length s.ap.toNat a.length → Apart s.rp.toNat a.length s.bp.toNat b.length →
    exec .addN { s with na := s.nb } = .next t → t.err = 0 →
    exec .add1 { t with rp := s.rp + s.nb, ap := s.ap + s.nb, na := s.na - s.nb, sc := t.ret } = .next v →
    v.err = 0 →
    v.Holds s.rp.toNat (limbs (val a + val b) a.length) ∧ v.ret.toNat = (val a + val b) / beta ^ a.length

/-- R244: with a one-limb divisor `div_qr` stores the quotient limbs of `divrem_1` by that limb, and in the dividend's lowest
limb the remainder `divrem_1` returns.
The runs start with the same `free`, so a limb never written reads alike in them (notes/assumptions/7.md and 23.md). -/
def Obligations.OneLimbDivisionsAgree : Prop :=
  ∀ s t u : State, s.nb = 1 → 1 ≤ s.na.toNat → s.sc = s.limb s.bp.toNat →
    exec .divQr s = .next t → t.err = 0 → exec .divrem1 s = .next u → u.err = 0 →
    (∀ j, j < s.na.toNat → t.mem.read (s.rp.toNat + j) = u.mem.read (s.rp.toNat + j)) ∧
    t.mem.read s.ap.toNat = some u.ret ∧
    ∀ j, 1 ≤ j → j < s.na.toNat → t.mem.read (s.ap.toNat + j) = some 0

/-- R136, R219: a product does not depend on the order of its operands: `mul_basecase`, and in a legal configuration `mul_ntt`
and `mul`, leave the same limb memory with the two operands exchanged.
The runs start with the same `free`, so a limb never written reads alike in them (notes/assumptions/7.md and 23.md). -/
def Obligations.ProductsCommute : Prop :=
  ∀ (i : Instr) (s t u : State), i = .mulBasecase ∨ i = .mulNtt ∨ i = .mul → s.cfg.Legal →
    exec i s = .next t → t.err = 0 →
    exec i { s with ap := s.bp, bp := s.ap, na := s.nb, nb := s.na } = .next u → u.err = 0 → u.mem = t.mem

/-- R219: the eight ways to square an array, in one state whose `BP` and `NB` name the array too, leave the same limb memory
and the same `RET`, those of them that end without error.  On an array with limbs never written this rests on the model's
choice that such a limb reads as one free value at every read of a step (notes/assumptions/7.md and 23.md). -/
def Obligations.SquaringEquivalence : Prop :=
  ∀ (i j : Instr) (s t u : State),
    (∀ k ∈ [i, j], k ∈ [Instr.sqr, .mul, .sqrBasecase, .mulBasecase, .sqrKaratsuba, .mulKaratsuba, .sqrNtt, .mulNtt]) →
    s.cfg.Legal → s.bp = s.ap → s.nb = s.na → exec i s = .next t → t.err = 0 → exec j s = .next u → u.err = 0 →
    u.mem = t.mem ∧ u.ret = t.ret

/-- R331, R176, R211: two blocks that differ in thresholds, primes, roots, the internal view, the smallest and the largest
transform length, or the tables' lifecycle give the same limbs, `RET`, `STATUS` and `ERR` for every command that ends
without SizeLimit, AddressRange and AllocationFailure in both.
The runs start with the same `free`, so a limb never written reads alike in them (notes/assumptions/7.md and 23.md). -/
def Obligations.ConfigurationIsInvisible : Prop :=
  ∀ (i : Instr) (s t t' : State) (c : Config), s.cfg.Legal → c.Legal →
    exec i s = .next t → exec i { s with cfg := c } = .next t' →
    t.err.toNat ∉ [3, 4, 8] → t'.err.toNat ∉ [3, 4, 8] →
    t'.mem = t.mem ∧ (t.err = 0 → t'.ret = t.ret) ∧ t'.status = t.status ∧ t'.err = t.err

/-- Limb memory in canonical form is determined by what its limbs read as: equal memories are equal lists.  The form, pairs of
a limb index and a limb with strictly rising indices, is the model's own choice, not the spec's (notes/assumptions/6.md). -/
def Obligations.CanonicalMemoryIsDetermined : Prop :=
  ∀ m m' : Memory, m.wf → m'.wf → (∀ a, m.read a = m'.read a) → m = m'

/-! ### The algorithms by which the document realises the commands -/

/-- R103, R105, R106, R108, R111, R113, R115, R118, R120, R124, R127: the limb recurrences give the limbs and the final carry,
borrow or remainder of the value equations, and the comparison from the top limb down is that of the values. -/
def Obligations.LimbRecurrencesComputeValues : Prop :=
  ∀ (a b : List Limb) (n : Nat) (x : Limb) (k : Nat), a.length = n → b.length = n → k ≤ 63 →
    addChain a b 0 = (limbs (val a + val b) n, (val a + val b) / beta ^ n) ∧
    subChain a b 0 = (limbsOfInt ((val a : Int) - val b) n, if val a < val b then 1 else 0) ∧
    addOneChain a x.toNat = (limbs (val a + x.toNat) n, (val a + x.toNat) / beta ^ n) ∧
    (subOneChain a x.toNat).1 = limbsOfInt ((val a : Int) - x.toNat) n ∧
    (val a : Int) - x.toNat = val (subOneChain a x.toNat).1 - (subOneChain a x.toNat).2 * (beta ^ n : Nat) ∧
    mulChain x a 0 = (limbs (val a * x.toNat) n, val a * x.toNat / beta ^ n) ∧
    addmulChain x b a 0 = (limbs (val b + val a * x.toNat) n, (val b + val a * x.toNat) / beta ^ n) ∧
    (submulChain x b a 0).1 = limbsOfInt ((val b : Int) - val a * x.toNat) n ∧
    (val b : Int) - val a * x.toNat = val (submulChain x b a 0).1 - (submulChain x b a 0).2 * (beta ^ n : Nat) ∧
    (lshiftChain k a 0).1 = limbs (val a * 2 ^ k) n ∧ (lshiftChain k a 0).2.toNat = val a * 2 ^ k / beta ^ n ∧
    (rshiftChain k a).1 = limbs (val a / 2 ^ k) n ∧
    (1 ≤ n → 1 ≤ k → (rshiftChain k a).2.toNat = val a % 2 ^ k * 2 ^ (64 - k)) ∧
    (x ≠ 0 → divremChain x a = (limbs (val a / x.toNat) n, val a % x.toNat)) ∧
    (cmpChain a b = .lt ↔ val a < val b) ∧ (cmpChain a b = .eq ↔ a = b)

/-- R132, R135: the loop of `addmul_1` passes gives the product of the value equation, and the symmetric sum of off-diagonal
and diagonal products is the square; doubling the off-diagonal part loses no bit. -/
def Obligations.SchoolbookLoopsComputeProducts : Prop :=
  ∀ a b : List Limb,
    mulByLoop a b = limbs (val a * val b) (a.length + b.length) ∧
    2 * offDiagonal a + diagonal a = val a * val a ∧ 2 * offDiagonal a < beta ^ (2 * a.length)

/-- R142 to R148, R151, R152: for every threshold of R8 `kara` and `kara_sqr` satisfy the recursion the spec writes out, and
their value is the exact product, whatever the threshold. -/
def Obligations.KaratsubaRecursionIsExact : Prop :=
  (∀ (K n : Nat) (a b : List Limb), a.length = n → b.length = n →
    kara K n a b n = limbs (val a * val b) (2 * n) ∧ karaSqr K n a n = limbs (val a * val a) (2 * n)) ∧
  ∀ (K n : Nat) (a b : List Limb), 16 ≤ K → K ≤ n → a.length = n → b.length = n →
    let h := (n + 1) / 2
    let l := n - h
    let z0 := kara K h (a.take h) (b.take h) h
    let z2 := kara K l (a.drop h) (b.drop h) l
    let zs := kara K (h + 1) (limbs (val (a.take h) + val (a.drop h)) (h + 1))
      (limbs (val (b.take h) + val (b.drop h)) (h + 1)) (h + 1)
    val z0 + val z2 ≤ val zs ∧
    kara K n a b n
      = limbs (val z0 + (val zs - val z0 - val z2) * beta ^ h + val z2 * beta ^ (2 * h)) (2 * n)

/-- R54, R161, R175: the internal view keeps the value of an array and has digits below the internal base, and packing is
its inverse. -/
def Obligations.InternalViewKeepsValue : Prop :=
  ∀ (v : NttView) (a : List Limb),
    (internalView v a).length = v.perLimb * a.length ∧ (∀ d ∈ internalView v a, d < v.base) ∧
    (internalView v a).foldr (fun d acc => d + v.base * acc) 0 = val a ∧ pack v (internalView v a) = a

/-- R162: the permitted lengths are the set `S` of the rule; in a legal configuration `select_size(L)` is the smallest one that
is at least `L`, and one exists exactly when `L <= N_max`. -/
def Obligations.SelectSizeIsLeastPermitted : Prop :=
  ∀ (c : Config) (len : Nat), c.Legal →
    ((∃ n ∈ c.sizes, len ≤ n) ↔ len ≤ c.nMax) ∧
    (len ≤ c.nMax → c.selectSize len ∈ c.sizes ∧ len ≤ c.selectSize len ∧
      ∀ n ∈ c.sizes, len ≤ n → c.selectSize len ≤ n) ∧
    ∀ n, n ∈ c.sizes ↔
      ∃ m k, n = m * 2 ^ k ∧ m ∈ [1, 3, 5] ∧ c.nttKMin ≤ k ∧ n ≤ c.nMax ∧ ∀ p ∈ c.primes, n ∣ p - 1

/-- R167, R169, R170, R171: for each prime, steps 3 to 5 of the engine compute the acyclic convolution of the two inputs
reduced modulo the prime. -/
def Obligations.ResiduesAreTheConvolution : Prop :=
  ∀ (c : Config) (i n : Nat) (a b : List Nat), c.Legal → 1 ≤ i → i ≤ c.primes.length → n ∈ c.sizes →
    a.length + b.length ≤ n →
    (residues c i n a b).length = n ∧
    ∀ t, t < n → (residues c i n a b).getD t 0
      = ((List.range (t + 1)).map fun u => a.getD u 0 * b.getD (t - u) 0).sum % c.prime i

/-- R172, R173, R174: steps 6 and 7 of the engine: Garner's recurrence gives back every integer below the product of the
primes from its residues; carry propagation keeps the value of a list of coefficients as long as it fits, and its digits
are below the base. -/
def Obligations.ReconstructionIsExact : Prop :=
  (∀ (c : Config) (x : Nat), c.Legal → x < c.primes.prod → garner (c.primes.map fun p => (p, x % p)) = x) ∧
  ∀ (base : Nat) (coeffs : List Nat), 0 < base →
    (carryPropagate base coeffs 0).length = coeffs.length ∧
    (∀ d ∈ carryPropagate base coeffs 0, d < base) ∧
    (coeffs.foldr (fun d acc => d + base * acc) 0 < base ^ coeffs.length →
      (carryPropagate base coeffs 0).foldr (fun d acc => d + base * acc) 0
        = coeffs.foldr (fun d acc => d + base * acc) 0)

/-- R181: Montgomery reduction: for an odd modulus `p < R = 2^w` and `p' = (-p^(-1)) mod R`, `REDC(T)` is below `p` and
congruent to `T·R^(-1)`, for every `T < p·R`. -/
def Obligations.RedcDividesByR : Prop :=
  ∀ p p' w T : Nat, 0 < p → p < 2 ^ w → (p * p' + 1) % 2 ^ w = 0 → T < p * 2 ^ w →
    redc p p' (2 ^ w) T < p ∧ redc p p' (2 ^ w) T * 2 ^ w % p = T % p

/-- R168, R182: the decimation-in-frequency butterflies of any radices compute the transform of R167. -/
def Obligations.ButterfliesComputeTransform : Prop :=
  ∀ (p w : Nat) (radices : List Nat) (x : List Nat), 1 < p → (∀ c ∈ radices, 0 < c) → x.length = radices.prod →
    (∀ d ∈ x, d < p) → w ^ radices.prod % p = 1 →
    difTransform p radices w x = forward p (powersFrom w p 1 radices.prod) x

/-- R235 to R239: one pass of the divider's loop on a window below `val(vn)·β`, with a divisor whose top bit is set, finds the
quotient limb, leaves the window's remainder, and zero in its top limb. -/
def Obligations.DividerPassFindsQuotientLimb : Prop :=
  ∀ (vn low : List Limb) (top : Limb), low.length = vn.length → 1 ≤ vn.length →
    2 ^ 63 ≤ (vn.getD (vn.length - 1) 0).toNat → val low + beta ^ vn.length * top.toNat < val vn * beta →
    (divPass vn low top).1.toNat = (val low + beta ^ vn.length * top.toNat) / val vn ∧
    (divPass vn low top).2.1 = limbs ((val low + beta ^ vn.length * top.toNat) % val vn) vn.length ∧
    (divPass vn low top).2.2 = 0

/-- R233 to R243: the schoolbook division with normalization, estimate, refinement and add-back gives the one quotient and
remainder of the value equation. -/
def Obligations.SchoolbookDivisionIsExact : Prop :=
  ∀ u v : List Limb, 1 ≤ v.length → v.length ≤ u.length → v.getD (v.length - 1) 0 ≠ 0 →
    knuthDivide u v = (limbs (val u / val v) (u.length - v.length + 1), limbs (val u % val v) v.length) ∧
    val u = val (knuthDivide u v).1 * val v + val (knuthDivide u v).2 ∧ val (knuthDivide u v).2 < val v

end
end

