-- ==== Sys2Proof/Laws/Limbs.lean ====
section
/-! SUPPORT. Laws/Limbs.lean: limb lists and their values (R14, R16). -/

namespace Sys2Proof.Machine

theorem beta_pos : 0 < beta := by norm_num [beta]

theorem limb_lt (x : Limb) : x.toNat < beta := x.isLt

@[simp] theorem val_nil : val [] = 0 := rfl

@[simp] theorem val_cons (x : Limb) (xs : List Limb) : val (x :: xs) = x.toNat + beta * val xs := rfl

@[simp] theorem limbs_zero (v : Nat) : limbs v 0 = [] := rfl

theorem limbs_succ (v n : Nat) : limbs v (n + 1) = BitVec.ofNat 64 v :: limbs (v / beta) n := rfl

@[simp] theorem limbs_length (v n : Nat) : (limbs v n).length = n := by
  induction n generalizing v with
  | zero => rfl
  | succ n ih => simp [limbs_succ, ih]

theorem toNat_ofNat_limb (v : Nat) : (BitVec.ofNat 64 v).toNat = v % beta := by simp [beta]

/-- The value of a list of `n` limbs is below `β^n`. -/
theorem val_lt (l : List Limb) : val l < beta ^ l.length := by
  induction l with
  | nil => simp
  | cons x xs ih =>
    have hx : x.toNat < beta := x.isLt
    have h1 : val xs + 1 ≤ beta ^ xs.length := ih
    have h2 := Nat.mul_le_mul_left beta h1
    simp only [val_cons, List.length_cons, pow_succ']
    have h3 : beta * (val xs + 1) = beta * val xs + beta := by ring
    omega

/-- `val(limbs(v, n)) = v mod β^n`. -/
theorem val_limbs_mod (v n : Nat) : val (limbs v n) = v % beta ^ n := by
  induction n generalizing v with
  | zero => simp [Nat.mod_one]
  | succ n ih =>
    rw [limbs_succ, val_cons, ih, toNat_ofNat_limb, pow_succ', Nat.mod_mul]

/-- `val(limbs(v, n)) = v` when `v` fits. -/
theorem val_limbs {v n : Nat} (h : v < beta ^ n) : val (limbs v n) = v := by
  rw [val_limbs_mod, Nat.mod_eq_of_lt h]

/-- Limb lists of one length and value are equal. -/
theorem limbs_val (l : List Limb) : limbs (val l) l.length = l := by
  induction l with
  | nil => rfl
  | cons x xs ih =>
    have hx : x.toNat < beta := x.isLt
    have h1 : (x.toNat + beta * val xs) / beta = val xs := by
      rw [Nat.add_mul_div_left _ _ beta_pos, Nat.div_eq_of_lt hx, Nat.zero_add]
    simp only [List.length_cons, limbs_succ, val_cons, h1, ih]
    congr 1
    apply BitVec.eq_of_toNat_eq
    rw [toNat_ofNat_limb, Nat.add_mul_mod_self_left, Nat.mod_eq_of_lt hx]

theorem eq_limbs_of_val {l : List Limb} {n v : Nat} (hn : l.length = n) (hv : val l = v) : l = limbs v n := by
  rw [← hn, ← hv, limbs_val]

theorem eq_of_val_eq {l m : List Limb} (hn : l.length = m.length) (hv : val l = val m) : l = m := by
  rw [← limbs_val l, ← limbs_val m, hn, hv]

theorem limbs_mod (v n : Nat) : limbs (v % beta ^ n) n = limbs v n := by
  apply eq_of_val_eq
  · simp
  · simp [val_limbs_mod]

theorem val_append (l m : List Limb) : val (l ++ m) = val l + beta ^ l.length * val m := by
  induction l with
  | nil => simp
  | cons x xs ih => simp only [List.cons_append, val_cons, ih, List.length_cons, pow_succ]; ring

theorem val_take_add_drop (l : List Limb) {h : Nat} (hh : h ≤ l.length) :
    val (l.take h) + beta ^ h * val (l.drop h) = val l := by
  have := val_append (l.take h) (l.drop h)
  rw [List.take_append_drop, List.length_take, Nat.min_eq_left hh] at this
  exact this.symm

theorem val_replicate_zero (n : Nat) : val (List.replicate n (0 : Limb)) = 0 := by
  induction n with
  | zero => rfl
  | succ n ih => rw [List.replicate_succ, val_cons, ih]; rfl

/-- Limb `i` of `limbs(v, n)` is digit `i` of `v` in base `β`. -/
theorem limbs_getElem? (v n i : Nat) (h : i < n) : (limbs v n)[i]? = some (BitVec.ofNat 64 (v / beta ^ i)) := by
  induction n generalizing v i with
  | zero => omega
  | succ n ih =>
    cases i with
    | zero => simp [limbs_succ]
    | succ i =>
      rw [limbs_succ, List.getElem?_cons_succ, ih _ _ (by omega), Nat.div_div_eq_div_mul, pow_succ']

theorem limbsOfInt_length (d : Int) (n : Nat) : (limbsOfInt d n).length = n := by simp [limbsOfInt]

/-- The value of `limbs(d mod β^n, n)` is `d mod β^n`. -/
theorem val_limbsOfInt (d : Int) (n : Nat) : (val (limbsOfInt d n) : Int) = d % ((beta ^ n : Nat) : Int) := by
  have hpos : (0 : Int) < ((beta ^ n : Nat) : Int) := by exact_mod_cast Nat.pow_pos beta_pos
  have h0 := Int.emod_nonneg d hpos.ne'
  have h1 := Int.emod_lt_of_pos d hpos
  rw [limbsOfInt, val_limbs (by omega)]
  omega

end Sys2Proof.Machine
end

