-- ==== Sys2Proof/Laws/Chains.lean ====
section
/-! SUPPORT. Laws/Chains.lean: the limb recurrences of unit C1 compute what the value equations say (R103, R105, R106,
R108, R111, R113, R115, R118, R120, R127). -/

namespace Sys2Proof.Machine

/-- A digit list and a carry with the right total are the low digits and the quotient. -/
theorem limbs_and_carry {r : List Limb} {n q T : Nat} (hn : r.length = n) (h : val r + beta ^ n * q = T) :
    r = limbs T n ∧ q = T / beta ^ n := by
  have hlt : val r < beta ^ n := hn ▸ val_lt r
  have hpos : 0 < beta ^ n := Nat.pow_pos beta_pos
  constructor
  · apply eq_of_val_eq (by simp [hn])
    rw [val_limbs_mod, ← h, Nat.add_mul_mod_self_left, Nat.mod_eq_of_lt hlt]
  · rw [← h, Nat.add_mul_div_left _ _ hpos, Nat.div_eq_of_lt hlt, Nat.zero_add]

/-- The same for a borrow: `val r - β^n·w` is the difference. -/
theorem limbs_and_borrow {r : List Limb} {n w : Nat} {d : Int} (hn : r.length = n)
    (h : (val r : Int) - (beta ^ n : Nat) * w = d) :
    r = limbsOfInt d n ∧ (w : Int) = -(d / ((beta ^ n : Nat) : Int)) := by
  have hlt : (val r : Int) < ((beta ^ n : Nat) : Int) := by exact_mod_cast hn ▸ val_lt r
  have hpos : (0 : Int) < ((beta ^ n : Nat) : Int) := by exact_mod_cast Nat.pow_pos beta_pos
  have hd : d = val r + ((beta ^ n : Nat) : Int) * (-(w : Int)) := by rw [← h]; ring
  constructor
  · apply eq_of_val_eq (by rw [limbsOfInt_length, hn])
    have : (val r : Int) = val (limbsOfInt d n) := by
      rw [val_limbsOfInt, hd, Int.add_mul_emod_self_left, Int.emod_eq_of_lt (by positivity) hlt]
    exact_mod_cast this
  · rw [hd, Int.add_mul_ediv_left _ _ hpos.ne', Int.ediv_eq_zero_of_lt (by positivity) hlt]
    ring

theorem toNat_ofInt_limb (t : Int) : ((BitVec.ofInt 64 t).toNat : Int) = t % (beta : Int) := by
  rw [BitVec.toNat_ofInt, Int.toNat_of_nonneg]
  · rfl
  · exact Int.emod_nonneg _ (by norm_num)

/-- A difference of limbs, wrapped, plus `β` if it was negative. -/
theorem toNat_ofInt_borrow {t : Int} (h1 : -(beta : Int) ≤ t) (h2 : t < beta) :
    ((BitVec.ofInt 64 t).toNat : Int) = t + beta * (if t < 0 then 1 else 0 : Nat) := by
  rw [toNat_ofInt_limb]
  split
  · rw [show t = (t + beta) + beta * (-1) by ring, Int.add_mul_emod_self_left, Int.emod_eq_of_lt] <;>
      push_cast <;> omega
  · rw [Int.emod_eq_of_lt] <;> push_cast <;> omega

theorem addChain_length {a b : List Limb} (h : a.length = b.length) (c : Nat) :
    (addChain a b c).1.length = a.length := by
  induction a generalizing b c with
  | nil => simp [addChain]
  | cons x xs ih =>
    cases b with
    | nil => simp at h
    | cons y ys => simp only [addChain, List.length_cons]; rw [ih (by simpa using h)]

/-- R103: the recurrence keeps the total. -/
theorem addChain_total {a b : List Limb} (h : a.length = b.length) (c : Nat) :
    val (addChain a b c).1 + beta ^ a.length * (addChain a b c).2 = val a + val b + c := by
  induction a generalizing b c with
  | nil => cases b <;> simp_all [addChain]
  | cons x xs ih =>
    cases b with
    | nil => simp at h
    | cons y ys =>
      have e := ih (b := ys) (by simpa using h) ((x.toNat + y.toNat + c) / beta)
      have d := Nat.mod_add_div (x.toNat + y.toNat + c) beta
      simp only [addChain, val_cons, List.length_cons, pow_succ', toNat_ofNat_limb]
      calc _ = (x.toNat + y.toNat + c) % beta + beta * (val (addChain xs ys ((x.toNat + y.toNat + c) / beta)).1
            + beta ^ xs.length * (addChain xs ys ((x.toNat + y.toNat + c) / beta)).2) := by ring
        _ = _ := by rw [e]; linear_combination d

/-- R102, R103: `add_n` by its recurrence is `add_n` by its value equation. -/
theorem addChain_eq {a b : List Limb} (h : a.length = b.length) :
    addChain a b 0 = (limbs (val a + val b) a.length, (val a + val b) / beta ^ a.length) := by
  obtain ⟨h1, h2⟩ := limbs_and_carry (addChain_length h 0) (addChain_total h 0)
  exact Prod.ext h1 h2

theorem subChain_length {a b : List Limb} (h : a.length = b.length) (w : Nat) :
    (subChain a b w).1.length = a.length := by
  induction a generalizing b w with
  | nil => simp [subChain]
  | cons x xs ih =>
    cases b with
    | nil => simp at h
    | cons y ys => simp only [subChain, List.length_cons]; rw [ih (by simpa using h)]

/-- R105: the recurrence keeps the difference, for a borrow of at most 1. -/
theorem subChain_total {a b : List Limb} (h : a.length = b.length) {w : Nat} (hw : w ≤ 1) :
    (val (subChain a b w).1 : Int) - (beta ^ a.length : Nat) * (subChain a b w).2 = val a - val b - w := by
  induction a generalizing b w with
  | nil => cases b <;> simp_all [subChain]
  | cons x xs ih =>
    cases b with
    | nil => simp at h
    | cons y ys =>
      have hx := limb_lt x
      have hy := limb_lt y
      have d := toNat_ofInt_borrow (t := (x.toNat : Int) - y.toNat - w) (by omega) (by omega)
      have e := ih (b := ys) (by simpa using h) (w := if (x.toNat : Int) - y.toNat - w < 0 then 1 else 0)
        (by split <;> simp)
      simp only [subChain, val_cons, List.length_cons, pow_succ', Nat.cast_add, Nat.cast_mul] at e ⊢
      linear_combination d + (beta : Int) * e

/-- R104, R105: `sub_n` by its recurrence is `sub_n` by its value equation. -/
theorem subChain_eq {a b : List Limb} (h : a.length = b.length) :
    (subChain a b 0).1 = limbsOfInt ((val a : Int) - val b) a.length ∧
      (subChain a b 0).2 = if val a < val b then 1 else 0 := by
  have t := subChain_total h (w := 0) (by omega)
  obtain ⟨h1, h2⟩ := limbs_and_borrow (subChain_length h 0) t
  refine ⟨by rw [h1]; simp, ?_⟩
  have ha : (val a : Int) < ((beta ^ a.length : Nat) : Int) := by exact_mod_cast val_lt a
  have hb : (val b : Int) < ((beta ^ a.length : Nat) : Int) := by exact_mod_cast h ▸ val_lt b
  zify
  rw [h2, Nat.cast_zero, sub_zero]
  split
  · rw [Int.ediv_eq_neg_one_of_neg_of_le (by omega) (by omega)]; simp
  · rw [Int.ediv_eq_zero_of_lt (by omega) (by omega)]; simp

theorem addOneChain_length (a : List Limb) (c : Nat) : (addOneChain a c).1.length = a.length := by
  induction a generalizing c with
  | nil => rfl
  | cons x xs ih => simp only [addOneChain, List.length_cons, ih]

theorem addOneChain_total (a : List Limb) (c : Nat) :
    val (addOneChain a c).1 + beta ^ a.length * (addOneChain a c).2 = val a + c := by
  induction a generalizing c with
  | nil => simp [addOneChain]
  | cons x xs ih =>
    have e := ih ((x.toNat + c) / beta)
    have d := Nat.mod_add_div (x.toNat + c) beta
    simp only [addOneChain, val_cons, List.length_cons, pow_succ', toNat_ofNat_limb]
    calc _ = (x.toNat + c) % beta + beta * (val (addOneChain xs ((x.toNat + c) / beta)).1
          + beta ^ xs.length * (addOneChain xs ((x.toNat + c) / beta)).2) := by ring
      _ = _ := by rw [e]; linear_combination d

/-- R106: `add_1` by its recurrence is `add_1` by its value equation. -/
theorem addOneChain_eq (a : List Limb) (s : Nat) :
    addOneChain a s = (limbs (val a + s) a.length, (val a + s) / beta ^ a.length) := by
  obtain ⟨h1, h2⟩ := limbs_and_carry (addOneChain_length a s) (addOneChain_total a s)
  exact Prod.ext h1 h2

theorem subOneChain_length (a : List Limb) (w : Nat) : (subOneChain a w).1.length = a.length := by
  induction a generalizing w with
  | nil => rfl
  | cons x xs ih => simp only [subOneChain, List.length_cons, ih]

theorem subOneChain_total (a : List Limb) {w : Nat} (hw : w < beta) :
    (val (subOneChain a w).1 : Int) - (beta ^ a.length : Nat) * (subOneChain a w).2 = val a - w := by
  induction a generalizing w with
  | nil => simp [subOneChain]
  | cons x xs ih =>
    have hx := limb_lt x
    have d := toNat_ofInt_borrow (t := (x.toNat : Int) - w) (by omega) (by omega)
    have e := ih (w := if (x.toNat : Int) - w < 0 then 1 else 0) (by split <;> norm_num [beta])
    simp only [subOneChain, val_cons, List.length_cons, pow_succ', Nat.cast_add, Nat.cast_mul] at e ⊢
    linear_combination d + (beta : Int) * e

/-- R108: `sub_1` by its recurrence is `sub_1` by its value equation. -/
theorem subOneChain_eq (a : List Limb) {s : Nat} (hs : s < beta) :
    (subOneChain a s).1 = limbsOfInt ((val a : Int) - s) a.length ∧
      ((subOneChain a s).2 : Int) = -(((val a : Int) - s) / ((beta ^ a.length : Nat) : Int)) :=
  limbs_and_borrow (subOneChain_length a s) (subOneChain_total a hs)

theorem mulChain_length (s : Limb) (a : List Limb) (h : Nat) : (mulChain s a h).1.length = a.length := by
  induction a generalizing h with
  | nil => rfl
  | cons x xs ih => simp only [mulChain, List.length_cons, ih]

theorem mulChain_total (s : Limb) (a : List Limb) (h : Nat) :
    val (mulChain s a h).1 + beta ^ a.length * (mulChain s a h).2 = val a * s.toNat + h := by
  induction a generalizing h with
  | nil => simp [mulChain]
  | cons x xs ih =>
    have e := ih ((x.toNat * s.toNat + h) / beta)
    have d := Nat.mod_add_div (x.toNat * s.toNat + h) beta
    simp only [mulChain, val_cons, List.length_cons, pow_succ', toNat_ofNat_limb]
    calc _ = (x.toNat * s.toNat + h) % beta + beta * (val (mulChain s xs ((x.toNat * s.toNat + h) / beta)).1
          + beta ^ xs.length * (mulChain s xs ((x.toNat * s.toNat + h) / beta)).2) := by ring
      _ = _ := by rw [e]; linear_combination d

/-- R110, R111: `mul_1` by its recurrence is `mul_1` by its value equation. -/
theorem mulChain_eq (s : Limb) (a : List Limb) :
    mulChain s a 0 = (limbs (val a * s.toNat) a.length, val a * s.toNat / beta ^ a.length) := by
  obtain ⟨h1, h2⟩ := limbs_and_carry (mulChain_length s a 0) (mulChain_total s a 0)
  exact Prod.ext h1 h2

theorem addmulChain_length (s : Limb) {z a : List Limb} (hl : z.length = a.length) (h : Nat) :
    (addmulChain s z a h).1.length = a.length := by
  induction z generalizing a h with
  | nil => simpa [addmulChain] using hl
  | cons y ys ih =>
    cases a with
    | nil => simp at hl
    | cons x xs => simp only [addmulChain, List.length_cons]; rw [ih (by simpa using hl)]

theorem addmulChain_total (s : Limb) {z a : List Limb} (hl : z.length = a.length) (h : Nat) :
    val (addmulChain s z a h).1 + beta ^ a.length * (addmulChain s z a h).2 = val z + val a * s.toNat + h := by
  induction z generalizing a h with
  | nil => cases a <;> simp_all [addmulChain]
  | cons y ys ih =>
    cases a with
    | nil => simp at hl
    | cons x xs =>
      have e := ih (a := xs) (by simpa using hl) ((y.toNat + x.toNat * s.toNat + h) / beta)
      have d := Nat.mod_add_div (y.toNat + x.toNat * s.toNat + h) beta
      simp only [addmulChain, val_cons, List.length_cons, pow_succ', toNat_ofNat_limb]
      calc _ = (y.toNat + x.toNat * s.toNat + h) % beta
            + beta * (val (addmulChain s ys xs ((y.toNat + x.toNat * s.toNat + h) / beta)).1
            + beta ^ xs.length * (addmulChain s ys xs ((y.toNat + x.toNat * s.toNat + h) / beta)).2) := by ring
        _ = _ := by rw [e]; linear_combination d

/-- R112, R113: `addmul_1` by its recurrence is `addmul_1` by its value equation. -/
theorem addmulChain_eq (s : Limb) {z a : List Limb} (hl : z.length = a.length) :
    addmulChain s z a 0 =
      (limbs (val z + val a * s.toNat) a.length, (val z + val a * s.toNat) / beta ^ a.length) := by
  obtain ⟨h1, h2⟩ := limbs_and_carry (addmulChain_length s hl 0) (addmulChain_total s hl 0)
  exact Prod.ext h1 h2

theorem submulChain_length (s : Limb) {z a : List Limb} (hl : z.length = a.length) (h : Nat) :
    (submulChain s z a h).1.length = a.length := by
  induction z generalizing a h with
  | nil => simpa [submulChain] using hl
  | cons y ys ih =>
    cases a with
    | nil => simp at hl
    | cons x xs => simp only [submulChain, List.length_cons]; rw [ih (by simpa using hl)]

theorem submulChain_total (s : Limb) {z a : List Limb} (hl : z.length = a.length) (h : Nat) :
    (val (submulChain s z a h).1 : Int) - (beta ^ a.length : Nat) * (submulChain s z a h).2
      = val z - val a * s.toNat - h := by
  induction z generalizing a h with
  | nil => cases a <;> simp_all [submulChain]
  | cons y ys ih =>
    cases a with
    | nil => simp at hl
    | cons x xs =>
      have hy := limb_lt y
      have hp := Nat.mod_lt (x.toNat * s.toNat + h) beta_pos
      have m := Nat.mod_add_div (x.toNat * s.toNat + h) beta
      have d := toNat_ofInt_borrow (t := (y.toNat : Int) - ((x.toNat * s.toNat + h) % beta : Nat))
        (by omega) (by omega)
      have c : ((y.toNat : Int) - ((x.toNat * s.toNat + h) % beta : Nat) < 0) ↔
          y.toNat < (x.toNat * s.toNat + h) % beta := by omega
      simp only [c] at d
      have e := ih (a := xs) (by simpa using hl) ((x.toNat * s.toNat + h) / beta +
        if y.toNat < (x.toNat * s.toNat + h) % beta then 1 else 0)
      zify at m
      simp only [submulChain, val_cons, List.length_cons, pow_succ', Nat.cast_add, Nat.cast_mul] at e ⊢
      push_cast at d e m ⊢
      linear_combination d + (beta : Int) * e - m

/-- R114, R115: `submul_1` by its recurrence is `submul_1` by its value equation. -/
theorem submulChain_eq (s : Limb) {z a : List Limb} (hl : z.length = a.length) :
    (submulChain s z a 0).1 = limbsOfInt ((val z : Int) - val a * s.toNat) a.length ∧
      ((submulChain s z a 0).2 : Int)
        = -(((val z : Int) - val a * s.toNat) / ((beta ^ a.length : Nat) : Int)) := by
  have t := submulChain_total s hl 0
  rw [Nat.cast_zero, sub_zero] at t
  exact limbs_and_borrow (submulChain_length s hl 0) t

theorem divremChain_length (s : Limb) (a : List Limb) : (divremChain s a).1.length = a.length := by
  induction a with
  | nil => rfl
  | cons x xs ih => simp only [divremChain, List.length_cons, ih]

theorem divremChain_rem_lt {s : Limb} (hs : s.toNat ≠ 0) (a : List Limb) : (divremChain s a).2 < s.toNat := by
  cases a with
  | nil => simp [divremChain]; omega
  | cons x xs => exact Nat.mod_lt _ (by omega)

theorem divremChain_total {s : Limb} (hs : s.toNat ≠ 0) (a : List Limb) :
    val (divremChain s a).1 * s.toNat + (divremChain s a).2 = val a := by
  induction a with
  | nil => simp [divremChain]
  | cons x xs ih =>
    have hr := divremChain_rem_lt hs xs
    have hx := limb_lt x
    have hq : ((divremChain s xs).2 * beta + x.toNat) / s.toNat < beta := by
      rw [Nat.div_lt_iff_lt_mul (by omega)]
      have := Nat.mul_le_mul_right beta (show (divremChain s xs).2 + 1 ≤ s.toNat from hr)
      rw [Nat.mul_comm beta]
      have h3 : ((divremChain s xs).2 + 1) * beta = (divremChain s xs).2 * beta + beta := by ring
      omega
    have d := Nat.mod_add_div ((divremChain s xs).2 * beta + x.toNat) s.toNat
    simp only [divremChain, val_cons, toNat_ofNat_limb, Nat.mod_eq_of_lt hq]
    rw [← ih]
    linear_combination d

/-- R126, R127: `divrem_1` by its recurrence is `divrem_1` by its value equation. -/
theorem divremChain_eq {s : Limb} (hs : s.toNat ≠ 0) (a : List Limb) :
    divremChain s a = (limbs (val a / s.toNat) a.length, val a % s.toNat) := by
  have t := divremChain_total hs a
  have hr := divremChain_rem_lt hs a
  have hq : val (divremChain s a).1 = val a / s.toNat := by
    rw [← t, Nat.mul_comm, Nat.mul_add_div (by omega), Nat.div_eq_of_lt hr, Nat.add_zero]
  have hm : (divremChain s a).2 = val a % s.toNat := by
    rw [← t, Nat.mul_comm, Nat.mul_add_mod, Nat.mod_eq_of_lt hr]
  exact Prod.ext (eq_limbs_of_val (divremChain_length s a) hq) hm

/-- Two limbs combined by `or` where one has only high bits and the other only low bits: a sum. -/
theorem shl_or_shr_toNat {k : Nat} (hk : k ≤ 64) (x y : Limb) :
    (x <<< k ||| y >>> (64 - k)).toNat = x.toNat * 2 ^ k % beta + y.toNat / 2 ^ (64 - k) := by
  have hy : y.toNat / 2 ^ (64 - k) < 2 ^ k := by
    rw [Nat.div_lt_iff_lt_mul (by positivity), ← pow_add, Nat.add_sub_cancel' hk]; exact y.isLt
  have hx : x.toNat * 2 ^ k % beta = 2 ^ k * (x.toNat % 2 ^ (64 - k)) := by
    have : beta = 2 ^ k * 2 ^ (64 - k) := by rw [← pow_add, Nat.add_sub_cancel' hk]; rfl
    rw [this, Nat.mul_comm, Nat.mul_mod_mul_left]
  rw [BitVec.toNat_or, BitVec.toNat_shiftLeft, BitVec.toNat_ushiftRight, Nat.shiftLeft_eq, Nat.shiftRight_eq_div_pow]
  change x.toNat * 2 ^ k % beta ||| _ = _
  rw [hx, ← Nat.two_pow_add_eq_or_of_lt hy]

theorem lshiftChain_length (k : Nat) (a : List Limb) (b : Limb) : (lshiftChain k a b).1.length = a.length := by
  induction a generalizing b with
  | nil => rfl
  | cons x xs ih => simp only [lshiftChain, List.length_cons, ih]

theorem lshiftChain_total {k : Nat} (hk : k ≤ 64) (a : List Limb) (b : Limb) :
    val (lshiftChain k a b).1 + beta ^ a.length * (lshiftChain k a b).2.toNat
      = val a * 2 ^ k + b.toNat / 2 ^ (64 - k) := by
  induction a generalizing b with
  | nil => simp [lshiftChain, Nat.shiftRight_eq_div_pow]
  | cons x xs ih =>
    have e := ih x
    have d : x.toNat * 2 ^ k % beta + beta * (x.toNat / 2 ^ (64 - k)) = x.toNat * 2 ^ k := by
      have hb : beta = 2 ^ (64 - k) * 2 ^ k := by rw [← pow_add, Nat.sub_add_cancel hk]; rfl
      have : x.toNat / 2 ^ (64 - k) = x.toNat * 2 ^ k / beta := by
        rw [hb, Nat.mul_div_mul_right _ _ (by positivity)]
      rw [this, Nat.mod_add_div]
    simp only [lshiftChain, val_cons, List.length_cons, pow_succ', shl_or_shr_toNat hk]
    linear_combination d + beta * e

/-- R117, R118: `lshift` by its limb formula is `lshift` by its value equation. -/
theorem lshiftChain_eq {k : Nat} (hk : k ≤ 64) (a : List Limb) :
    (lshiftChain k a 0).1 = limbs (val a * 2 ^ k) a.length ∧
      (lshiftChain k a 0).2.toNat = val a * 2 ^ k / beta ^ a.length := by
  have t := lshiftChain_total hk a 0
  rw [show (0 : Limb).toNat = 0 from rfl, Nat.zero_div, Nat.add_zero] at t
  exact limbs_and_carry (lshiftChain_length k a 0) t

theorem rshiftChain_length (k : Nat) (a : List Limb) : (rshiftChain k a).1.length = a.length := by
  induction a with
  | nil => rfl
  | cons x xs ih => simp only [rshiftChain, List.length_cons, ih]

/-- The top limb's low bits times `2^(64-k)`, as `rshift` returns them. -/
theorem rshiftChain_ret {k : Nat} (hk : k ≤ 64) (x : Limb) :
    (x <<< (64 - k)).toNat = x.toNat % 2 ^ k * 2 ^ (64 - k) := by
  have hb : (2 : Nat) ^ 64 = 2 ^ k * 2 ^ (64 - k) := by rw [← pow_add, Nat.add_sub_cancel' hk]
  rw [BitVec.toNat_shiftLeft, Nat.shiftLeft_eq, hb, Nat.mul_mod_mul_right]

theorem val_mod_two_pow {k : Nat} (hk : k ≤ 64) (a : List Limb) : val a % 2 ^ k = (a.headD 0).toNat % 2 ^ k := by
  cases a with
  | nil => simp
  | cons x xs =>
    have hb : beta = 2 ^ k * 2 ^ (64 - k) := by rw [← pow_add, Nat.add_sub_cancel' hk]; rfl
    rw [val_cons, hb, Nat.mul_assoc, Nat.add_mul_mod_self_left]; rfl

/-- R119, R120: `rshift` by its limb formula is `rshift` by its value equation. -/
theorem rshiftChain_fst {k : Nat} (hk : k ≤ 64) (a : List Limb) :
    (rshiftChain k a).1 = limbs (val a / 2 ^ k) a.length := by
  apply eq_limbs_of_val (rshiftChain_length k a)
  induction a with
  | nil => simp [rshiftChain]
  | cons x xs ih =>
    have hx : (x >>> k ||| (xs.headD 0) <<< (64 - k)).toNat
        = x.toNat / 2 ^ k + (xs.headD 0).toNat % 2 ^ k * 2 ^ (64 - k) := by
      have h := shl_or_shr_toNat (k := 64 - k) (by omega) (xs.headD 0) x
      rw [show 64 - (64 - k) = k by omega] at h
      have e := rshiftChain_ret hk (xs.headD 0)
      rw [BitVec.toNat_shiftLeft, Nat.shiftLeft_eq] at e
      rw [BitVec.or_comm, h]
      change (xs.headD 0).toNat * 2 ^ (64 - k) % 2 ^ 64 + _ = _
      rw [e]; ring
    have hb : beta = 2 ^ k * 2 ^ (64 - k) := by rw [← pow_add, Nat.add_sub_cancel' hk]; rfl
    have m := Nat.mod_add_div (val xs) (2 ^ k)
    rw [val_mod_two_pow hk] at m
    simp only [rshiftChain, val_cons, hx, ih]
    have e : (x.toNat + beta * val xs) / 2 ^ k = x.toNat / 2 ^ k + 2 ^ (64 - k) * val xs := by
      rw [hb, Nat.mul_assoc, Nat.add_mul_div_left _ _ (by positivity)]
    rw [e, hb]
    linear_combination 2 ^ (64 - k) * m

theorem rshiftChain_eq {k : Nat} (hk : k ≤ 64) (a : List Limb) (hn : a ≠ []) :
    (rshiftChain k a).1 = limbs (val a / 2 ^ k) a.length ∧
      (rshiftChain k a).2.toNat = val a % 2 ^ k * 2 ^ (64 - k) := by
  refine ⟨rshiftChain_fst hk a, ?_⟩
  rw [val_mod_two_pow hk]
  cases a with
  | nil => exact absurd rfl hn
  | cons x xs => exact rshiftChain_ret hk x

/-- R124: comparing from the most significant differing limb is comparing the values. -/
theorem cmpChain_eq {a b : List Limb} (h : a.length = b.length) : cmpChain a b = compare (val a) (val b) := by
  induction a generalizing b with
  | nil => cases b <;> simp_all [cmpChain]
  | cons x xs ih =>
    cases b with
    | nil => simp at h
    | cons y ys =>
      have hx := limb_lt x
      have hy := limb_lt y
      rw [cmpChain, ih (b := ys) (by simpa using h), val_cons, val_cons]
      rcases lt_trichotomy (val xs) (val ys) with c | c | c
      · rw [compare_lt_iff_lt.mpr c]
        have := Nat.mul_le_mul_left beta (show val xs + 1 ≤ val ys from c)
        rw [Nat.mul_add] at this
        exact (compare_lt_iff_lt.mpr (by omega)).symm
      · rw [c, compare_eq_iff_eq.mpr rfl]
        simp only [compare, compareOfLessAndEq]
        congr 1 <;> simp
      · rw [compare_gt_iff_gt.mpr c]
        have := Nat.mul_le_mul_left beta (show val ys + 1 ≤ val xs from c)
        rw [Nat.mul_add] at this
        exact (compare_gt_iff_gt.mpr (by omega)).symm

end Sys2Proof.Machine
end

