-- ==== Sys2Proof/Laws/Memory.lean ====
section
/-! SUPPORT. Laws/Memory.lean: what the operations on limb memory do, read by read, and that each keeps the canonical
form and the bound on listed indices. -/

namespace Sys2Proof.Machine

/-! ### Reads after writes -/

@[simp] theorem Memory.read_nil (a : Nat) : Memory.read [] a = none := rfl

theorem Memory.read_write (m : Memory) (a : Nat) (v : Limb) (b : Nat) :
    (m.write a v).read b = if b = a then some v else m.read b := by
  induction m with
  | nil => simp [Memory.write, Memory.read]
  | cons c m ih =>
    obtain ⟨k, w⟩ := c
    simp only [Memory.write]
    split
    · simp only [Memory.read]
    · split
      · next h => subst h; simp only [Memory.read]; split <;> rfl
      · next h =>
        simp only [Memory.read, ih]
        by_cases h1 : b = k
        · have : ¬ b = a := by omega
          simp [h1, show ¬ k = a by omega]
        · simp [h1]

theorem Memory.read_writeList (m : Memory) (p : Nat) (l : List Limb) (b : Nat) :
    (m.writeList p l).read b = if p ≤ b ∧ b < p + l.length then l[b - p]? else m.read b := by
  induction l generalizing m p with
  | nil => simp only [Memory.writeList, List.length_nil]; rw [if_neg (by omega)]
  | cons v vs ih =>
    rw [Memory.writeList, ih, Memory.read_write]
    by_cases h1 : b = p
    · subst h1; simp
    · by_cases h2 : p + 1 ≤ b ∧ b < p + 1 + vs.length
      · rw [if_pos h2, if_pos (by simp; omega), show b - p = (b - (p + 1)) + 1 by omega, List.getElem?_cons_succ]
      · rw [if_neg h2, if_neg h1, if_neg (by simp; omega)]

theorem Memory.read_forget (m : Memory) (p n b : Nat) :
    (m.forget p n).read b = if p ≤ b ∧ b < p + n then none else m.read b := by
  induction m with
  | nil => simp [Memory.forget]
  | cons c m ih =>
    obtain ⟨k, w⟩ := c
    unfold Memory.forget at ih ⊢
    rw [List.filter_cons]
    by_cases hk : p ≤ k ∧ k < p + n
    · rw [if_neg (by simp [hk.1, hk.2]), ih]
      simp only [Memory.read]
      split
      · rfl
      · rw [if_neg (by rintro rfl; contradiction)]
    · rw [if_pos (by simp; omega)]
      simp only [Memory.read, ih]
      by_cases hb : b = k
      · subst hb; simp [hk]
      · simp [hb]

/-- A limb that lies in none of the ranges keeps its value. -/
theorem Memory.read_forgetAll {m : Memory} {outs : List Extent} {b : Nat} (h : ∀ e ∈ outs, e.has b = false) :
    (m.forgetAll outs).read b = m.read b := by
  unfold Memory.forgetAll
  induction outs generalizing m with
  | nil => rfl
  | cons e es ih =>
    rw [List.foldl_cons, ih (fun e' he' => h e' (List.mem_cons_of_mem _ he')), Memory.read_forget, if_neg]
    have := h e List.mem_cons_self
    simp only [Extent.has, Bool.and_eq_false_iff, decide_eq_false_iff_not] at this
    omega

/-- A limb outside every stored list keeps its value. -/
theorem Memory.read_store {m : Memory} {stores : List (Nat × List Limb)} {b : Nat}
    (h : ∀ w ∈ stores, ¬(w.1 ≤ b ∧ b < w.1 + w.2.length)) : (m.store stores).read b = m.read b := by
  unfold Memory.store
  induction stores generalizing m with
  | nil => rfl
  | cons w ws ih =>
    rw [List.foldl_cons, ih (fun w' hw' => h w' (List.mem_cons_of_mem _ hw')), Memory.read_writeList,
      if_neg (h w List.mem_cons_self)]

/-- After stores of which the later ones miss `w`'s range, the range holds `w`'s list. -/
theorem Memory.read_store_of_mem {m : Memory} {stores : List (Nat × List Limb)} {w : Nat × List Limb}
    (hw : w ∈ stores) {i : Nat} (hi : i < w.2.length)
    (hs : stores.Pairwise fun x y => ∀ b, x.1 ≤ b ∧ b < x.1 + x.2.length → ¬(y.1 ≤ b ∧ b < y.1 + y.2.length)) :
    (m.store stores).read (w.1 + i) = some w.2[i] := by
  unfold Memory.store
  induction stores generalizing m with
  | nil => simp at hw
  | cons x xs ih =>
    rw [List.foldl_cons]
    rw [List.pairwise_cons] at hs
    rcases List.mem_cons.mp hw with rfl | h
    · have := Memory.read_store (m := m.writeList w.1 w.2) (stores := xs) (b := w.1 + i)
        (fun y hy => hs.1 y hy _ (by omega))
      unfold Memory.store at this
      rw [this, Memory.read_writeList, if_pos (by omega), Nat.add_sub_cancel_left, List.getElem?_eq_getElem hi]
    · exact ih h hs.2

/-! ### The canonical form -/

theorem Memory.mem_write {m : Memory} {a : Nat} {v : Limb} {c : Nat × Limb} (h : c ∈ m.write a v) :
    c = (a, v) ∨ c ∈ m := by
  induction m with
  | nil => simpa [Memory.write] using h
  | cons x m ih =>
    obtain ⟨k, w⟩ := x
    simp only [Memory.write] at h
    split at h
    · simpa using h
    · split at h
      · rcases List.mem_cons.mp h with h | h
        · exact .inl h
        · exact .inr (List.mem_cons_of_mem _ h)
      · rcases List.mem_cons.mp h with h | h
        · exact .inr (h ▸ List.mem_cons_self)
        · rcases ih h with h | h
          · exact .inl h
          · exact .inr (List.mem_cons_of_mem _ h)

theorem Memory.wf_write {m : Memory} (h : m.wf) (a : Nat) (v : Limb) : (m.write a v).wf := by
  induction m with
  | nil => simp [Memory.write]
  | cons x m ih =>
    obtain ⟨k, w⟩ := x
    rw [Memory.wf, List.pairwise_cons] at h
    obtain ⟨h1, h2⟩ := h
    simp only [Memory.write]
    split
    · next hlt =>
      refine List.pairwise_cons.mpr ⟨?_, List.pairwise_cons.mpr ⟨h1, h2⟩⟩
      intro c hc
      rcases List.mem_cons.mp hc with rfl | hc
      · exact hlt
      · exact lt_trans hlt (h1 c hc)
    · split
      · next heq => subst heq; exact List.pairwise_cons.mpr ⟨h1, h2⟩
      · refine List.pairwise_cons.mpr ⟨?_, ih h2⟩
        intro c hc
        rcases Memory.mem_write hc with rfl | hc
        · show k < a; omega
        · exact h1 c hc

theorem Memory.wf_forget {m : Memory} (h : m.wf) (p n : Nat) : (m.forget p n).wf := List.Pairwise.filter _ h

theorem Memory.wf_writeList {m : Memory} (h : m.wf) (p : Nat) (l : List Limb) : (m.writeList p l).wf := by
  induction l generalizing m p with
  | nil => exact h
  | cons v vs ih => exact ih (Memory.wf_write h p v) _

theorem Memory.wf_forgetAll {m : Memory} (h : m.wf) (outs : List Extent) : (m.forgetAll outs).wf := by
  unfold Memory.forgetAll
  induction outs generalizing m with
  | nil => exact h
  | cons e es ih => exact ih (Memory.wf_forget h _ _)

theorem Memory.wf_store {m : Memory} (h : m.wf) (stores : List (Nat × List Limb)) : (m.store stores).wf := by
  unfold Memory.store
  induction stores generalizing m with
  | nil => exact h
  | cons w ws ih => exact ih (Memory.wf_writeList h _ _)

theorem Memory.read_eq_some_iff {m : Memory} (h : m.wf) {a : Nat} {v : Limb} : m.read a = some v ↔ (a, v) ∈ m := by
  induction m with
  | nil => simp
  | cons x m ih =>
    obtain ⟨k, w⟩ := x
    rw [Memory.wf, List.pairwise_cons] at h
    simp only [Memory.read, List.mem_cons, Prod.mk.injEq]
    by_cases hk : a = k
    · subst hk
      have : (a, v) ∉ m := fun hm => absurd (h.1 _ hm) (lt_irrefl a)
      simp [this, eq_comm]
    · simp [hk, ih h.2]

/-! ### The listed indices -/

/-- Every listed index is below `limit`. -/
abbrev Memory.below (m : Memory) (limit : Nat) : Prop := ∀ c ∈ m, c.1 < limit

theorem Memory.below_write {m : Memory} {limit : Nat} (h : m.below limit) {a : Nat} (ha : a < limit) (v : Limb) :
    (m.write a v).below limit := by
  intro c hc
  rcases Memory.mem_write hc with rfl | hc
  · exact ha
  · exact h c hc

theorem Memory.below_writeList {m : Memory} {limit : Nat} (h : m.below limit) {p : Nat} {l : List Limb}
    (hp : l = [] ∨ p + l.length ≤ limit) : (m.writeList p l).below limit := by
  induction l generalizing m p with
  | nil => exact h
  | cons v vs ih =>
    rcases hp with hp | hp
    · simp at hp
    · rw [List.length_cons] at hp
      exact ih (Memory.below_write h (by omega) v) (.inr (by omega))

theorem Memory.below_forget {m : Memory} {limit : Nat} (h : m.below limit) (p n : Nat) :
    (m.forget p n).below limit := fun c hc => h c (List.mem_of_mem_filter hc)

theorem Memory.below_forgetAll {m : Memory} {limit : Nat} (h : m.below limit) (outs : List Extent) :
    (m.forgetAll outs).below limit := by
  unfold Memory.forgetAll
  induction outs generalizing m with
  | nil => exact h
  | cons e es ih => exact ih (Memory.below_forget h _ _)

theorem Memory.below_store {m : Memory} {limit : Nat} (h : m.below limit) {stores : List (Nat × List Limb)}
    (hs : ∀ w ∈ stores, w.2 = [] ∨ w.1 + w.2.length ≤ limit) : (m.store stores).below limit := by
  unfold Memory.store
  induction stores generalizing m with
  | nil => exact h
  | cons w ws ih =>
    exact ih (Memory.below_writeList h (hs w List.mem_cons_self)) (fun w' hw' => hs w' (List.mem_cons_of_mem _ hw'))

/-! ### Limb lists read from memory -/

@[simp] theorem memRead_length (s : State) (p n : Nat) : (s.memRead p n).length = n := by simp [State.memRead]

/-- Two states that agree on a range, free value included, read the same list there. -/
theorem memRead_congr {s t : State} {p n : Nat} (h : ∀ i, i < n → s.limb (p + i) = t.limb (p + i)) :
    s.memRead p n = t.memRead p n := by
  apply List.map_congr_left
  intro i hi
  exact h i (List.mem_range.mp hi)

/-- A range that holds a specified list reads as that list. -/
theorem memRead_of_read {t : State} {p : Nat} {l : List Limb}
    (h : ∀ (i : Nat) (hi : i < l.length), t.mem.read (p + i) = some l[i]) : t.memRead p l.length = l := by
  apply List.ext_getElem (by simp)
  intro i h1 h2
  simp [State.memRead, State.limb, h i h2]

end Sys2Proof.Machine
end

