-- ==== Sys2Proof/Laws/Multiply.lean ====
section
/-! SUPPORT. Laws/Multiply.lean: the loop of the base case (R132), the symmetric square (R135), the Karatsuba recursion
(R142, R151) and the block decomposition (R216) compute exact products. -/

namespace Sys2Proof.Machine

/-! ### Base case -/

theorem mulLoop_spec (a : List Limb) (ys r : List Limb) (hl : r.length = a.length + ys.length)
    (hz : val (r.drop a.length) = 0) :
    (mulLoop a r ys).length = r.length ∧ val (mulLoop a r ys) = val r + val a * val ys := by
  induction ys generalizing r with
  | nil => simp [mulLoop]
  | cons y ys ih =>
    have hlen : r.length = a.length + (ys.length + 1) := by simpa using hl
    have ht : (r.take a.length).length = a.length := by simp; omega
    have htot := addmulChain_total y ht 0
    have hplen := addmulChain_length y ht 0
    have hr : val r = val (r.take a.length) := by
      have := val_take_add_drop r (h := a.length) (by omega)
      rw [hz] at this; simpa using this.symm
    have hz' : val (r.drop (a.length + 1)) = 0 := by
      have := val_take_add_drop (r.drop a.length) (h := 1) (by simp; omega)
      rw [hz, List.drop_drop] at this
      rcases Nat.eq_zero_of_add_eq_zero this with ⟨_, h⟩
      rcases Nat.mul_eq_zero.mp h with h | h
      · simp [beta] at h
      · exact h
    have hcarry : (addmulChain y (r.take a.length) a 0).2 < beta := by
      have h1 := val_lt (r.take a.length)
      have h2 := val_lt a
      have hy := limb_lt y
      rw [ht] at h1
      have h3 : val a * y.toNat ≤ (beta ^ a.length - 1) * (beta - 1) :=
        Nat.mul_le_mul (by omega) (by omega)
      have hp : 0 < beta ^ a.length := Nat.pow_pos beta_pos
      have h4 : (beta ^ a.length - 1) * (beta - 1) + (beta ^ a.length - 1) = (beta ^ a.length - 1) * beta := by
        rw [← Nat.mul_succ, Nat.succ_eq_add_one, Nat.sub_add_cancel beta_pos]
      have h5 : (beta ^ a.length - 1) * beta < beta ^ a.length * beta :=
        Nat.mul_lt_mul_of_pos_right (by omega) beta_pos
      have h6 : beta ^ a.length * (addmulChain y (r.take a.length) a 0).2 < beta ^ a.length * beta := by omega
      exact Nat.lt_of_mul_lt_mul_left h6
    obtain ⟨r', hr'⟩ : ∃ r', r' = (addmulChain y (r.take a.length) a 0).1 ++
      BitVec.ofNat 64 (addmulChain y (r.take a.length) a 0).2 :: r.drop (a.length + 1) := ⟨_, rfl⟩
    have hlen' : r'.length = r.length := by
      rw [hr']; simp only [List.length_append, hplen, List.length_cons, List.length_drop]; omega
    have hval' : val r' = val r + val a * y.toNat := by
      rw [hr', val_append, hplen, val_cons, hz', toNat_ofNat_limb, Nat.mod_eq_of_lt hcarry, Nat.mul_zero,
        Nat.add_zero]
      omega
    have hdrop : r'.drop (a.length + 1) = r.drop (a.length + 1) := by
      rw [hr', List.drop_append, hplen]
      simp [hplen, List.drop_eq_nil_of_le]
    rw [mulLoop, ← hr']
    match r', hlen', hval', hdrop with
    | [], hlen', _, _ => simp at hlen'; omega
    | low :: rest, hlen', hval', hdrop =>
      simp only [List.drop_succ_cons] at hdrop
      simp only [List.length_cons] at hlen'
      obtain ⟨i1, i2⟩ := ih rest (by omega) (by rw [hdrop]; exact hz')
      refine ⟨by simp [i1, ← hlen'], ?_⟩
      rw [val_cons] at hval'
      rw [val_cons, i2, val_cons]
      linear_combination hval'

/-- R131, R132: the loop computes the value equation. -/
theorem mulByLoop_eq (a b : List Limb) : mulByLoop a b = basecase a a.length b b.length := by
  have h := mulLoop_spec a b (List.replicate (a.length + b.length) 0) (by simp)
    (by rw [List.drop_replicate, val_replicate_zero])
  rw [val_replicate_zero, Nat.zero_add] at h
  exact eq_limbs_of_val (by rw [mulByLoop, h.1]; simp) h.2

/-- R135: the square from the off-diagonal and diagonal products. -/
theorem square_by_symmetry (a : List Limb) : val a * val a = 2 * offDiagonal a + diagonal a := by
  induction a with
  | nil => rfl
  | cons x xs ih =>
    simp only [val_cons, offDiagonal, diagonal]
    linear_combination beta ^ 2 * ih

theorem product_lt {a b : List Limb} {n m : Nat} (ha : a.length = n) (hb : b.length = m) :
    val a * val b < beta ^ (n + m) := by
  rw [pow_add]
  exact Nat.mul_lt_mul'' (ha ▸ val_lt a) (hb ▸ val_lt b)

/-! ### Karatsuba -/

/-- The middle term and the combination of the three-way split (R145 to R147). -/
theorem three_way_split (A0 A1 B0 B1 B : Nat) :
    A0 * B0 + ((A0 + A1) * (B0 + B1) - A0 * B0 - A1 * B1) * B + A1 * B1 * (B * B)
      = (A0 + B * A1) * (B0 + B * B1) := by
  have : (A0 + A1) * (B0 + B1) - A0 * B0 - A1 * B1 = A0 * B1 + A1 * B0 := by
    have : (A0 + A1) * (B0 + B1) = A0 * B1 + A1 * B0 + A1 * B1 + A0 * B0 := by ring
    rw [this, Nat.add_sub_cancel, Nat.add_sub_cancel]
  rw [this]; ring

theorem half_sum_lt {x y : List Limb} {h : Nat} (hx : x.length ≤ h) (hy : y.length ≤ h) :
    val x + val y < beta ^ (h + 1) := by
  have h1 := lt_of_lt_of_le (val_lt x) (Nat.pow_le_pow_right beta_pos hx)
  have h2 := lt_of_lt_of_le (val_lt y) (Nat.pow_le_pow_right beta_pos hy)
  have h3 : beta ^ h * 2 ≤ beta ^ h * beta := Nat.mul_le_mul_left _ (by norm_num [beta])
  rw [pow_succ]; omega

/-- R152: `kara` is the exact product, whatever the threshold. -/
theorem kara_eq (K fuel : Nat) (a b : List Limb) (n : Nat) (ha : a.length = n) (hb : b.length = n) :
    kara K fuel a b n = limbs (val a * val b) (2 * n) := by
  induction fuel generalizing a b n with
  | zero => rfl
  | succ fuel ih =>
    rw [kara]
    split
    · rfl
    · have hh : (n + 1) / 2 ≤ n := by omega
      have ta : (a.take ((n + 1) / 2)).length = (n + 1) / 2 := by simp; omega
      have tb : (b.take ((n + 1) / 2)).length = (n + 1) / 2 := by simp; omega
      have da : (a.drop ((n + 1) / 2)).length = n - (n + 1) / 2 := by simp [ha]
      have db : (b.drop ((n + 1) / 2)).length = n - (n + 1) / 2 := by simp [hb]
      have sA := half_sum_lt (x := a.take ((n + 1) / 2)) (y := a.drop ((n + 1) / 2)) ta.le (by omega)
      have sB := half_sum_lt (x := b.take ((n + 1) / 2)) (y := b.drop ((n + 1) / 2)) tb.le (by omega)
      have p0 := product_lt ta tb
      have p2 := product_lt da db
      have ps := Nat.mul_lt_mul'' sA sB
      rw [← pow_add] at ps
      dsimp only
      rw [ih _ _ _ ta tb, ih _ _ _ da db, ih _ _ _ (limbs_length _ _) (limbs_length _ _)]
      simp only [val_limbs sA, val_limbs sB]
      rw [val_limbs (by rw [two_mul]; exact p0), val_limbs (by rw [two_mul]; exact ps),
        val_limbs (by rw [two_mul]; exact p2), two_mul ((n + 1) / 2), pow_add, three_way_split,
        val_take_add_drop a (by omega), val_take_add_drop b (by omega)]

/-- R151, R152: `kara_sqr` is the exact square. -/
theorem karaSqr_eq (K fuel : Nat) (a : List Limb) (n : Nat) (ha : a.length = n) :
    karaSqr K fuel a n = basecaseSqr a n := by
  induction fuel generalizing a n with
  | zero => rfl
  | succ fuel ih =>
    rw [karaSqr]
    split
    · rfl
    · have ta : (a.take ((n + 1) / 2)).length = (n + 1) / 2 := by simp; omega
      have da : (a.drop ((n + 1) / 2)).length = n - (n + 1) / 2 := by simp [ha]
      have sA := half_sum_lt (x := a.take ((n + 1) / 2)) (y := a.drop ((n + 1) / 2)) ta.le (by omega)
      have p0 := product_lt ta ta
      have p2 := product_lt da da
      have ps := Nat.mul_lt_mul'' sA sA
      rw [← pow_add] at ps
      dsimp only
      rw [ih _ _ ta, ih _ _ da, ih _ _ (limbs_length _ _)]
      simp only [basecaseSqr, val_limbs sA]
      rw [val_limbs (by rw [two_mul]; exact p0), val_limbs (by rw [two_mul]; exact ps),
        val_limbs (by rw [two_mul]; exact p2), two_mul ((n + 1) / 2), pow_add, three_way_split,
        val_take_add_drop a (by omega)]

/-! ### Blocks -/

/-- Cutting a list into blocks of `n >= 1` limbs and summing the blocks' products with `v` at their offsets gives the
product of the whole (R216), if the product of each block is exact. -/
theorem sumBlocks_eq {n : Nat} (hn : 1 ≤ n) (v : Nat) (f : List Limb → List Limb) (fuel : Nat) (a : List Limb)
    (hf : a.length ≤ fuel) (hv : ∀ blk : List Limb, blk.length ≤ n → val (f blk) = val blk * v) :
    sumBlocks n ((blocksOf n fuel a).map f) = val a * v := by
  induction fuel generalizing a with
  | zero =>
    have : a = [] := List.eq_nil_of_length_eq_zero (by omega)
    subst this; simp [blocksOf, sumBlocks]
  | succ fuel ih =>
    rw [blocksOf]
    split
    · next h => rw [List.eq_nil_of_length_eq_zero h]; simp [sumBlocks]
    · simp only [List.map_cons, sumBlocks]
      rw [ih _ (by simp; omega), hv _ (by simp)]
      rcases Nat.le_total n a.length with h | h
      · rw [← val_take_add_drop a h]; ring
      · rw [List.take_of_length_le h, List.drop_eq_nil_of_le h]; simp

end Sys2Proof.Machine
end

