-- ==== Sys2Proof/Laws/Params.lean ====
section
/-! SUPPORT. Laws/Params.lean: modular powers and inverses, power lists, permitted lengths, and the list of present
tables. -/

namespace Sys2Proof

theorem powModFuel_eq (p fuel b e : Nat) (he : e < 2 ^ fuel) : powModFuel p fuel b e = b ^ e % p := by
  induction fuel generalizing b e with
  | zero =>
    have : e = 0 := by simpa using he
    subst this; simp [powModFuel]
  | succ fuel ih =>
    rw [powModFuel]
    split
    · next h => subst h; simp
    · have h2 : e / 2 < 2 ^ fuel := by rw [pow_succ] at he; omega
      dsimp only
      rw [ih _ _ h2]
      have hb : (b * b % p) ^ (e / 2) % p = b ^ (2 * (e / 2)) % p := by
        rw [← Nat.pow_mod, pow_mul, pow_two]
      split
      · next h1 =>
        conv_rhs => rw [show e = 2 * (e / 2) + 1 by omega, pow_succ, Nat.mul_comm]
        rw [hb, ← Nat.mul_mod_mod b, Nat.mod_mod, Nat.mul_mod_mod]
      · next h1 =>
        conv_rhs => rw [show e = 2 * (e / 2) by omega]
        rw [hb]

/-- `powMod` is the power, reduced. -/
theorem powMod_eq (b e p : Nat) : powMod b e p = b ^ e % p :=
  powModFuel_eq p _ b e Nat.lt_log2_self

theorem powMod_cast (b e p : Nat) : ((powMod b e p : Nat) : ZMod p) = (b : ZMod p) ^ e := by
  rw [powMod_eq, ZMod.natCast_mod, Nat.cast_pow]

/-- `invMod` is the inverse modulo a prime (Fermat). -/
theorem invMod_cast {p : Nat} [hp : Fact p.Prime] {a : Nat} (ha : (a : ZMod p) ≠ 0) :
    ((invMod a p : Nat) : ZMod p) = (a : ZMod p)⁻¹ := by
  rw [invMod, powMod_cast]
  apply eq_inv_of_mul_eq_one_left
  have h2 := hp.out.two_le
  rw [← pow_succ, show p - 2 + 1 = p - 1 by omega]
  exact ZMod.pow_card_sub_one_eq_one ha

theorem powersFrom_length (w p x n : Nat) : (powersFrom w p x n).length = n := by
  induction n generalizing x with
  | zero => rfl
  | succ n ih => simp [powersFrom, ih]

theorem powersFrom_cast (w p x n j : Nat) (hj : j < n) :
    (((powersFrom w p x n).getD j 0 : Nat) : ZMod p) = (x : ZMod p) * (w : ZMod p) ^ j := by
  induction n generalizing x j with
  | zero => omega
  | succ n ih =>
    cases j with
    | zero => simp [powersFrom]
    | succ j =>
      rw [powersFrom, List.getD_cons_succ, ih _ _ (by omega), ZMod.natCast_mod, Nat.cast_mul, pow_succ']
      ring

/-! ### Permitted lengths -/

theorem mem_sizes {c : Config} {n : Nat} (h : n ∈ c.sizes) :
    0 < n ∧ n ≤ c.nMax ∧ ∀ p ∈ c.primes, (p - 1) % n = 0 := by
  simp only [Config.sizes, List.mem_flatMap, List.mem_map, List.mem_filter] at h
  obtain ⟨k, -, m, ⟨hm, hp⟩, rfl⟩ := h
  simp only [Config.permits, Bool.and_eq_true, decide_eq_true_eq, List.all_eq_true, beq_iff_eq] at hp
  refine ⟨?_, hp.1.2, hp.2⟩
  have : 0 < m := by
    simp only [List.mem_cons, List.not_mem_nil, or_false] at hm; omega
  positivity

theorem foldl_min_spec (l : List Nat) (x : Nat) :
    (l.foldl min x = x ∨ l.foldl min x ∈ l) ∧ l.foldl min x ≤ x ∧ ∀ y ∈ l, l.foldl min x ≤ y := by
  induction l generalizing x with
  | nil => simp
  | cons z zs ih =>
    obtain ⟨h1, h2, h3⟩ := ih (min x z)
    simp only [List.foldl_cons, List.mem_cons]
    refine ⟨?_, by omega, ?_⟩
    · rcases h1 with h | h
      · rcases Nat.le_total x z with g | g
        · left; rw [h, Nat.min_eq_left g]
        · right; left; rw [h, Nat.min_eq_right g]
      · right; right; exact h
    · rintro y (rfl | hy)
      · omega
      · exact h3 y hy

/-- `select_size(L)` is permitted, at least `L`, and the smallest such (R162), when `N_max` is permitted and
`L <= N_max`. -/
theorem selectSize_spec {c : Config} (hm : c.nMax ∈ c.sizes) {len : Nat} (hl : len ≤ c.nMax) :
    c.selectSize len ∈ c.sizes ∧ len ≤ c.selectSize len ∧ ∀ n ∈ c.sizes, len ≤ n → c.selectSize len ≤ n := by
  obtain ⟨h1, h2, h3⟩ := foldl_min_spec (c.sizes.filter fun n => len ≤ n) c.nMax
  have hmem : ∀ n, n ∈ c.sizes.filter (fun n => len ≤ n) ↔ n ∈ c.sizes ∧ len ≤ n := by
    intro n; simp [List.mem_filter]
  refine ⟨?_, ?_, ?_⟩
  · rcases h1 with h | h
    · rw [Config.selectSize, h]; exact hm
    · exact ((hmem _).mp h).1
  · rcases h1 with h | h
    · rw [Config.selectSize, h]; exact hl
    · exact ((hmem _).mp h).2
  · intro n hn hln
    exact h3 n ((hmem n).mpr ⟨hn, hln⟩)

/-! ### The list of present tables -/

/-- Sorted lists of table names, without repeats. -/
abbrev tablesSorted (l : List TableName) : Prop := l.Pairwise fun s t => TableName.before s t = true

theorem before_iff (s t : TableName) : TableName.before s t = true ↔ s.1 < t.1 ∨ (s.1 = t.1 ∧ s.2 < t.2) := by
  simp [TableName.before]

theorem mem_insertTable (t u : TableName) (l : List TableName) : u ∈ insertTable t l ↔ u = t ∨ u ∈ l := by
  induction l with
  | nil => simp [insertTable]
  | cons x xs ih =>
    rw [insertTable]
    split
    · next h => subst h; simp
    · split
      · simp
      · simp only [List.mem_cons, ih]; tauto

theorem insertTable_sorted (t : TableName) {l : List TableName} (h : tablesSorted l) :
    tablesSorted (insertTable t l) := by
  induction l with
  | nil => simp [insertTable]
  | cons x xs ih =>
    rw [tablesSorted, List.pairwise_cons] at h
    rw [insertTable]
    split
    · exact List.pairwise_cons.mpr h
    · next hne =>
      split
      · next hb =>
        refine List.pairwise_cons.mpr ⟨?_, List.pairwise_cons.mpr h⟩
        intro u hu
        rcases List.mem_cons.mp hu with rfl | hu
        · exact hb
        · have := h.1 u hu
          rw [before_iff] at *; omega
      · next hb =>
        refine List.pairwise_cons.mpr ⟨?_, ih h.2⟩
        intro u hu
        rcases (mem_insertTable _ _ _).mp hu with rfl | hu
        · rw [before_iff] at *
          have : u.1 ≠ x.1 ∨ u.2 ≠ x.2 := by
            by_contra hc; push Not at hc; exact hne (Prod.ext hc.1 hc.2)
          omega
        · exact h.1 u hu

/-- A list that already holds a table is unchanged (R37: idempotent). -/
theorem insertTable_of_mem (t : TableName) {l : List TableName} (hs : tablesSorted l) (h : t ∈ l) :
    insertTable t l = l := by
  induction l with
  | nil => simp at h
  | cons x xs ih =>
    rw [tablesSorted, List.pairwise_cons] at hs
    rw [insertTable]
    split
    · rfl
    · next hne =>
      have ht : t ∈ xs := by
        rcases List.mem_cons.mp h with e | e
        · exact absurd e hne
        · exact e
      have hb := hs.1 t ht
      split
      · next hb' => rw [before_iff] at *; omega
      · rw [ih hs.2 ht]

theorem mem_foldr_insertTable (ts l : List TableName) (u : TableName) :
    u ∈ ts.foldr insertTable l ↔ u ∈ ts ∨ u ∈ l := by
  induction ts with
  | nil => simp
  | cons t ts ih => simp only [List.foldr_cons, mem_insertTable, ih, List.mem_cons]; tauto

theorem foldr_insertTable_sorted (ts : List TableName) {l : List TableName} (h : tablesSorted l) :
    tablesSorted (ts.foldr insertTable l) := by
  induction ts with
  | nil => exact h
  | cons t ts ih => exact insertTable_sorted t ih

theorem mem_tablesOf {c : Config} {n : Nat} {t : TableName} :
    t ∈ c.tablesOf n ↔ 1 ≤ t.1 ∧ t.1 ≤ c.primes.length ∧ t.2 = n := by
  simp only [Config.tablesOf, List.mem_map, List.mem_range]
  constructor
  · rintro ⟨i, hi, rfl⟩; exact ⟨by simp, by simp; omega, rfl⟩
  · rintro ⟨h1, h2, h3⟩
    exact ⟨t.1 - 1, by omega, Prod.ext (by simp; omega) h3.symm⟩

theorem mem_allTables {c : Config} {t : TableName} :
    t ∈ c.allTables ↔ 1 ≤ t.1 ∧ t.1 ≤ c.primes.length ∧ t.2 ∈ c.sizes := by
  simp only [Config.allTables, mem_foldr_insertTable, List.mem_flatMap, mem_tablesOf, List.not_mem_nil, or_false]
  constructor
  · rintro ⟨n, hn, h1, h2, rfl⟩; exact ⟨h1, h2, hn⟩
  · rintro ⟨h1, h2, h3⟩; exact ⟨t.2, h3, h1, h2, rfl⟩

theorem allTables_sorted (c : Config) : tablesSorted c.allTables :=
  foldr_insertTable_sorted _ List.Pairwise.nil

/-! ### What legality gives -/

theorem Config.Legal.checks {c : Config} (h : c.Legal) :
    c.thresholdsOk = true ∧ c.memLimbsOk = true ∧ c.primesOk = true ∧ c.nMaxOk = true ∧ c.productOk = true := by
  have := h.wellFormed
  simp only [Config.wellFormed, Bool.and_eq_true] at this
  tauto

theorem Config.Legal.nMax_mem {c : Config} (h : c.Legal) : c.nMax ∈ c.sizes := by
  have := h.checks.2.2.2.1
  simp only [Config.nMaxOk, Bool.and_eq_true, List.contains_iff_mem] at this
  exact this.1

theorem Config.Legal.nodup {c : Config} (h : c.Legal) : c.primes.Nodup := by
  have := h.checks.2.2.1
  simp only [Config.primesOk, Bool.and_eq_true, decide_eq_true_eq] at this
  exact this.1.2

theorem Config.Legal.product {c : Config} (h : c.Legal) :
    2 ^ (2 * c.view.width) * c.nMax < c.primes.prod := by
  simpa [Config.productOk] using h.checks.2.2.2.2

theorem Config.Legal.prime_mem {c : Config} {i : Nat} (h1 : i < c.primes.length) :
    c.prime (i + 1) ∈ c.primes := by
  simp only [Config.prime, Nat.add_sub_cancel]
  rw [List.getD_eq_getElem _ _ h1]
  exact List.getElem_mem h1

end Sys2Proof
end

