-- ==== Sys2Proof/Laws/Ntt.lean ====
section
/-! SUPPORT. Laws/Ntt.lean: the NTT engine computes the exact product, for every legal configuration (R171, R173, R174,
R176).  The route: digit lists are polynomials; the forward transform evaluates them at the powers of a root of unity
(R167); the inverse transform reads the product's coefficients back (R170, R171); Garner's recurrence recovers each
coefficient because it is below the product of the primes (R172, R173); carry propagation and packing keep the value
(R174, R175). -/

namespace Sys2Proof.Machine

open Polynomial

/-! ### Digit lists -/

/-- The value of a digit list in a base. -/
def digitVal (B : Nat) : List Nat → Nat
  | [] => 0
  | x :: xs => x + B * digitVal B xs

/-- The polynomial with a digit list as its coefficients. -/
noncomputable def digitPoly : List Nat → ℕ[X]
  | [] => 0
  | x :: xs => C x + X * digitPoly xs

theorem eval_digitPoly (B : Nat) (l : List Nat) : (digitPoly l).eval B = digitVal B l := by
  induction l with
  | nil => simp [digitPoly, digitVal]
  | cons x xs ih => simp [digitPoly, digitVal, ih]

theorem coeff_cons_mul (x : Nat) (xs : List Nat) (Q : ℕ[X]) (t : Nat) :
    (digitPoly (x :: xs) * Q).coeff t = x * Q.coeff t + if t = 0 then 0 else (digitPoly xs * Q).coeff (t - 1) := by
  rw [digitPoly, add_mul, coeff_add, coeff_C_mul, mul_assoc]
  congr 1
  cases t with
  | zero => simp
  | succ t => simp [coeff_X_mul]

theorem coeff_digitPoly (l : List Nat) (t : Nat) : (digitPoly l).coeff t = l.getD t 0 := by
  induction l generalizing t with
  | nil => simp [digitPoly]
  | cons x xs ih =>
    have := coeff_cons_mul x xs 1 t
    rw [mul_one] at this
    rw [this]
    cases t with
    | zero => simp
    | succ t => simp [coeff_one, ih]

/-- R171: the product's coefficients vanish from `la + lb` on. -/
theorem coeff_mul_eq_zero (a b : List Nat) (t : Nat) (ht : a.length + b.length ≤ t) :
    (digitPoly a * digitPoly b).coeff t = 0 := by
  induction a generalizing t with
  | nil => simp [digitPoly]
  | cons x xs ih =>
    simp only [List.length_cons] at ht
    rw [coeff_cons_mul, coeff_digitPoly, List.getD_eq_default _ _ (by omega), Nat.mul_zero, Nat.zero_add]
    split
    · rfl
    · exact ih _ (by omega)

/-- R173: a coefficient is at most `la·(B-1)^2`, so at most `la·B^2`. -/
theorem coeff_mul_le {B : Nat} {a b : List Nat} (ha : ∀ x ∈ a, x < B) (hb : ∀ x ∈ b, x < B) (t : Nat) :
    (digitPoly a * digitPoly b).coeff t ≤ a.length * (B * B) := by
  induction a generalizing t with
  | nil => simp [digitPoly]
  | cons x xs ih =>
    have hx : x ≤ B := (ha x (by simp)).le
    have hy : b.getD t 0 ≤ B := by
      rcases Nat.lt_or_ge t b.length with h | h
      · rw [List.getD_eq_getElem _ _ h]; exact (hb _ (List.getElem_mem h)).le
      · rw [List.getD_eq_default _ _ h]; omega
    have hxy := Nat.mul_le_mul hx hy
    have ih' := ih (fun y hy => ha y (by simp [hy]))
    rw [coeff_cons_mul, coeff_digitPoly, List.length_cons, Nat.add_mul, Nat.one_mul]
    split
    · omega
    · have := ih' (t - 1); omega

/-- A polynomial whose coefficients vanish from `n` on is the sum of its first `n` terms. -/
theorem eval₂_eq_sum_coeff {R : Type*} [CommSemiring R] (f : ℕ →+* R) (w : R) (P : ℕ[X]) {n : Nat}
    (h : ∀ t, n ≤ t → P.coeff t = 0) : P.eval₂ f w = ∑ t ∈ Finset.range n, f (P.coeff t) * w ^ t := by
  rw [Polynomial.eval₂_eq_sum, Polynomial.sum_def]
  apply Finset.sum_subset
  · intro t ht
    rw [Finset.mem_range]
    by_contra hc
    exact (mem_support_iff.mp ht) (h t (by omega))
  · intro t _ ht
    rw [notMem_support_iff.mp ht]; simp

theorem digitVal_map_range (B n : Nat) (f : Nat → Nat) :
    digitVal B ((List.range n).map f) = ∑ t ∈ Finset.range n, f t * B ^ t := by
  have h := eval_digitPoly B ((List.range n).map f)
  rw [← h]
  have hv : ∀ t, n ≤ t → (digitPoly ((List.range n).map f)).coeff t = 0 := by
    intro t ht
    rw [coeff_digitPoly, List.getD_eq_default _ _ (by simpa using ht)]
  have := eval₂_eq_sum_coeff (RingHom.id ℕ) B _ hv
  rw [← Polynomial.eval₂_id, this]
  apply Finset.sum_congr rfl
  intro t ht
  rw [coeff_digitPoly, RingHom.id_apply, List.getD_eq_getElem _ _ (by simpa using ht)]
  simp

/-! ### Steps 3 to 5 -/

/-- R167: Horner's sum is the value of the polynomial at the point. -/
theorem evalMod_cast (p : Nat) (xs : List Nat) (w : Nat) :
    ((evalMod p xs w : Nat) : ZMod p) = (digitPoly xs).eval₂ (Nat.castRingHom (ZMod p)) (w : ZMod p) := by
  induction xs with
  | nil => simp [evalMod, digitPoly]
  | cons x xs ih =>
    have e : evalMod p (x :: xs) w = (x + w * evalMod p xs w) % p := rfl
    rw [e, ZMod.natCast_mod]
    push_cast
    rw [ih]
    simp [digitPoly]

theorem evalMod_padMod (p n : Nat) (xs : List Nat) (w : Nat) :
    ((evalMod p (padMod p n xs) w : Nat) : ZMod p) = ((evalMod p xs w : Nat) : ZMod p) := by
  induction xs generalizing n with
  | nil =>
    simp only [padMod, List.map_nil, List.nil_append, List.length_nil]
    induction n - 0 with
    | zero => rfl
    | succ k ih =>
      have e : evalMod p (List.replicate (k + 1) 0) w = (0 + w * evalMod p (List.replicate k 0) w) % p := rfl
      rw [e, ZMod.natCast_mod]
      push_cast
      rw [ih]; simp [evalMod]
  | cons x xs ih =>
    have hl : padMod p n (x :: xs) = x % p :: padMod p (n - 1) xs := by
      simp [padMod, Nat.sub_sub, Nat.add_comm]
    have e1 : evalMod p (x % p :: padMod p (n - 1) xs) w = (x % p + w * evalMod p (padMod p (n - 1) xs) w) % p := rfl
    have e2 : evalMod p (x :: xs) w = (x + w * evalMod p xs w) % p := rfl
    rw [hl, e1, e2, ZMod.natCast_mod, ZMod.natCast_mod]
    push_cast
    rw [ih, ZMod.natCast_mod]

/-- The orthogonality of the powers of a primitive `n`-th root (R171). -/
theorem root_orthogonality {F : Type*} [Field F] {w : F} {n : Nat} (hw : orderOf w = n) {u t : Nat} (hu : u < n)
    (ht : t < n) : ∑ j ∈ Finset.range n, (w ^ u * (w⁻¹) ^ t) ^ j = if u = t then (n : F) else 0 := by
  have hn : 0 < n := by omega
  have hw0 : w ≠ 0 := by
    rintro rfl
    have h := pow_orderOf_eq_one (0 : F)
    rw [hw, zero_pow (by omega)] at h
    exact zero_ne_one h
  split
  · next h =>
    subst h
    have : w ^ u * w⁻¹ ^ u = 1 := by rw [← mul_pow, mul_inv_cancel₀ hw0, one_pow]
    simp only [this, one_pow, Finset.sum_const, Finset.card_range, nsmul_eq_mul, mul_one]
  · next h =>
    have hne : w ^ u * (w⁻¹) ^ t ≠ 1 := by
      intro hc
      rw [inv_pow, mul_inv_eq_one₀ (pow_ne_zero _ hw0)] at hc
      exact h (pow_injOn_Iio_orderOf (by rw [hw]; exact hu) (by rw [hw]; exact ht) hc)
    have hpow : (w ^ u * (w⁻¹) ^ t) ^ n = 1 := by
      have : w ^ n = 1 := hw ▸ pow_orderOf_eq_one w
      rw [mul_pow, ← pow_mul, ← pow_mul, inv_pow, Nat.mul_comm u, Nat.mul_comm t, pow_mul, pow_mul, this]
      simp
    have := geom_sum_mul (w ^ u * (w⁻¹) ^ t) n
    rw [hpow, sub_self] at this
    exact (mul_eq_zero.mp this).resolve_right (sub_ne_zero.mpr hne)

/-- The evaluation values of a polynomial of fewer than `n` terms at the powers of a primitive `n`-th root give its
coefficients back (R170, R171). -/
theorem coefficient_from_values {F : Type*} [Field F] {w : F} {n : Nat} (hw : orderOf w = n) (hn : (n : F) ≠ 0)
    (f : ℕ →+* F) (P : ℕ[X]) (hP : ∀ t, n ≤ t → P.coeff t = 0) {t : Nat} (ht : t < n) :
    (n : F)⁻¹ * ∑ j ∈ Finset.range n, P.eval₂ f (w ^ j) * (w⁻¹ ^ t) ^ j = f (P.coeff t) := by
  have h1 : ∀ j, P.eval₂ f (w ^ j) * (w⁻¹ ^ t) ^ j
      = ∑ u ∈ Finset.range n, f (P.coeff u) * (w ^ u * w⁻¹ ^ t) ^ j := by
    intro j
    rw [eval₂_eq_sum_coeff f _ P hP, Finset.sum_mul]
    apply Finset.sum_congr rfl
    intro u _
    rw [mul_pow, ← pow_mul w u j, ← pow_mul w j u, Nat.mul_comm j u]; ring
  simp only [h1]
  rw [Finset.sum_comm]
  simp only [← Finset.mul_sum]
  have h2 : ∀ u ∈ Finset.range n, f (P.coeff u) * ∑ j ∈ Finset.range n, (w ^ u * w⁻¹ ^ t) ^ j
      = if u = t then f (P.coeff t) * n else 0 := by
    intro u hu
    rw [root_orthogonality hw (Finset.mem_range.mp hu) ht]
    split
    · next h => rw [h]
    · simp
  rw [Finset.sum_congr rfl h2, Finset.sum_ite_eq' _ _ _, if_pos (Finset.mem_range.mpr ht)]
  field_simp

theorem zipWith_getD (f : Nat → Nat → Nat) {a b : List Nat} {n j : Nat} (ha : a.length = n) (hb : b.length = n)
    (hj : j < n) : (List.zipWith f a b).getD j 0 = f (a.getD j 0) (b.getD j 0) := by
  rw [List.getD_eq_getElem _ _ (by simp; omega), List.getD_eq_getElem _ _ (by omega),
    List.getD_eq_getElem _ _ (by omega)]
  simp

theorem map_getD (f : Nat → Nat) {a : List Nat} {n j : Nat} (ha : a.length = n) (hj : j < n) :
    (a.map f).getD j 0 = f (a.getD j 0) := by
  rw [List.getD_eq_getElem _ _ (by simp; omega), List.getD_eq_getElem _ _ (by omega)]
  simp

/-- R171: what steps 3 to 5 compute for one prime: the coefficients of the acyclic product, modulo the prime. -/
theorem transform_convolves {p n w : Nat} [hp : Fact p.Prime] (hw : orderOf (w : ZMod p) = n) (hn : 0 < n)
    (hnp : n < p) {a b : List Nat} (hl : a.length + b.length ≤ n) {t : Nat} (ht : t < n) :
    (inverse p (powersFrom (invMod w p) p (1 % p) n) (invMod (n % p) p)
      (pointwise p (forward p (powersFrom w p (1 % p) n) (padMod p n a))
        (forward p (powersFrom w p (1 % p) n) (padMod p n b)))).getD t 0
      = (digitPoly a * digitPoly b).coeff t % p := by
  have hpp := hp.out.pos
  have hn0 : (n : ZMod p) ≠ 0 := by
    rw [Ne, ZMod.natCast_eq_zero_iff]
    exact Nat.not_dvd_of_pos_of_lt hn hnp
  have hw0 : (w : ZMod p) ≠ 0 := by
    intro h
    have h1 := pow_orderOf_eq_one (w : ZMod p)
    rw [hw, h, zero_pow (by omega)] at h1
    exact zero_ne_one h1
  have hone : ((1 % p : Nat) : ZMod p) = 1 := by rw [ZMod.natCast_mod, Nat.cast_one]
  -- the pointwise products are values of the product polynomial
  have hfc : ∀ j < n, (((pointwise p (forward p (powersFrom w p (1 % p) n) (padMod p n a))
        (forward p (powersFrom w p (1 % p) n) (padMod p n b))).getD j 0 : Nat) : ZMod p)
      = (digitPoly a * digitPoly b).eval₂ (Nat.castRingHom (ZMod p)) ((w : ZMod p) ^ j) := by
    intro j hj
    have hlen := powersFrom_length w p (1 % p) n
    rw [pointwise, zipWith_getD _ (n := n) (by simp [forward, hlen]) (by simp [forward, hlen]) hj,
      forward, forward, map_getD _ hlen hj, map_getD _ hlen hj, ZMod.natCast_mod, Nat.cast_mul,
      evalMod_padMod, evalMod_padMod, evalMod_cast, evalMod_cast, powersFrom_cast _ _ _ _ _ hj, hone, one_mul,
      eval₂_mul]
  generalize hF : pointwise p (forward p (powersFrom w p (1 % p) n) (padMod p n a))
        (forward p (powersFrom w p (1 % p) n) (padMod p n b)) = fc at hfc ⊢
  have hfl : fc.length = n := by
    rw [← hF]; simp [pointwise, forward, powersFrom_length]
  have hcast : (((inverse p (powersFrom (invMod w p) p (1 % p) n) (invMod (n % p) p) fc).getD t 0 : Nat) : ZMod p)
      = (((digitPoly a * digitPoly b).coeff t : Nat) : ZMod p) := by
    rw [inverse, map_getD _ (powersFrom_length _ _ _ _) ht, ZMod.natCast_mod, Nat.cast_mul, evalMod_cast,
      powersFrom_cast _ _ _ _ _ ht, hone, one_mul, invMod_cast (by rwa [ZMod.natCast_mod]), invMod_cast hw0,
      ZMod.natCast_mod, eval₂_eq_sum_coeff _ _ (digitPoly fc) (n := n)]
    · rw [show (((digitPoly a * digitPoly b).coeff t : Nat) : ZMod p)
          = Nat.castRingHom (ZMod p) ((digitPoly a * digitPoly b).coeff t) from rfl, ← coefficient_from_values hw hn0 (Nat.castRingHom (ZMod p)) (digitPoly a * digitPoly b)
        (fun u hu => coeff_mul_eq_zero a b u (by omega)) ht]
      congr 1
      apply Finset.sum_congr rfl
      intro j hj
      rw [coeff_digitPoly, ← hfc j (Finset.mem_range.mp hj)]
      simp
    · intro u hu
      rw [coeff_digitPoly, List.getD_eq_default _ _ (by omega)]
  have hlt : (inverse p (powersFrom (invMod w p) p (1 % p) n) (invMod (n % p) p) fc).getD t 0 < p := by
    rw [inverse, map_getD _ (powersFrom_length _ _ _ _) ht]
    exact Nat.mod_lt _ hpp
  rw [ZMod.natCast_eq_natCast_iff', Nat.mod_eq_of_lt hlt] at hcast
  exact hcast

/-! ### Step 6 -/

/-- R172: Garner's recurrence keeps `v = C mod m` and ends at `C mod (m·p_1·…·p_k)`. -/
theorem garnerFrom_eq (N : Nat) (ps : List Nat) (m : Nat) (hm : 0 < m) (hps : ∀ p ∈ ps, p.Prime) (hnd : ps.Nodup)
    (hcop : ∀ p ∈ ps, Nat.Coprime m p) :
    garnerFrom (ps.map fun p => (p, N % p)) (N % m) m = N % (m * ps.prod) := by
  induction ps generalizing m with
  | nil => simp [garnerFrom]
  | cons p ps ih =>
    have hpp : p.Prime := hps p (by simp)
    have : Fact p.Prime := ⟨hpp⟩
    have hmp : Nat.Coprime m p := hcop p (by simp)
    have hm0 : (m : ZMod p) ≠ 0 := by
      rw [Ne, ZMod.natCast_eq_zero_iff]
      exact (Nat.Prime.coprime_iff_not_dvd hpp).mp hmp.symm
    rw [List.map_cons, garnerFrom]
    generalize hd : (N % p % p + (p - N % m % p)) % p * invMod (m % p) p % p = d
    have hdp : d < p := hd ▸ Nat.mod_lt _ hpp.pos
    have key : N % m + d * m = N % (m * p) := by
      have hlt : N % m + d * m < m * p := by
        have h1 := Nat.mod_lt N hm
        have h2 := Nat.mul_le_mul_right m (show d + 1 ≤ p from hdp)
        rw [Nat.mul_comm m p]
        rw [Nat.add_mul, Nat.one_mul] at h2
        omega
      have h1 : N % m + d * m ≡ N [MOD m] := by
        show (N % m + d * m) % m = N % m
        rw [Nat.add_mul_mod_self_right, Nat.mod_mod]
      have h2 : N % m + d * m ≡ N [MOD p] := by
        rw [← ZMod.natCast_eq_natCast_iff]
        have hv := Nat.mod_lt (N % m) hpp.pos
        rw [← hd]
        have hi : ((invMod (m % p) p : Nat) : ZMod p) = (m : ZMod p)⁻¹ := by
          rw [invMod_cast (by rwa [ZMod.natCast_mod]), ZMod.natCast_mod]
        simp only [Nat.cast_add, Nat.cast_mul, ZMod.natCast_mod, Nat.cast_sub hv.le, ZMod.natCast_self, hi]
        field_simp
        ring
      have h3 : N % m + d * m ≡ N [MOD m * p] := (Nat.modEq_and_modEq_iff_modEq_mul hmp).mp ⟨h1, h2⟩
      rw [← Nat.mod_eq_of_lt hlt]; exact h3
    rw [key, ih (m * p) (Nat.mul_pos hm hpp.pos) (fun q hq => hps q (by simp [hq])) (List.nodup_cons.mp hnd).2]
    · rw [List.prod_cons, Nat.mul_assoc]
    · intro q hq
      apply Nat.Coprime.mul_left (hcop q (by simp [hq]))
      rw [Nat.coprime_primes hpp (hps q (by simp [hq]))]
      rintro rfl
      exact (List.nodup_cons.mp hnd).1 hq

/-- R172, R173: a number below the product of the primes is recovered from its residues. -/
theorem garner_eq {N : Nat} {ps : List Nat} (hps : ∀ p ∈ ps, p.Prime) (hnd : ps.Nodup) (hN : N < ps.prod) :
    garner (ps.map fun p => (p, N % p)) = N := by
  have h := garnerFrom_eq N ps 1 Nat.one_pos hps hnd (fun p _ => Nat.coprime_one_left p)
  rw [Nat.mod_one, Nat.one_mul, Nat.mod_eq_of_lt hN] at h
  exact h

/-! ### Step 7 and the views -/

theorem carryPropagate_length (B : Nat) (l : List Nat) (acc : Nat) : (carryPropagate B l acc).length = l.length := by
  induction l generalizing acc with
  | nil => rfl
  | cons x xs ih => simp [carryPropagate, ih]

theorem carryPropagate_lt {B : Nat} (hB : 0 < B) (l : List Nat) (acc : Nat) : ∀ x ∈ carryPropagate B l acc, x < B := by
  induction l generalizing acc with
  | nil => simp [carryPropagate]
  | cons x xs ih =>
    simp only [carryPropagate, List.mem_cons]
    rintro y (rfl | hy)
    · exact Nat.mod_lt _ hB
    · exact ih _ y hy

/-- R174: carry propagation keeps the value, modulo `B^len`. -/
theorem carryPropagate_val {B : Nat} (hB : 0 < B) (l : List Nat) (acc : Nat) :
    digitVal B (carryPropagate B l acc) = (digitVal B l + acc) % B ^ l.length := by
  induction l generalizing acc with
  | nil => simp [carryPropagate, digitVal, Nat.mod_one]
  | cons x xs ih =>
    simp only [carryPropagate, digitVal, ih, List.length_cons, pow_succ']
    rw [Nat.mod_mul]
    have h1 : (x + B * digitVal B xs + acc) % B = (acc + x) % B := by
      rw [show x + B * digitVal B xs + acc = acc + x + B * digitVal B xs by ring, Nat.add_mul_mod_self_left]
    rw [h1]
    congr 2
    rw [show x + B * digitVal B xs + acc = acc + x + B * digitVal B xs by ring, Nat.add_mul_div_left _ _ hB,
      Nat.add_comm]

theorem base_pos (v : NttView) : 0 < v.base := by cases v <;> norm_num [NttView.base, NttView.width]

theorem internalView_length (v : NttView) (a : List Limb) : (internalView v a).length = v.perLimb * a.length := by
  induction a with
  | nil => rfl
  | cons x xs ih =>
    cases v
    · simp [internalView, ih, NttView.perLimb]; ring
    · simp [internalView, ih, NttView.perLimb]

theorem internalView_lt (v : NttView) (a : List Limb) : ∀ d ∈ internalView v a, d < v.base := by
  induction a with
  | nil => simp [internalView]
  | cons x xs ih =>
    have hx := x.isLt
    cases v
    · simp only [internalView, List.mem_cons]
      rintro d (rfl | rfl | hd)
      · exact Nat.mod_lt _ (by norm_num)
      · change x.toNat / 2 ^ 32 < 2 ^ 32
        omega
      · exact ih d hd
    · simp only [internalView, List.mem_cons]
      rintro d (rfl | hd)
      · exact hx
      · exact ih d hd

/-- R161: the view keeps the value. -/
theorem internalView_val (v : NttView) (a : List Limb) : digitVal v.base (internalView v a) = val a := by
  induction a with
  | nil => rfl
  | cons x xs ih =>
    cases v
    · have hb : NttView.v32.base = 2 ^ 32 := rfl
      have hbeta : beta = 2 ^ 32 * 2 ^ 32 := by norm_num [beta]
      rw [hb] at ih
      simp only [internalView, digitVal, hb, val_cons, ih, hbeta]
      have := Nat.mod_add_div x.toNat (2 ^ 32)
      linear_combination this
    · have hb : NttView.v64.base = beta := rfl
      rw [hb] at ih
      simp only [internalView, digitVal, hb, val_cons, ih]

/-- R175: packing keeps the value and gives one limb for each `perLimb` internal limbs. -/
theorem pack_spec (v : NttView) (n : Nat) (l : List Nat) (hl : l.length = v.perLimb * n)
    (hd : ∀ d ∈ l, d < v.base) : (pack v l).length = n ∧ val (pack v l) = digitVal v.base l := by
  induction n generalizing l with
  | zero =>
    have : l = [] := List.eq_nil_of_length_eq_zero (by simpa using hl)
    subst this; simp [pack, digitVal]
  | succ n ih =>
    cases v
    · match l, hl with
      | [], hl => simp [NttView.perLimb] at hl
      | [x], hl => simp [NttView.perLimb] at hl; omega
      | x :: y :: xs, hl =>
        have hb : NttView.v32.base = 2 ^ 32 := rfl
        have hbeta : beta = 2 ^ 32 * 2 ^ 32 := by norm_num [beta]
        obtain ⟨i1, i2⟩ := ih xs (by simp [NttView.perLimb] at hl ⊢; omega) (fun d h => hd d (by simp [h]))
        have hx := hd x (by simp)
        have hy := hd y (by simp)
        rw [hb] at hx hy
        have hlt : x + 2 ^ 32 * y < beta := by rw [hbeta]; omega
        refine ⟨by simp [pack, i1], ?_⟩
        rw [pack, val_cons, toNat_ofNat_limb, Nat.mod_eq_of_lt hlt, i2, hb]
        simp only [digitVal, hbeta]; ring
    · have hb : NttView.v64.base = beta := rfl
      match l, hl with
      | [], hl => simp [NttView.perLimb] at hl
      | [x], hl =>
        have hx := hd x (by simp)
        rw [hb] at hx
        have : n = 0 := by simp [NttView.perLimb] at hl; omega
        subst this
        refine ⟨rfl, ?_⟩
        rw [pack, val_cons, toNat_ofNat_limb, Nat.mod_eq_of_lt hx]
        rfl
      | x :: y :: xs, hl =>
        obtain ⟨i1, i2⟩ := ih (y :: xs) (by simp [NttView.perLimb] at hl ⊢; omega) (fun d h => hd d (by simp [h]))
        have hx := hd x (by simp)
        rw [hb] at hx
        refine ⟨by simp only [pack, List.length_cons, i1], ?_⟩
        rw [pack, val_cons, toNat_ofNat_limb, Nat.mod_eq_of_lt hx, i2, hb]
        simp only [digitVal]

/-! ### The engine -/

/-- What a legal configuration gives for the length the engine picks (R162, R165). -/
theorem selected_root {c : Config} (hc : c.Legal) {len : Nat} (hl : len ≤ c.nMax) {i : Nat} (hi : i < c.primes.length) :
    (c.prime (i + 1)).Prime ∧ 0 < c.selectSize len ∧ c.selectSize len < c.prime (i + 1) ∧ len ≤ c.selectSize len ∧
      orderOf ((c.root (i + 1) (c.selectSize len) : Nat) : ZMod (c.prime (i + 1))) = c.selectSize len := by
  obtain ⟨h1, h2, -⟩ := selectSize_spec hc.nMax_mem hl
  obtain ⟨h3, -, h5⟩ := mem_sizes h1
  have hmem := Config.Legal.prime_mem (c := c) hi
  have hp := hc.prime _ hmem
  refine ⟨hp, h3, ?_, h2, hc.root_order (i + 1) (by omega) (by omega) _ h1⟩
  have hdvd : c.selectSize len ∣ c.prime (i + 1) - 1 := Nat.dvd_of_mod_eq_zero (h5 _ hmem)
  have := Nat.le_of_dvd (by have := hp.two_le; omega) hdvd
  have := hp.two_le
  omega

/-- R171: the residues at index `t` are the product's coefficient modulo the prime. -/
theorem residues_getD {c : Config} (hc : c.Legal) {len : Nat} (hl : len ≤ c.nMax) {i : Nat} (hi : i < c.primes.length)
    {a b : List Nat} (hab : a.length + b.length ≤ len) {t : Nat} (ht : t < c.selectSize len) :
    (residues c (i + 1) (c.selectSize len) a b).getD t 0
      = (digitPoly a * digitPoly b).coeff t % c.prime (i + 1) := by
  obtain ⟨hp, hn, hnp, hle, hw⟩ := selected_root hc hl hi
  have : Fact (c.prime (i + 1)).Prime := ⟨hp⟩
  exact transform_convolves hw hn hnp (by omega) ht

/-- R173: the coefficients are below the product of the primes. -/
theorem coefficient_lt {c : Config} (hc : c.Legal) {len : Nat} (hl : len ≤ c.nMax) {a b : List Nat}
    (ha : ∀ x ∈ a, x < c.view.base) (hb : ∀ x ∈ b, x < c.view.base) (hab : a.length + b.length ≤ len) (t : Nat) :
    (digitPoly a * digitPoly b).coeff t < c.primes.prod := by
  have h1 := coeff_mul_le ha hb t
  have h2 := hc.product
  have h3 : c.view.base * c.view.base = 2 ^ (2 * c.view.width) := by rw [NttView.base, ← pow_add, two_mul]
  rw [h3] at h1
  have h4 : a.length * 2 ^ (2 * c.view.width) ≤ 2 ^ (2 * c.view.width) * c.nMax := by
    rw [Nat.mul_comm]; exact Nat.mul_le_mul_left _ (by omega)
  omega

/-- Steps 3 to 6: the coefficients of the acyclic product (R171, R173). -/
theorem coefficients_eq {c : Config} (hc : c.Legal) {len : Nat} (hl : len ≤ c.nMax) {a b : List Nat}
    (ha : ∀ x ∈ a, x < c.view.base) (hb : ∀ x ∈ b, x < c.view.base) (hab : a.length + b.length ≤ len) :
    coefficients c.primes ((List.range c.primes.length).map fun i => residues c (i + 1) (c.selectSize len) a b)
      (c.selectSize len) = (List.range (c.selectSize len)).map (digitPoly a * digitPoly b).coeff := by
  apply List.map_congr_left
  intro t ht
  have ht' : t < c.selectSize len := by simpa using ht
  have hrows : c.primes.zip (((List.range c.primes.length).map
        fun i => residues c (i + 1) (c.selectSize len) a b).map fun r => r.getD t 0)
      = c.primes.map fun p => (p, (digitPoly a * digitPoly b).coeff t % p) := by
    apply List.ext_getElem
    · simp
    · intro i h1 h2
      have hi : i < c.primes.length := by simpa using h2
      have hpi : c.prime (i + 1) = c.primes[i] := by
        simp only [Config.prime, Nat.add_sub_cancel]
        rw [List.getD_eq_getElem _ _ hi]
      simp only [List.getElem_zip, List.getElem_map, List.getElem_range]
      rw [residues_getD hc hl hi hab ht', hpi]
  rw [hrows, garner_eq hc.prime hc.nodup (coefficient_lt hc hl ha hb hab t)]

/-- R176, the contract of the engine: for every legal configuration `mul_ntt`'s steps give exactly the base-case
product. -/
theorem nttMul_eq {c : Config} (hc : c.Legal) {a b : List Limb} {na nb : Nat} (ha : a.length = na)
    (hb : b.length = nb) (hfit : nttFits c (na + nb) = true) : nttMul c a na b nb = basecase a na b nb := by
  have hl : viewLen c (na + nb) ≤ c.nMax := by simpa [nttFits] using hfit
  have hla := internalView_length c.view a
  have hlb := internalView_length c.view b
  have hab : (internalView c.view a).length + (internalView c.view b).length = viewLen c (na + nb) := by
    rw [hla, hlb, ha, hb, viewLen, Nat.mul_add]
  have hle : viewLen c (na + nb) ≤ c.selectSize (viewLen c (na + nb)) := (selectSize_spec hc.nMax_mem hl).2.1
  obtain ⟨P, hP⟩ : ∃ P, P = digitPoly (internalView c.view a) * digitPoly (internalView c.view b) := ⟨_, rfl⟩
  have hval : digitVal c.view.base ((List.range (viewLen c (na + nb))).map P.coeff) = val a * val b := by
    rw [digitVal_map_range, ← internalView_val c.view a, ← internalView_val c.view b, ← eval_digitPoly,
      ← eval_digitPoly, ← eval_mul, ← hP, ← Polynomial.eval₂_id,
      eval₂_eq_sum_coeff (RingHom.id ℕ) _ P (n := viewLen c (na + nb))]
    · rfl
    · intro t ht
      rw [hP]; exact coeff_mul_eq_zero _ _ t (by omega)
  rw [nttMul, reconstruct, coefficients_eq hc hl (internalView_lt _ _) (internalView_lt _ _) hab.le, ← hP, ← List.map_take,
    List.take_range, Nat.min_eq_left hle]
  obtain ⟨k1, k2⟩ := pack_spec c.view (na + nb)
    (carryPropagate c.view.base ((List.range (viewLen c (na + nb))).map P.coeff) 0)
    (by rw [carryPropagate_length]; simp [viewLen]) (carryPropagate_lt (base_pos _) _ _)
  apply eq_limbs_of_val k1
  rw [k2, carryPropagate_val (base_pos _), hval, Nat.add_zero, Nat.mod_eq_of_lt]
  have hpow : c.view.base ^ ((List.range (viewLen c (na + nb))).map P.coeff).length = beta ^ (na + nb) := by
    rw [List.length_map, List.length_range, viewLen, pow_mul]
    congr 1
    cases c.view <;> norm_num [NttView.base, NttView.width, NttView.perLimb, beta]
  rw [hpow]
  exact product_lt ha hb

/-- R177: the squaring form computes what the multiplying form computes on equal operands. -/
theorem nttSqr_eq_nttMul (c : Config) (a : List Limb) (n : Nat) : nttSqr c a n = nttMul c a n a n := by
  rw [nttSqr, nttMul, two_mul]
  congr 1
  apply List.map_congr_left
  intro i _
  rw [residuesSqr, residues, pointwise, List.zipWith_self]

/-- R176 for `sqr_ntt`. -/
theorem nttSqr_eq {c : Config} (hc : c.Legal) {a : List Limb} {n : Nat} (ha : a.length = n)
    (hfit : nttFits c (2 * n) = true) : nttSqr c a n = basecaseSqr a n := by
  rw [nttSqr_eq_nttMul, nttMul_eq hc ha ha (by rwa [← two_mul]), basecase, basecaseSqr, two_mul]

end Sys2Proof.Machine
end

