-- ==== Sys2Proof/Laws/State.lean ====
section
/-! SUPPORT. Laws/State.lean: one lemma per field of the state per update of it, so that no proof unfolds a record
update. -/

namespace Sys2Proof.Machine

variable (c : Config) (s : State) (e : ErrorKind) (outs : List Extent) (eff : Effect) (w : Limb)
  (rest : List HostAction)

/-! ### `raise` -/

@[simp] theorem State.raise_cfg : (s.raise e outs).cfg = s.cfg := rfl
@[simp] theorem State.raise_cmd : (s.raise e outs).cmd = s.cmd := rfl
@[simp] theorem State.raise_rp : (s.raise e outs).rp = s.rp := rfl
@[simp] theorem State.raise_ap : (s.raise e outs).ap = s.ap := rfl
@[simp] theorem State.raise_bp : (s.raise e outs).bp = s.bp := rfl
@[simp] theorem State.raise_na : (s.raise e outs).na = s.na := rfl
@[simp] theorem State.raise_nb : (s.raise e outs).nb = s.nb := rfl
@[simp] theorem State.raise_sc : (s.raise e outs).sc = s.sc := rfl
@[simp] theorem State.raise_ret : (s.raise e outs).ret = Config.freeRet s.free := rfl
@[simp] theorem State.raise_status : (s.raise e outs).status = statusWord true true := rfl
@[simp] theorem State.raise_err : (s.raise e outs).err = errWord e.code := rfl
@[simp] theorem State.raise_mem : (s.raise e outs).mem = if e.clobbers then s.mem.forgetAll outs else s.mem := rfl
@[simp] theorem State.raise_tw : (s.raise e outs).tw = s.tw := rfl
@[simp] theorem State.raise_host : (s.raise e outs).host = s.host := rfl
@[simp] theorem State.raise_rdata : (s.raise e outs).rdata = s.rdata := rfl
@[simp] theorem State.raise_free : (s.raise e outs).free = s.free + 1 := rfl

/-! ### `complete` -/

@[simp] theorem State.complete_cfg : (s.complete eff).cfg = s.cfg := rfl
@[simp] theorem State.complete_cmd : (s.complete eff).cmd = s.cmd := rfl
@[simp] theorem State.complete_rp : (s.complete eff).rp = s.rp := rfl
@[simp] theorem State.complete_ap : (s.complete eff).ap = s.ap := rfl
@[simp] theorem State.complete_bp : (s.complete eff).bp = s.bp := rfl
@[simp] theorem State.complete_na : (s.complete eff).na = s.na := rfl
@[simp] theorem State.complete_nb : (s.complete eff).nb = s.nb := rfl
@[simp] theorem State.complete_sc : (s.complete eff).sc = s.sc := rfl
@[simp] theorem State.complete_ret : (s.complete eff).ret = eff.ret := rfl
@[simp] theorem State.complete_status : (s.complete eff).status = statusWord true false := rfl
@[simp] theorem State.complete_err : (s.complete eff).err = errWord 0 := rfl
@[simp] theorem State.complete_mem : (s.complete eff).mem = s.mem.store eff.stores := rfl
@[simp] theorem State.complete_tw : (s.complete eff).tw = addTables s.tw eff.tables := rfl
@[simp] theorem State.complete_host : (s.complete eff).host = s.host := rfl
@[simp] theorem State.complete_rdata : (s.complete eff).rdata = s.rdata := rfl
@[simp] theorem State.complete_free : (s.complete eff).free = s.free + 1 := rfl

/-! ### `startCommand` -/

@[simp] theorem State.startCommand_cfg : (s.startCommand w rest).cfg = s.cfg := rfl
@[simp] theorem State.startCommand_cmd : (s.startCommand w rest).cmd = w := rfl
@[simp] theorem State.startCommand_rp : (s.startCommand w rest).rp = s.rp := rfl
@[simp] theorem State.startCommand_ap : (s.startCommand w rest).ap = s.ap := rfl
@[simp] theorem State.startCommand_bp : (s.startCommand w rest).bp = s.bp := rfl
@[simp] theorem State.startCommand_na : (s.startCommand w rest).na = s.na := rfl
@[simp] theorem State.startCommand_nb : (s.startCommand w rest).nb = s.nb := rfl
@[simp] theorem State.startCommand_sc : (s.startCommand w rest).sc = s.sc := rfl
@[simp] theorem State.startCommand_ret : (s.startCommand w rest).ret = s.ret := rfl
@[simp] theorem State.startCommand_status : (s.startCommand w rest).status = s.status := rfl
@[simp] theorem State.startCommand_err : (s.startCommand w rest).err = s.err := rfl
@[simp] theorem State.startCommand_mem : (s.startCommand w rest).mem = s.mem := rfl
@[simp] theorem State.startCommand_tw : (s.startCommand w rest).tw = s.tw := rfl
@[simp] theorem State.startCommand_host : (s.startCommand w rest).host = rest := rfl
@[simp] theorem State.startCommand_rdata : (s.startCommand w rest).rdata = s.rdata := rfl
@[simp] theorem State.startCommand_free : (s.startCommand w rest).free = s.free := rfl

/-! ### `platformReset` -/

@[simp] theorem State.platformReset_cfg : (s.platformReset).cfg = s.cfg := rfl
@[simp] theorem State.platformReset_cmd : (s.platformReset).cmd = 0 := rfl
@[simp] theorem State.platformReset_rp : (s.platformReset).rp = 0 := rfl
@[simp] theorem State.platformReset_ap : (s.platformReset).ap = 0 := rfl
@[simp] theorem State.platformReset_bp : (s.platformReset).bp = 0 := rfl
@[simp] theorem State.platformReset_na : (s.platformReset).na = 0 := rfl
@[simp] theorem State.platformReset_nb : (s.platformReset).nb = 0 := rfl
@[simp] theorem State.platformReset_sc : (s.platformReset).sc = 0 := rfl
@[simp] theorem State.platformReset_ret : (s.platformReset).ret = 0 := rfl
@[simp] theorem State.platformReset_status : (s.platformReset).status = 0 := rfl
@[simp] theorem State.platformReset_err : (s.platformReset).err = 0 := rfl
@[simp] theorem State.platformReset_mem : (s.platformReset).mem = [] := rfl
@[simp] theorem State.platformReset_tw : (s.platformReset).tw = if s.cfg.twPrecompute then s.cfg.allTables else [] := rfl
@[simp] theorem State.platformReset_host : (s.platformReset).host = s.host := rfl
@[simp] theorem State.platformReset_rdata : (s.platformReset).rdata = s.rdata := rfl
@[simp] theorem State.platformReset_free : (s.platformReset).free = s.free + 1 := rfl

/-! ### `resetOf` -/

@[simp] theorem State.resetOf_cfg : (State.resetOf c).cfg = c := rfl
@[simp] theorem State.resetOf_cmd : (State.resetOf c).cmd = 0 := rfl
@[simp] theorem State.resetOf_rp : (State.resetOf c).rp = 0 := rfl
@[simp] theorem State.resetOf_ap : (State.resetOf c).ap = 0 := rfl
@[simp] theorem State.resetOf_bp : (State.resetOf c).bp = 0 := rfl
@[simp] theorem State.resetOf_na : (State.resetOf c).na = 0 := rfl
@[simp] theorem State.resetOf_nb : (State.resetOf c).nb = 0 := rfl
@[simp] theorem State.resetOf_sc : (State.resetOf c).sc = 0 := rfl
@[simp] theorem State.resetOf_ret : (State.resetOf c).ret = 0 := rfl
@[simp] theorem State.resetOf_status : (State.resetOf c).status = 0 := rfl
@[simp] theorem State.resetOf_err : (State.resetOf c).err = 0 := rfl
@[simp] theorem State.resetOf_mem : (State.resetOf c).mem = [] := rfl
@[simp] theorem State.resetOf_tw : (State.resetOf c).tw = if c.twPrecompute then c.allTables else [] := rfl
@[simp] theorem State.resetOf_host : (State.resetOf c).host = [] := rfl
@[simp] theorem State.resetOf_rdata : (State.resetOf c).rdata = 0 := rfl
@[simp] theorem State.resetOf_free : (State.resetOf c).free = 0 := rfl

variable (nbits v : Nat)

/-! ### `withFetchWord` -/

@[simp] theorem State.withFetchWord_cfg : (s.withFetchWord nbits v).cfg = s.cfg := rfl
@[simp] theorem State.withFetchWord_cmd : (s.withFetchWord nbits v).cmd = s.cmd := rfl
@[simp] theorem State.withFetchWord_rp : (s.withFetchWord nbits v).rp = s.rp := rfl
@[simp] theorem State.withFetchWord_ap : (s.withFetchWord nbits v).ap = s.ap := rfl
@[simp] theorem State.withFetchWord_bp : (s.withFetchWord nbits v).bp = s.bp := rfl
@[simp] theorem State.withFetchWord_na : (s.withFetchWord nbits v).na = s.na := rfl
@[simp] theorem State.withFetchWord_nb : (s.withFetchWord nbits v).nb = s.nb := rfl
@[simp] theorem State.withFetchWord_sc : (s.withFetchWord nbits v).sc = s.sc := rfl
@[simp] theorem State.withFetchWord_ret : (s.withFetchWord nbits v).ret = s.ret := rfl
@[simp] theorem State.withFetchWord_status : (s.withFetchWord nbits v).status = s.status := rfl
@[simp] theorem State.withFetchWord_err : (s.withFetchWord nbits v).err = s.err := rfl
@[simp] theorem State.withFetchWord_mem : (s.withFetchWord nbits v).mem = s.mem := rfl
@[simp] theorem State.withFetchWord_tw : (s.withFetchWord nbits v).tw = s.tw := rfl
@[simp] theorem State.withFetchWord_host : (s.withFetchWord nbits v).host = .wr 0 (BitVec.ofNat 64 (v % 2 ^ nbits)) :: s.host := rfl
@[simp] theorem State.withFetchWord_rdata : (s.withFetchWord nbits v).rdata = s.rdata := rfl
@[simp] theorem State.withFetchWord_free : (s.withFetchWord nbits v).free = s.free := rfl

/-! ### The operands a command samples -/

@[simp] theorem State.operands_rp : s.operands.rp = s.rp.toNat := rfl
@[simp] theorem State.operands_ap : s.operands.ap = s.ap.toNat := rfl
@[simp] theorem State.operands_bp : s.operands.bp = s.bp.toNat := rfl
@[simp] theorem State.operands_na : s.operands.na = s.na.toNat := rfl
@[simp] theorem State.operands_nb : s.operands.nb = s.nb.toNat := rfl
@[simp] theorem State.operands_sc : s.operands.sc = s.sc.toNat := rfl

@[simp] theorem State.raise_operands : (s.raise e outs).operands = s.operands := rfl
@[simp] theorem State.complete_operands : (s.complete eff).operands = s.operands := rfl
@[simp] theorem State.startCommand_operands : (s.startCommand w rest).operands = s.operands := rfl

end Sys2Proof.Machine
end

