-- ==== Sys2Proof/Laws/Commands.lean ====
section
/-! SUPPORT. Laws/Commands.lean: what a command can do, said once: it raises one of its errors or completes, and where it
stores.  Later proofs cite these and unfold no meaning but that of the command they are about. -/

namespace Sys2Proof.Machine

/-! ### Running a command -/

/-- Everything `run` can do. -/
theorem run_cases (s : State) (i : Instr) (late : Operands → Option ErrorKind) (eff : Operands → Effect) :
    (∃ e, (registerFailure i s.cfg s.operands = some e ∨
        (registerFailure i s.cfg s.operands = none ∧ late s.operands = some e)) ∧
      s.run i late eff = .next (s.raise e (outputs i s.operands))) ∨
    (registerFailure i s.cfg s.operands = none ∧ late s.operands = none ∧
      s.run i late eff = .next (s.complete (eff s.operands))) := by
  simp only [State.run, State.finish]
  cases h : registerFailure i s.cfg s.operands with
  | some e => exact .inl ⟨e, .inl rfl, rfl⟩
  | none =>
    cases h' : late s.operands with
    | some e => exact .inl ⟨e, .inr ⟨rfl, rfl⟩, by simp⟩
    | none => exact .inr ⟨rfl, rfl, by simp⟩

theorem run_raises_register {s : State} {i : Instr} {late : Operands → Option ErrorKind} {eff : Operands → Effect}
    {e : ErrorKind} (h : registerFailure i s.cfg s.operands = some e) :
    s.run i late eff = .next (s.raise e (outputs i s.operands)) := by
  simp only [State.run, h]

theorem run_raises_late {s : State} {i : Instr} {late : Operands → Option ErrorKind} {eff : Operands → Effect}
    {e : ErrorKind} (h : registerFailure i s.cfg s.operands = none) (hl : late s.operands = some e) :
    s.run i late eff = .next (s.raise e (outputs i s.operands)) := by
  simp only [State.run, State.finish, h, hl]

theorem run_completes {s : State} {i : Instr} {late : Operands → Option ErrorKind} {eff : Operands → Effect}
    (h : registerFailure i s.cfg s.operands = none) (hl : late s.operands = none) :
    s.run i late eff = .next (s.complete (eff s.operands)) := by
  simp only [State.run, State.finish, h, hl]

/-! ### The register checks, in words -/

theorem inside_iff (s : State) (p n : Nat) : Extent.inside s.cfg.memLimbs ⟨p, n⟩ = true ↔ s.InLM p n := by
  simp [Extent.inside]

theorem disjoint_iff (p m q n : Nat) : Extent.disjoint ⟨p, m⟩ ⟨q, n⟩ = true ↔ Apart p m q n := by
  simp [Extent.disjoint, or_assoc]

theorem inPlace_iff (p q n : Nat) : Extent.inPlace ⟨p, n⟩ ⟨q, n⟩ = true ↔ InPlaceOrApart p q n := by
  simp [Extent.inPlace, Extent.identical, disjoint_iff, InPlaceOrApart, Apart]

/-- The register checks pass exactly when no check 2 to 4 of R302 fails. -/
theorem registerFailure_none {i : Instr} {c : Config} {o : Operands} :
    registerFailure i c o = none ↔
      badRegisters i o = false ∧ footprintInside i c o = true ∧ overlapOk i o = true := by
  simp only [registerFailure]
  cases badRegisters i o <;> cases footprintInside i c o <;> cases overlapOk i o <;> simp

/-- Which errors the register checks raise, and when (R302 checks 2 to 4). -/
theorem registerFailure_some {i : Instr} {c : Config} {o : Operands} {e : ErrorKind}
    (h : registerFailure i c o = some e) : e = .badOperand ∨ e = .addressRange ∨ e = .aliasViolation := by
  simp only [registerFailure] at h
  split at h
  · simp_all
  · split at h
    · simp_all
    · split at h <;> simp_all

/-! ### Ends of a command -/

theorem frame_raise (s : State) (e : ErrorKind) (outs : List Extent) : Frame s (s.raise e outs) :=
  ⟨rfl, rfl, rfl, rfl, rfl, rfl, rfl, rfl, rfl, rfl⟩

theorem frame_complete (s : State) (eff : Effect) : Frame s (s.complete eff) :=
  ⟨rfl, rfl, rfl, rfl, rfl, rfl, rfl, rfl, rfl, rfl⟩

/-- The ranges of `outs` as pairs. -/
def pairsOf (outs : List Extent) : List (Nat × Nat) := outs.map fun e => (e.ptr, e.len)

/-- Raising an error ends as R300 and R301 say. -/
theorem errored_raise (s : State) (e : ErrorKind) (outs : List Extent) :
    Errored s (s.raise e outs) e.code (if e.clobbers then pairsOf outs else []) where
  err := by cases e <;> rfl
  status := rfl
  tables := rfl
  frame := frame_raise s e outs
  memory := by
    intro a h
    cases hc : e.clobbers with
    | false => simp [hc]
    | true =>
      simp only [State.raise_mem, hc, if_true] at h ⊢
      apply Memory.read_forgetAll
      intro x hx
      have := h (x.ptr, x.len) (List.mem_map.mpr ⟨x, hx, rfl⟩)
      simp only [Extent.has, Bool.and_eq_false_iff, decide_eq_false_iff_not]
      omega

/-- Completing ends as R76 step 5 says, if no later store overwrites an earlier one. -/
theorem completed_complete (s : State) (eff : Effect)
    (hs : eff.stores.Pairwise fun x y => ∀ b, x.1 ≤ b ∧ b < x.1 + x.2.length → ¬(y.1 ≤ b ∧ b < y.1 + y.2.length)) :
    Completed s (s.complete eff) eff.stores eff.ret.toNat where
  ret := rfl
  status := rfl
  err := rfl
  frame := frame_complete s eff
  holds := fun _ hw _ hi => Memory.read_store_of_mem hw hi hs
  memory := by
    intro a h
    apply Memory.read_store
    intro w hw
    have := h (w.1, w.2.length) (List.mem_map.mpr ⟨w, hw, rfl⟩)
    omega

/-! ### What every command can do -/

/-- A store lies in one of the ranges. -/
def storeInside (w : Nat × List Limb) (outs : List Extent) : Prop :=
  ∃ e ∈ outs, e.ptr ≤ w.1 ∧ w.1 + w.2.length ≤ e.ptr + e.len

theorem basecase_length (a b : List Limb) (na nb : Nat) : (basecase a na b nb).length = na + nb := by
  simp [basecase]

theorem basecaseSqr_length (a : List Limb) (n : Nat) : (basecaseSqr a n).length = 2 * n := by simp [basecaseSqr]

theorem kara_length (K fuel : Nat) (a b : List Limb) (n : Nat) : (kara K fuel a b n).length = 2 * n := by
  cases fuel with
  | zero => simp [kara]
  | succ f => rw [kara]; split <;> simp

theorem karaSqr_length (K fuel : Nat) (a : List Limb) (n : Nat) : (karaSqr K fuel a n).length = 2 * n := by
  cases fuel with
  | zero => simp [karaSqr, basecaseSqr]
  | succ f => rw [karaSqr]; split <;> simp [basecaseSqr]

theorem pack_length_le (v : NttView) (n : Nat) (l : List Nat) (hl : l.length ≤ v.perLimb * n) :
    (pack v l).length ≤ n := by
  induction n generalizing l with
  | zero =>
    have : l = [] := List.eq_nil_of_length_eq_zero (by simpa using hl)
    subst this; simp [pack]
  | succ n ih =>
    match l, hl with
    | [], _ => simp [pack]
    | [x], _ => simp [pack]
    | x :: y :: xs, hl =>
      cases v with
      | v32 =>
        simp only [pack, List.length_cons, NttView.perLimb] at hl ⊢
        exact Nat.succ_le_succ (ih xs (by simp only [NttView.perLimb]; omega))
      | v64 =>
        simp only [pack, List.length_cons, NttView.perLimb] at hl ⊢
        exact Nat.succ_le_succ (ih (y :: xs) (by simp only [NttView.perLimb, List.length_cons]; omega))

theorem reconstruct_length_le (c : Config) (n N : Nat) (res : List (List Nat)) :
    (reconstruct c (viewLen c n) N res).length ≤ n := by
  apply pack_length_le
  rw [carryPropagate_length, List.length_take]
  exact Nat.min_le_left _ _

theorem nttMul_length_le (c : Config) (a b : List Limb) (na nb : Nat) : (nttMul c a na b nb).length ≤ na + nb :=
  reconstruct_length_le c _ _ _

theorem nttSqr_length_le (c : Config) (a : List Limb) (n : Nat) : (nttSqr c a n).length ≤ 2 * n :=
  reconstruct_length_le c _ _ _

theorem dispatch_length_le (c : Config) (fuel : Nat) (a b : List Limb) (na nb : Nat) (allow : Bool) :
    (dispatch c fuel a na b nb allow).length ≤ na + nb := by
  cases fuel with
  | zero => simp [dispatch, basecase_length]
  | succ f =>
    rw [dispatch]
    split
    · rw [basecase_length]
    · have hrow : ∀ P : List Limb, (if na = nb then kara c.kThreshold na a b na else limbs (val P) (na + nb)).length
          ≤ na + nb := by
        intro P; split
        · rw [kara_length]; omega
        · simp
      split
      · split
        · exact nttMul_length_le c a b na nb
        · split
          · rw [kara_length]; omega
          · simp
      · split
        · rw [kara_length]; omega
        · simp

theorem dispatchSqr_length_le (c : Config) (a : List Limb) (n : Nat) : (dispatchSqr c a n).length ≤ 2 * n := by
  rw [dispatchSqr]
  split
  · rw [basecaseSqr_length]
  · split
    · exact nttSqr_length_le c a n
    · rw [karaSqr_length]

/-- What is said of every command's meaning at once: it is a `run`; the late checks raise nothing but DivisionByZero,
AllocationFailure, SizeLimit or BadOperand; its stores lie in its write ranges and do not overlap one another; it makes no
tables present, or those of the transform length of a product that fits. -/
theorem exec_run (i : Instr) (s : State) :
    ∃ late eff, exec i s = s.run i late eff ∧
      (∀ o e, late o = some e → e = .divisionByZero ∨ e = .allocationFailure ∨ e = .sizeLimit ∨
        (e = .badOperand ∧ i = .divQr)) ∧
      (registerFailure i s.cfg s.operands = none → late s.operands = none →
        (∀ w ∈ (eff s.operands).stores, storeInside w (outputs i s.operands)) ∧
        ((eff s.operands).stores.Pairwise fun x y =>
          ∀ b, x.1 ≤ b ∧ b < x.1 + x.2.length → ¬(y.1 ≤ b ∧ b < y.1 + y.2.length)) ∧
        ((eff s.operands).tables = [] ∨
          ∃ n, nttFits s.cfg n = true ∧ (eff s.operands).tables = nttTables s.cfg n)) := by
  have alloc : ∀ (j : Instr) (b : Bool) e, s.allocFailure j b = some e → e = .allocationFailure := by
    intro j b e h
    simp only [State.allocFailure] at h
    split at h <;> simp_all
  have none_late : ∀ (o : Operands) (e : ErrorKind), noLateCheck o = some e → e = .divisionByZero ∨
      e = .allocationFailure ∨ e = .sizeLimit ∨ (e = .badOperand ∧ i = .divQr) := by
    intro o e h; simp [noLateCheck] at h
  have one : ∀ {p n : Nat} {l : List Limb}, l.length ≤ n → ∀ w ∈ [(p, l)], storeInside w [⟨p, n⟩] := by
    intro p n l hl w hw
    rw [List.mem_singleton] at hw
    subst hw
    exact ⟨⟨p, n⟩, List.mem_singleton.mpr rfl, le_rfl, by simpa using hl⟩
  have single : ∀ w : Nat × List Limb, [w].Pairwise fun x y : Nat × List Limb =>
      ∀ b, x.1 ≤ b ∧ b < x.1 + x.2.length → ¬(y.1 ≤ b ∧ b < y.1 + y.2.length) := fun w => List.pairwise_singleton _ w
  cases i
  case addN =>
    rw [exec, execAddN]
    refine ⟨_, _, rfl, none_late, ?_⟩
    exact fun _ _ => ⟨one (by simp), single _, .inl rfl⟩
  case subN =>
    rw [exec, execSubN]
    refine ⟨_, _, rfl, none_late, ?_⟩
    exact fun _ _ => ⟨one (by simp [limbsOfInt]), single _, .inl rfl⟩
  case add1 =>
    rw [exec, execAdd1]
    refine ⟨_, _, rfl, none_late, ?_⟩
    exact fun _ _ => ⟨one (by simp), single _, .inl rfl⟩
  case sub1 =>
    rw [exec, execSub1]
    refine ⟨_, _, rfl, none_late, ?_⟩
    exact fun _ _ => ⟨one (by simp [limbsOfInt]), single _, .inl rfl⟩
  case mul1 =>
    rw [exec, execMul1]
    refine ⟨_, _, rfl, none_late, ?_⟩
    exact fun _ _ => ⟨one (by simp), single _, .inl rfl⟩
  case addmul1 =>
    rw [exec, execAddmul1]
    refine ⟨_, _, rfl, none_late, ?_⟩
    exact fun _ _ => ⟨one (by simp), single _, .inl rfl⟩
  case submul1 =>
    rw [exec, execSubmul1]
    refine ⟨_, _, rfl, none_late, ?_⟩
    exact fun _ _ => ⟨one (by simp [limbsOfInt]), single _, .inl rfl⟩
  case lshift =>
    rw [exec, execLshift]
    refine ⟨_, _, rfl, none_late, ?_⟩
    exact fun _ _ => ⟨one (by simp), single _, .inl rfl⟩
  case rshift =>
    rw [exec, execRshift]
    refine ⟨_, _, rfl, none_late, ?_⟩
    exact fun _ _ => ⟨one (by simp), single _, .inl rfl⟩
  case cmp =>
    rw [exec, execCmp]
    refine ⟨_, _, rfl, none_late, ?_⟩
    exact fun _ _ => ⟨by simp, List.Pairwise.nil, .inl rfl⟩
  case divrem1 =>
    rw [exec, execDivrem1]
    refine ⟨_, _, rfl, fun o e h => ?_, fun _ _ => ⟨one (by simp), single _, .inl rfl⟩⟩
    split at h <;> simp_all
  case mulBasecase =>
    rw [exec, execMulBasecase]
    refine ⟨_, _, rfl, none_late, ?_⟩
    exact fun _ _ => ⟨one (by simp [basecase_length]), single _, .inl rfl⟩
  case sqrBasecase =>
    rw [exec, execSqrBasecase]
    refine ⟨_, _, rfl, none_late, ?_⟩
    exact fun _ _ => ⟨one (by simp [basecaseSqr_length]), single _, .inl rfl⟩
  case mulKaratsuba =>
    rw [exec, execMulKaratsuba]
    refine ⟨_, _, rfl, fun o e h => .inr (.inl (alloc _ _ e h)), ?_⟩
    exact fun _ _ => ⟨one (by simp [kara_length]), single _, .inl rfl⟩
  case sqrKaratsuba =>
    rw [exec, execSqrKaratsuba]
    refine ⟨_, _, rfl, fun o e h => .inr (.inl (alloc _ _ e h)), ?_⟩
    exact fun _ _ => ⟨one (by simp [karaSqr_length]), single _, .inl rfl⟩
  case mulNtt =>
    rw [exec, execMulNtt]
    refine ⟨_, _, rfl, fun o e h => ?_, fun _ h => ⟨one (nttMul_length_le _ _ _ _ _), single _, .inr ⟨_, ?_, rfl⟩⟩⟩
    · simp only [State.nttFailure] at h
      split at h
      · simp_all
      · exact .inr (.inl (alloc _ _ e h))
    · simp only [State.nttFailure] at h
      split at h <;> simp_all
  case sqrNtt =>
    rw [exec, execSqrNtt]
    refine ⟨_, _, rfl, fun o e h => ?_, fun _ h => ⟨one (nttSqr_length_le _ _ _), single _, .inr ⟨_, ?_, rfl⟩⟩⟩
    · simp only [State.nttFailure] at h
      split at h
      · simp_all
      · exact .inr (.inl (alloc _ _ e h))
    · simp only [State.nttFailure] at h
      split at h <;> simp_all
  case mul =>
    rw [exec, execMul]
    refine ⟨_, _, rfl, fun o e h => .inr (.inl (alloc _ _ e h)),
      fun _ _ => ⟨one (dispatch_length_le _ _ _ _ _ _ _), single _, ?_⟩⟩
    dsimp only
    split
    · next h => exact .inr ⟨_, by simp only [takesNtt, Bool.and_eq_true] at h; exact h.2, rfl⟩
    · exact .inl rfl
  case sqr =>
    rw [exec, execSqr]
    refine ⟨_, _, rfl, fun o e h => .inr (.inl (alloc _ _ e h)),
      fun _ _ => ⟨one (dispatchSqr_length_le _ _ _), single _, ?_⟩⟩
    dsimp only
    split
    · next h => exact .inr ⟨_, by simp only [takesNtt, Bool.and_eq_true, ← two_mul] at h; exact h.2, rfl⟩
    · exact .inl rfl
  case divQr =>
    rw [exec, execDivQr]
    refine ⟨_, _, rfl, fun o e h => ?_, fun hr hl => ?_⟩
    · simp only [State.divFailure] at h
      split at h
      · simp_all
      · split at h
        · simp_all
        · exact .inr (.inl (alloc _ _ e h))
    · dsimp only
      generalize s.operands = o at hr hl ⊢
      obtain ⟨hbad, -, hov⟩ := registerFailure_none.mp hr
      have hnb : o.nb ≠ 0 := by
        intro h0
        simp [State.divFailure, State.valB, h0, State.memRead] at hl
      have hle : o.nb ≤ o.na := by
        simp only [badRegisters, Bool.and_eq_false_iff, decide_eq_false_iff_not] at hbad
        omega
      simp only [overlapOk, Operands.quotient, Operands.a, Operands.b, hnb, if_false, Bool.and_eq_true,
        disjoint_iff, Apart] at hov
      refine ⟨?_, ?_, .inl rfl⟩
      · intro w hw
        simp only [List.mem_cons, List.not_mem_nil, or_false] at hw
        rcases hw with rfl | rfl | rfl
        · exact ⟨o.quotient, List.mem_cons_self, le_rfl, by simp [Operands.quotient, hnb]⟩
        · exact ⟨o.a, by simp [outputs], le_rfl, by simp [Operands.a]; exact hle⟩
        · exact ⟨o.a, by simp [outputs], by simp [Operands.a], by simp [Operands.a]; omega⟩
      · simp only [List.pairwise_cons, List.mem_cons, List.not_mem_nil, or_false, List.Pairwise.nil, and_true,
          forall_eq_or_imp, forall_eq, limbs_length, List.length_replicate, false_imp_iff, implies_true]
        refine ⟨⟨?_, ?_⟩, ?_⟩ <;> intros <;> omega

end Sys2Proof.Machine
end

