-- ==== Sys2Proof/Laws/Division.lean ====
section
/-! SUPPORT. Laws/Division.lean: the divider's algorithm (R233 to R241) computes the quotient and the remainder of the
value equation (R230, R243). -/

namespace Sys2Proof.Machine

/-! ### The estimate -/

/-- The test of step 2b keeps the estimate at or above the true three-limb quotient bound `q` and, after at most two
decrements, brings it to where `qh·(v1·β + v2) <= num·β + u3` (R237). -/
theorem refine_spec {v1 v2 u3 num q : Nat} (hv2 : v2 < beta)
    (hq : q * (v1 * beta + v2) ≤ num * beta + u3) {fuel qh rh : Nat} (hrh : rh + qh * v1 = num) (hqh : q ≤ qh)
    (hlt : qh < beta) (hfuel : beta ≤ rh + fuel * v1) :
    q ≤ refine v1 v2 u3 fuel qh rh ∧ refine v1 v2 u3 fuel qh rh ≤ qh ∧
      refine v1 v2 u3 fuel qh rh * (v1 * beta + v2) ≤ num * beta + u3 := by
  -- an estimate with a remainder of at least `β` is small enough
  have stop : beta ≤ rh → qh * (v1 * beta + v2) ≤ num * beta + u3 := by
    intro h
    have h1 : qh * v2 ≤ beta * beta := Nat.mul_le_mul hlt.le hv2.le
    have h2 : beta * beta ≤ rh * beta := Nat.mul_le_mul_right _ h
    have h3 : num * beta = rh * beta + qh * v1 * beta := by rw [← hrh]; ring
    have h4 : qh * (v1 * beta + v2) = qh * v1 * beta + qh * v2 := by ring
    omega
  induction fuel generalizing qh rh with
  | zero =>
    refine ⟨hqh, le_rfl, ?_⟩
    exact stop (by omega)
  | succ fuel ih =>
    rw [refine]
    split
    · next h =>
      obtain ⟨hr, ht⟩ := h
      have hgt : num * beta + u3 < qh * (v1 * beta + v2) := by
        have h3 : num * beta = rh * beta + qh * v1 * beta := by rw [← hrh]; ring
        have h4 : qh * (v1 * beta + v2) = qh * v1 * beta + qh * v2 := by ring
        omega
      have hqlt : q < qh := by
        by_contra hc
        have : qh * (v1 * beta + v2) ≤ q * (v1 * beta + v2) := Nat.mul_le_mul_right _ (by omega)
        omega
      have hrh' : rh + v1 + (qh - 1) * v1 = num := by
        have : qh * v1 = (qh - 1) * v1 + v1 := by
          conv_lhs => rw [show qh = (qh - 1) + 1 by omega]
          ring
        omega
      have hf : beta ≤ rh + v1 + fuel * v1 := by
        have : (fuel + 1) * v1 = fuel * v1 + v1 := by ring
        omega
      obtain ⟨i1, i2, i3⟩ := ih hrh' (by omega) (by omega) hf (by
        intro h
        have h1 : (qh - 1) * v2 ≤ beta * beta := Nat.mul_le_mul (by omega) hv2.le
        have h2 : beta * beta ≤ (rh + v1) * beta := Nat.mul_le_mul_right _ h
        have h3 : num * beta = (rh + v1) * beta + (qh - 1) * v1 * beta := by rw [← hrh']; ring
        have h4 : (qh - 1) * (v1 * beta + v2) = (qh - 1) * v1 * beta + (qh - 1) * v2 := by ring
        omega)
      exact ⟨i1, by omega, i3⟩
    · next h =>
      refine ⟨hqh, le_rfl, ?_⟩
      rcases Nat.lt_or_ge rh beta with hr | hr
      · have ht : qh * v2 ≤ rh * beta + u3 := by
          by_contra hc; exact h ⟨hr, by omega⟩
        have h3 : num * beta = rh * beta + qh * v1 * beta := by rw [← hrh]; ring
        have h4 : qh * (v1 * beta + v2) = qh * v1 * beta + qh * v2 := by ring
        omega
      · exact stop hr

/-- The two-limb estimate, capped (R236): at or above any `q <= β - 1` with `q·v1 <= num`, and its remainder is exact. -/
theorem estimate_first {v1 num q : Nat} (hv1 : 0 < v1) (hq : q * v1 ≤ num) (hqb : q < beta) :
    q ≤ min (num / v1) (beta - 1) ∧ min (num / v1) (beta - 1) < beta ∧
      num - min (num / v1) (beta - 1) * v1 + min (num / v1) (beta - 1) * v1 = num := by
  have h1 : q ≤ num / v1 := (Nat.le_div_iff_mul_le hv1).mpr hq
  refine ⟨by omega, by have := beta_pos; omega, ?_⟩
  have h2 : min (num / v1) (beta - 1) * v1 ≤ num / v1 * v1 := Nat.mul_le_mul_right _ (by omega)
  have h3 := Nat.div_mul_le_self num v1
  omega

/-- The estimate is the true quotient limb or one more (R236, R237), for a divisor of at least two limbs.  `W` is the
window, `V` the normalized divisor, `B` the weight of their common low part. -/
theorem estimate_spec {dn u1 u2 u3 v1 v2 W V B wl vl : Nat} (hdn : 2 ≤ dn) (hv1 : beta ≤ 2 * v1)
    (hv2 : v2 < beta) (hu3 : u3 < beta) (hW : W = (u1 * beta + u2) * beta * B + u3 * B + wl) (hwl : wl < B)
    (hV : V = (v1 * beta + v2) * B + vl) (hvl : vl < B) (hlt : W < V * beta) :
    W / V ≤ estimate dn u1 u2 u3 v1 v2 ∧ estimate dn u1 u2 u3 v1 v2 ≤ W / V + 1 ∧
      estimate dn u1 u2 u3 v1 v2 < beta := by
  obtain ⟨num, hnum⟩ : ∃ num, num = u1 * beta + u2 := ⟨_, rfl⟩
  obtain ⟨D, hD⟩ : ∃ D, D = v1 * beta + v2 := ⟨_, rfl⟩
  have hB : 0 < B := by omega
  have hbeta := beta_pos
  have hv1pos : 0 < v1 := by omega
  have hDpos : 0 < D := by
    have : 0 < v1 * beta := Nat.mul_pos hv1pos hbeta
    omega
  have hVpos : 0 < V := by
    have : 0 < D * B := Nat.mul_pos hDpos hB
    rw [hV, ← hD]; omega
  -- the true quotient limb
  obtain ⟨q, hqdef⟩ : ∃ q, q = W / V := ⟨_, rfl⟩
  have hqb : q < beta := by rw [hqdef]; exact Nat.div_lt_of_lt_mul hlt
  have hqW : q * V ≤ W := by rw [hqdef]; exact Nat.div_mul_le_self W V
  have hWlt : W < (q + 1) * V := by
    have := Nat.lt_mul_div_succ W hVpos
    rw [← hqdef] at this
    rw [Nat.mul_comm]; exact this
  have hW' : W < (num * beta + u3 + 1) * B := by
    have : (num * beta + u3 + 1) * B = (u1 * beta + u2) * beta * B + u3 * B + B := by rw [hnum]; ring
    omega
  have hq3 : q * D ≤ num * beta + u3 := by
    have h1 : q * (D * B) ≤ q * V := Nat.mul_le_mul_left _ (by rw [hV, ← hD]; omega)
    have h2 : q * D * B < (num * beta + u3 + 1) * B := by
      have : q * D * B = q * (D * B) := by ring
      omega
    have := Nat.lt_of_mul_lt_mul_right h2
    omega
  have hq1 : q * v1 ≤ num := by
    have h1 : q * v1 * beta ≤ q * D := by
      rw [hD, Nat.mul_add, Nat.mul_assoc]; omega
    have h2 : q * v1 * beta < (num + 1) * beta := by
      have : (num + 1) * beta = num * beta + beta := by ring
      omega
    have := Nat.lt_of_mul_lt_mul_right h2
    omega
  obtain ⟨e1, e2, e3⟩ := estimate_first hv1pos hq1 hqb
  obtain ⟨qh, hqh⟩ : ∃ qh, qh = estimate dn u1 u2 u3 v1 v2 := ⟨_, rfl⟩
  have hr := refine_spec (fuel := 2) hv2 (by rw [← hD]; exact hq3) e3 e1 e2 (by omega)
  have heq : qh = refine v1 v2 u3 2 (min (num / v1) (beta - 1)) (num - min (num / v1) (beta - 1) * v1) := by
    rw [hqh, estimate, ← hnum]
    simp only [hdn, if_true]
  rw [← heq, ← hD] at hr
  rw [← hqdef, ← hqh]
  refine ⟨hr.1, ?_, by omega⟩
  by_contra hc
  have hge : q + 1 ≤ qh - 1 := by omega
  have h1 : qh * D * B ≤ W := by
    have h2 : qh * D * B ≤ (num * beta + u3) * B := Nat.mul_le_mul_right _ hr.2.2
    have h3 : (num * beta + u3) * B = (u1 * beta + u2) * beta * B + u3 * B := by rw [hnum]; ring
    omega
  have h2 : (q + 1) * V ≤ (qh - 1) * V := Nat.mul_le_mul_right _ hge
  have h3 : (qh - 1) * V ≤ (qh - 1) * ((D + 1) * B) := by
    apply Nat.mul_le_mul_left
    have : (D + 1) * B = D * B + B := by ring
    rw [hV, ← hD]; omega
  have h4 : (qh - 1) * (D + 1) ≤ qh * D := by
    have hDb : beta ≤ D := by
      have : 1 * beta ≤ v1 * beta := Nat.mul_le_mul_right _ hv1pos
      omega
    have h5 : (qh - 1) * (D + 1) = (qh - 1) * D + (qh - 1) := by ring
    have h6 : qh * D = (qh - 1) * D + D := by
      conv_lhs => rw [show qh = (qh - 1) + 1 by omega]
      ring
    omega
  have h5 : (qh - 1) * ((D + 1) * B) ≤ qh * D * B := by
    have := Nat.mul_le_mul_right B h4
    rw [Nat.mul_assoc] at this
    exact this
  omega

/-- With a one-limb divisor the estimate is exact (R237). -/
theorem estimate_one {u1 u2 u3 v1 v2 : Nat} (hlt : u1 * beta + u2 < v1 * beta) :
    estimate 1 u1 u2 u3 v1 v2 = (u1 * beta + u2) / v1 := by
  have : (u1 * beta + u2) / v1 < beta := Nat.div_lt_of_lt_mul hlt
  simp only [estimate, show ¬(2 ≤ 1) by omega, if_false]
  omega

/-! ### One pass -/

theorem getD_toNat_lt (l : List Limb) (i : Nat) : (l.getD i 0).toNat < beta := limb_lt _

theorem val_drop_getD {l : List Limb} {n : Nat} (h : n < l.length) :
    val (l.drop n) = (l.getD n 0).toNat + beta * val (l.drop (n + 1)) := by
  rw [List.drop_eq_getElem_cons h, val_cons, List.getD_eq_getElem _ _ h]

/-- The value of a list split below its top limb. -/
theorem val_top {l : List Limb} {n : Nat} (h : l.length = n + 1) :
    val l = val (l.take n) + beta ^ n * (l.getD n 0).toNat := by
  rw [← val_take_add_drop l (h := n) (by omega), val_drop_getD (by omega), List.drop_eq_nil_of_le (by omega)]
  simp

/-- The value of a list split below its two top limbs. -/
theorem val_top_two {l : List Limb} {n : Nat} (h : l.length = n + 2) :
    val l = val (l.take n) + beta ^ n * ((l.getD n 0).toNat + beta * (l.getD (n + 1) 0).toNat) := by
  rw [← val_take_add_drop l (h := n) (by omega), val_drop_getD (by omega), val_drop_getD (by omega),
    List.drop_eq_nil_of_le (by omega)]
  simp

/-- The estimate of a pass is the true quotient limb or one more (R236, R237). -/
theorem pass_estimate {vn low : List Limb} {top : Limb} {dn : Nat} (hv : vn.length = dn) (hl : low.length = dn)
    (hdn : 1 ≤ dn) (hnorm : beta ≤ 2 * (vn.getD (dn - 1) 0).toNat)
    (hlt : val low + beta ^ dn * top.toNat < val vn * beta) :
    let qh := estimate dn top.toNat (low.getD (dn - 1) 0).toNat (low.getD (dn - 2) 0).toNat
      (vn.getD (dn - 1) 0).toNat (vn.getD (dn - 2) 0).toNat
    let q := (val low + beta ^ dn * top.toNat) / val vn
    q ≤ qh ∧ qh ≤ q + 1 ∧ qh < beta := by
  dsimp only
  rcases Nat.lt_or_ge dn 2 with h | h
  · have hd : dn = 1 := by omega
    subst hd
    have e1 := val_top (n := 0) hv
    have e2 := val_top (n := 0) hl
    simp only [List.take_zero, val_nil, pow_zero, Nat.one_mul, Nat.zero_add] at e1 e2
    have hn : val low + beta ^ 1 * top.toNat = top.toNat * beta + (low.getD 0 0).toNat := by rw [e2]; ring
    rw [hn, e1] at hlt ⊢
    have hq : (top.toNat * beta + (low.getD 0 0).toNat) / (vn.getD 0 0).toNat < beta := Nat.div_lt_of_lt_mul hlt
    rw [Nat.sub_self, estimate_one hlt]
    exact ⟨le_rfl, Nat.le_succ _, hq⟩
  · obtain ⟨k, rfl⟩ : ∃ k, dn = k + 2 := ⟨dn - 2, by omega⟩
    have e1 := val_top_two hv
    have e2 := val_top_two hl
    simp only [Nat.add_sub_cancel, show k + 2 - 1 = k + 1 by omega] at hnorm ⊢
    have t1 := val_lt (vn.take k)
    have t2 := val_lt (low.take k)
    rw [List.length_take, Nat.min_eq_left (by omega)] at t1 t2
    have hWe : val low + beta ^ (k + 2) * top.toNat
        = (top.toNat * beta + (low.getD (k + 1) 0).toNat) * beta * beta ^ k + (low.getD k 0).toNat * beta ^ k
          + val (low.take k) := by rw [e2]; ring
    have hVe : val vn = ((vn.getD (k + 1) 0).toNat * beta + (vn.getD k 0).toNat) * beta ^ k + val (vn.take k) := by
      rw [e1]; ring
    exact estimate_spec h hnorm (getD_toNat_lt _ _) (getD_toNat_lt _ _) hWe t2 hVe t1 hlt

/-- One pass of the loop (R235): the quotient limb of the window and its remainder; the window's top limb becomes 0. -/
theorem divPass_spec {vn low : List Limb} {top : Limb} {dn : Nat} (hv : vn.length = dn) (hl : low.length = dn)
    (hdn : 1 ≤ dn) (hnorm : beta ≤ 2 * (vn.getD (dn - 1) 0).toNat)
    (hlt : val low + beta ^ dn * top.toNat < val vn * beta) :
    (divPass vn low top).1.toNat = (val low + beta ^ dn * top.toNat) / val vn ∧
      (divPass vn low top).2.1.length = dn ∧
      val (divPass vn low top).2.1 = (val low + beta ^ dn * top.toNat) % val vn ∧
      (divPass vn low top).2.2 = 0 := by
  obtain ⟨e1, e2, e3⟩ := pass_estimate hv hl hdn hnorm hlt
  simp only [divPass, hv]
  generalize estimate dn top.toNat (low.getD (dn - 1) 0).toNat (low.getD (dn - 2) 0).toNat
      (vn.getD (dn - 1) 0).toNat (vn.getD (dn - 2) 0).toNat = qh at e1 e2 e3
  have hVpos : 0 < val vn := by
    rcases Nat.eq_zero_or_pos (val vn) with h | h
    · rw [h] at hlt; omega
    · exact h
  have hVlt := hv ▸ val_lt vn
  have hqhn : (BitVec.ofNat 64 qh).toNat = qh := by rw [toNat_ofNat_limb, Nat.mod_eq_of_lt e3]
  have tot := submulChain_total (BitVec.ofNat 64 qh) (z := low) (a := vn) (by omega) 0
  have slen := submulChain_length (BitVec.ofNat 64 qh) (z := low) (a := vn) (by omega) 0
  rw [hqhn, hv, Nat.cast_zero, sub_zero] at tot
  rw [hv] at slen
  generalize submulChain (BitVec.ofNat 64 qh) low vn 0 = sub at tot slen ⊢
  have slt : val sub.1 < beta ^ dn := slen ▸ val_lt sub.1
  have hdm := Nat.div_add_mod (val low + beta ^ dn * top.toNat) (val vn)
  have hml := Nat.mod_lt (val low + beta ^ dn * top.toNat) hVpos
  generalize (val low + beta ^ dn * top.toNat) / val vn = q at *
  generalize (val low + beta ^ dn * top.toNat) % val vn = r at *
  obtain ⟨P, hP⟩ : ∃ P : Nat, beta ^ dn = P := ⟨_, rfl⟩
  rw [hP] at tot hVlt slt hdm
  zify at hdm hml hVlt slt
  rcases Nat.lt_or_ge q qh with hc | hc
  · -- the estimate is one too large: borrow, add back (R239)
    have hqh : qh = q + 1 := by omega
    subst hqh
    have h1 : (val sub.1 : Int) = r - val vn + P * ((sub.2 : Int) - top.toNat) := by
      push_cast at tot
      linear_combination tot - hdm
    have hw : (sub.2 : Int) - top.toNat = 1 := by
      rcases lt_trichotomy ((sub.2 : Int) - top.toNat) 1 with g | g | g
      · have : (P : Int) * ((sub.2 : Int) - top.toNat) ≤ 0 :=
          mul_nonpos_of_nonneg_of_nonpos (by positivity) (by omega)
        omega
      · exact g
      · have : (P : Int) * 2 ≤ P * ((sub.2 : Int) - top.toNat) := mul_le_mul_of_nonneg_left (by omega) (by positivity)
        omega
    rw [hw, mul_one] at h1
    rw [if_pos (by omega)]
    have atot := addChain_total (a := sub.1) (b := vn) (by omega) 0
    have alen := addChain_length (a := sub.1) (b := vn) (by omega) 0
    rw [slen, hP] at atot
    rw [slen] at alen
    have alt : val (addChain sub.1 vn 0).1 < P := by rw [← hP]; exact alen ▸ val_lt _
    have hsum : val sub.1 + val vn = r + P := by zify; linear_combination h1
    have hcarry : (addChain sub.1 vn 0).2 = 1 := by
      rcases lt_trichotomy (addChain sub.1 vn 0).2 1 with g | g | g
      · have : (addChain sub.1 vn 0).2 = 0 := by omega
        rw [this] at atot; omega
      · exact g
      · have : P * 2 ≤ P * (addChain sub.1 vn 0).2 := Nat.mul_le_mul_left _ g
        omega
    rw [hcarry] at atot
    refine ⟨?_, alen, show val (addChain sub.1 vn 0).1 = r by omega, ?_⟩
    · rw [toNat_ofNat_limb, Nat.add_sub_cancel, Nat.mod_eq_of_lt (by omega)]
    · dsimp only
      rw [hcarry, show (top.toNat : Int) - sub.2 = -1 by omega]
      rfl
  · -- the estimate is the quotient limb
    have hqh : qh = q := by omega
    subst hqh
    have h1 : (val sub.1 : Int) = r + P * ((sub.2 : Int) - top.toNat) := by linear_combination tot - hdm
    have hw : (sub.2 : Int) - top.toNat = 0 := by
      rcases lt_trichotomy ((sub.2 : Int) - top.toNat) 0 with g | g | g
      · have : (P : Int) * ((sub.2 : Int) - top.toNat) ≤ P * (-1) :=
          mul_le_mul_of_nonneg_left (by omega) (by positivity)
        omega
      · exact g
      · have : (P : Int) * 1 ≤ P * ((sub.2 : Int) - top.toNat) := mul_le_mul_of_nonneg_left (by omega) (by positivity)
        omega
    rw [hw, mul_zero, add_zero] at h1
    rw [if_neg (by omega)]
    refine ⟨hqhn, slen, show val sub.1 = r by omega, ?_⟩
    dsimp only
    rw [show (top.toNat : Int) - sub.2 = 0 by omega]
    rfl

/-! ### The loop -/

theorem divLoop_spec {vn : List Limb} {dn : Nat} (hv : vn.length = dn) (hdn : 1 ≤ dn)
    (hnorm : beta ≤ 2 * (vn.getD (dn - 1) 0).toNat) (j : Nat) (un quot : List Limb) (hlen : j + dn ≤ un.length)
    (hlt : val un < val vn * beta ^ j) :
    ∃ qs rest, divLoop vn j un quot = (qs ++ quot, rest) ∧ qs.length = j ∧ rest.length = un.length ∧
      val un = val qs * val vn + val rest ∧ val rest < val vn := by
  induction j generalizing un quot with
  | zero => exact ⟨[], un, rfl, rfl, rfl, by simp, by simpa using hlt⟩
  | succ j ih =>
    have hpj : 0 < beta ^ j := Nat.pow_pos beta_pos
    have hVlt := hv ▸ val_lt vn
    have hlow : ((un.drop j).take dn).length = dn := by simp; omega
    -- the value of `un` in three parts
    have s1 := val_take_add_drop un (h := j) (by omega)
    have s2 := val_take_add_drop (un.drop j) (h := dn) (by simp; omega)
    rw [List.drop_drop] at s2
    have s3 := val_drop_getD (l := un) (n := j + dn) (by omega)
    obtain ⟨W, hW⟩ : ∃ W, W = val ((un.drop j).take dn) + beta ^ dn * (un.getD (j + dn) 0).toNat := ⟨_, rfl⟩
    have hun : val un = val (un.take j) + beta ^ j * (W + beta ^ (dn + 1) * val (un.drop (j + dn + 1))) := by
      rw [← s1, ← s2, s3, hW, pow_succ]; ring
    have hVj : val vn * beta ^ (j + 1) = beta ^ j * (val vn * beta) := by rw [pow_succ]; ring
    have hzero : val (un.drop (j + dn + 1)) = 0 := by
      by_contra hne
      have h1 : beta ^ (dn + 1) ≤ beta ^ (dn + 1) * val (un.drop (j + dn + 1)) := Nat.le_mul_of_pos_right _ (by omega)
      have h2 : val vn * beta < beta ^ (dn + 1) := by
        rw [pow_succ]; exact Nat.mul_lt_mul_of_pos_right hVlt beta_pos
      have h3 : beta ^ j * (val vn * beta) ≤ beta ^ j * (W + beta ^ (dn + 1) * val (un.drop (j + dn + 1))) :=
        Nat.mul_le_mul_left _ (by omega)
      omega
    rw [hzero, Nat.mul_zero, Nat.add_zero] at hun
    have hWlt : W < val vn * beta := by
      have : beta ^ j * W < beta ^ j * (val vn * beta) := by omega
      exact Nat.lt_of_mul_lt_mul_left this
    obtain ⟨p1, p2, p3, p4⟩ := divPass_spec hv hlow hdn hnorm (by rw [← hW]; exact hWlt)
    rw [← hW] at p1 p3
    rw [divLoop]
    simp only [hv]
    generalize divPass vn ((un.drop j).take dn) (un.getD (j + dn) 0) = pass at p1 p2 p3 p4
    have hVpos : 0 < val vn := by
      rcases Nat.eq_zero_or_pos (val vn) with h | h
      · rw [h] at hWlt; omega
      · exact h
    have hmod := Nat.mod_lt W hVpos
    have hdm := Nat.div_add_mod W (val vn)
    have htl : (un.take j).length = j := by simp; omega
    obtain ⟨un', hun'⟩ : ∃ un', un' = un.take j ++ pass.2.1 ++ pass.2.2 :: un.drop (j + dn + 1) := ⟨_, rfl⟩
    have hl' : un'.length = un.length := by
      rw [hun']; simp [p2]; omega
    have hv' : val un' = val (un.take j) + beta ^ j * (W % val vn) := by
      rw [hun', List.append_assoc, val_append, htl, val_append, val_cons, p4, hzero, p3]
      simp
    have htake : val (un.take j) < beta ^ j := by
      have := val_lt (un.take j); rwa [htl] at this
    have hlt' : val un' < val vn * beta ^ j := by
      rw [hv', Nat.mul_comm (val vn)]
      have : beta ^ j * (W % val vn + 1) ≤ beta ^ j * val vn := Nat.mul_le_mul_left _ hmod
      rw [Nat.mul_add, Nat.mul_one] at this
      omega
    obtain ⟨qs, rest, g1, g2, g3, g4, g5⟩ := ih un' (pass.1 :: quot) (by omega) hlt'
    refine ⟨qs ++ [pass.1], rest, ?_, by simp [g2], by omega, ?_, g5⟩
    · rw [← hun', g1]; simp
    · rw [val_append, g2, val_cons, val_nil, p1]
      have e1 : val un = val un' + beta ^ j * (W / val vn) * val vn := by
        rw [hun, hv']
        conv_lhs => rw [← hdm]
        ring
      rw [e1, g4]; ring

/-! ### The whole algorithm -/

theorem leadingZeros_spec {x : Limb} (hx : x ≠ 0) :
    leadingZeros x ≤ 63 ∧ 2 ^ 63 ≤ x.toNat * 2 ^ leadingZeros x ∧ (x.toNat + 1) * 2 ^ leadingZeros x ≤ beta := by
  have hx0 : x.toNat ≠ 0 := fun h => hx (BitVec.eq_of_toNat_eq (by simpa using h))
  have h1 : 2 ^ Nat.log2 x.toNat ≤ x.toNat := Nat.log2_self_le hx0
  have h2 : x.toNat < 2 ^ (Nat.log2 x.toNat + 1) := Nat.lt_log2_self
  have h3 : Nat.log2 x.toNat ≤ 63 := by
    have : Nat.log2 x.toNat < 64 := (Nat.log2_lt hx0).mpr x.isLt
    omega
  refine ⟨by unfold leadingZeros; omega, ?_, ?_⟩
  · calc 2 ^ 63 = 2 ^ Nat.log2 x.toNat * 2 ^ (63 - Nat.log2 x.toNat) := by rw [← pow_add]; congr 1; omega
      _ ≤ _ := Nat.mul_le_mul_right _ h1
  · calc _ ≤ 2 ^ (Nat.log2 x.toNat + 1) * 2 ^ (63 - Nat.log2 x.toNat) := Nat.mul_le_mul_right _ h2
      _ = 2 ^ 64 := by rw [← pow_add]; congr 1; omega

/-- R243: the algorithm's quotient and remainder are those of the value equation (R230). -/
theorem knuthDivide_eq {u v : List Limb} (hdn : 1 ≤ v.length) (hnn : v.length ≤ u.length)
    (htop : v.getD (v.length - 1) 0 ≠ 0) :
    knuthDivide u v = (limbs (val u / val v) (u.length - v.length + 1), limbs (val u % val v) v.length) := by
  obtain ⟨z1, z2, z3⟩ := leadingZeros_spec htop
  obtain ⟨k, hk⟩ : ∃ k, v.length = k + 1 := ⟨v.length - 1, by omega⟩
  have hvtop := val_top hk
  rw [hk, Nat.add_sub_cancel] at htop z1 z2 z3
  have htl : val (v.take k) < beta ^ k := by
    have := val_lt (v.take k); rwa [List.length_take, Nat.min_eq_left (by omega)] at this
  rw [knuthDivide, hk]
  simp only [Nat.add_sub_cancel]
  generalize hs : leadingZeros (v.getD k 0) = s at z1 z2 z3 ⊢
  have h2s : 0 < 2 ^ s := by positivity
  have hpk : 0 < beta ^ k := Nat.pow_pos beta_pos
  -- the normalized divisor
  have hVfit : val v * 2 ^ s < beta ^ (k + 1) := by
    have h1 : val v < beta ^ k * ((v.getD k 0).toNat + 1) := by rw [hvtop, Nat.mul_add, Nat.mul_one]; omega
    calc val v * 2 ^ s < beta ^ k * ((v.getD k 0).toNat + 1) * 2 ^ s := Nat.mul_lt_mul_of_pos_right h1 h2s
      _ = beta ^ k * (((v.getD k 0).toNat + 1) * 2 ^ s) := by ring
      _ ≤ beta ^ k * beta := Nat.mul_le_mul_left _ z3
      _ = beta ^ (k + 1) := by rw [pow_succ]
  have hVbig : beta ^ k * 2 ^ 63 ≤ val v * 2 ^ s := by
    calc beta ^ k * 2 ^ 63 ≤ beta ^ k * ((v.getD k 0).toNat * 2 ^ s) := Nat.mul_le_mul_left _ z2
      _ = beta ^ k * (v.getD k 0).toNat * 2 ^ s := by ring
      _ ≤ val v * 2 ^ s := Nat.mul_le_mul_right _ (by omega)
  have hvn := val_limbs hVfit
  have hnorm : beta ≤ 2 * ((limbs (val v * 2 ^ s) (k + 1)).getD k 0).toNat := by
    rw [List.getD_eq_getElem?_getD, limbs_getElem? _ _ _ (by omega), Option.getD_some, toNat_ofNat_limb,
      Nat.mod_eq_of_lt (by
        rw [Nat.div_lt_iff_lt_mul hpk]
        calc _ < beta ^ (k + 1) := hVfit
          _ = beta * beta ^ k := by rw [pow_succ']) ]
    have : 2 ^ 63 ≤ val v * 2 ^ s / beta ^ k := by
      rw [Nat.le_div_iff_mul_le hpk, Nat.mul_comm]; exact hVbig
    have hb : beta = 2 * 2 ^ 63 := by norm_num [beta]
    omega
  -- the normalized dividend
  have h2s63 : 2 ^ s ≤ 2 ^ 63 := Nat.pow_le_pow_right (by omega) z1
  have hU1 : val u * 2 ^ s < beta ^ u.length * 2 ^ 63 :=
    lt_of_lt_of_le (Nat.mul_lt_mul_of_pos_right (val_lt u) h2s) (Nat.mul_le_mul_left _ h2s63)
  have hUfit : val u * 2 ^ s < beta ^ (u.length + 1) := by
    rw [pow_succ]
    exact lt_of_lt_of_le hU1 (Nat.mul_le_mul_left _ (by norm_num [beta]))
  have hun := val_limbs hUfit
  have hlt : val (limbs (val u * 2 ^ s) (u.length + 1))
      < val (limbs (val v * 2 ^ s) (k + 1)) * beta ^ (u.length - (k + 1) + 1) := by
    rw [hun, hvn]
    refine lt_of_lt_of_le hU1 ?_
    calc beta ^ u.length * 2 ^ 63 = beta ^ k * 2 ^ 63 * beta ^ (u.length - (k + 1) + 1) := by
          rw [show u.length = k + (u.length - (k + 1) + 1) by omega, pow_add]
          simp only [show k + (u.length - (k + 1) + 1) - (k + 1) + 1 = u.length - (k + 1) + 1 by omega]
          ring
      _ ≤ _ := Nat.mul_le_mul_right _ hVbig
  obtain ⟨qs, rest, g1, g2, g3, g4, g5⟩ := divLoop_spec (limbs_length _ _) (Nat.le_add_left 1 k)
    (by rw [Nat.add_sub_cancel]; exact hnorm) (u.length - (k + 1) + 1) (limbs (val u * 2 ^ s) (u.length + 1)) []
    (by rw [limbs_length]; omega) hlt
  rw [g1, List.append_nil]
  rw [hun, hvn] at g4
  rw [hvn] at g5
  have hVpos : 0 < val v := by
    rcases Nat.eq_zero_or_pos (val v) with h | h
    · rw [h, Nat.zero_mul] at g5; omega
    · exact h
  have hq : val u * 2 ^ s / (val v * 2 ^ s) = val qs := by
    rw [g4, Nat.mul_comm (val qs), Nat.mul_add_div (Nat.mul_pos hVpos h2s), Nat.div_eq_of_lt g5, Nat.add_zero]
  have hr : val u * 2 ^ s % (val v * 2 ^ s) = val rest := by
    rw [g4, Nat.mul_comm (val qs), Nat.mul_add_mod, Nat.mod_eq_of_lt g5]
  rw [Nat.mul_div_mul_right _ _ h2s] at hq
  rw [Nat.mul_mod_mul_right] at hr
  have hrest : val (rest.take (k + 1)) = val rest := by
    have := val_take_add_drop rest (h := k + 1) (by rw [g3, limbs_length]; omega)
    rcases Nat.eq_zero_or_pos (val (rest.drop (k + 1))) with h | h
    · rw [h] at this; simpa using this
    · have : beta ^ (k + 1) ≤ beta ^ (k + 1) * val (rest.drop (k + 1)) := Nat.le_mul_of_pos_right _ h
      omega
  refine Prod.ext (eq_limbs_of_val g2 hq.symm) ?_
  dsimp only
  rw [hrest, ← hr, Nat.mul_div_cancel _ h2s]

end Sys2Proof.Machine
end

