-- ==== Sys2Proof/Laws/MulDispatch.lean ====
section
/-! SUPPORT. Laws/MulDispatch.lean: the dispatcher computes the exact product, for every legal configuration (R211). -/

namespace Sys2Proof.Machine

theorem Legal.kThreshold_pos {c : Config} (hc : c.Legal) : 1 ≤ c.kThreshold := by
  have := hc.checks.1
  simp only [Config.thresholdsOk, Bool.and_eq_true, decide_eq_true_eq] at this
  omega

theorem val_basecase {a b : List Limb} {na nb : Nat} (ha : a.length = na) (hb : b.length = nb) :
    val (basecase a na b nb) = val a * val b := val_limbs (product_lt ha hb)

theorem basecase_comm (a b : List Limb) (na nb : Nat) : basecase a na b nb = basecase b nb a na := by
  rw [basecase, basecase, Nat.mul_comm, Nat.add_comm]

/-- R211: whatever row of the table is taken, the limbs are the base case's. -/
theorem dispatch_eq {c : Config} (hc : c.Legal) (fuel : Nat) (a b : List Limb) (na nb : Nat) (allow : Bool)
    (ha : a.length = na) (hb : b.length = nb) : dispatch c fuel a na b nb allow = basecase a na b nb := by
  induction fuel generalizing a b na nb allow with
  | zero => rfl
  | succ fuel ih =>
    rw [dispatch]
    have rows : c.kThreshold ≤ min na nb → ∀ allow : Bool,
        (if na = nb then kara c.kThreshold na a b na
          else limbs (sumBlocks (min na nb) ((blocksOf (min na nb) (max na nb) (if nb < na then a else b)).map
            fun blk => dispatch c fuel blk blk.length (if nb < na then b else a) (min na nb) allow)) (na + nb))
          = basecase a na b nb := by
      intro hk allow
      split
      · next h =>
        subst h
        rw [kara_eq _ _ _ _ _ ha hb, basecase, two_mul]
      · next h =>
        have h1 := Legal.kThreshold_pos hc
        have hlong : (if nb < na then a else b).length = max na nb := by split <;> omega
        have hshort : (if nb < na then b else a).length = min na nb := by split <;> omega
        rw [sumBlocks_eq (n := min na nb) (by omega) (val (if nb < na then b else a)) _ _ _ hlong.le]
        · rw [basecase]
          split
          · rfl
          · rw [Nat.mul_comm]
        · intro blk _
          rw [ih blk _ _ _ allow rfl hshort]
          exact val_basecase rfl hshort
    dsimp only
    split
    · rfl
    · next hk =>
      split
      · split
        · next hfit => exact nttMul_eq hc ha hb hfit
        · exact rows (by omega) false
      · exact rows (by omega) allow

/-- R211, R218: the same for squares. -/
theorem dispatchSqr_eq {c : Config} (hc : c.Legal) (a : List Limb) (n : Nat) (ha : a.length = n) :
    dispatchSqr c a n = basecaseSqr a n := by
  rw [dispatchSqr]
  split
  · rfl
  · split
    · next h =>
      simp only [Bool.and_eq_true, decide_eq_true_eq] at h
      exact nttSqr_eq hc ha h.2
    · exact karaSqr_eq _ _ _ _ ha

end Sys2Proof.Machine
end

