-- ==== Sys2Proof/Laws/PerInstr.lean ====
section
/-! SUPPORT. Laws/PerInstr.lean: statements made command by command. -/

namespace Sys2Proof.Laws.Encoding

/-- What the encoding of a command is (R75, R77): a well-formed command word whose value is the command's opcode, zero
in bits 63:8; and the command is one of the listed twenty. -/
def Statement (i : Instr) : Prop :=
  wordWellFormed (encode i) = true ∧ (encode i).toNat = i.opcode.toNat ∧ reservedField (encode i) = 0 ∧
    i.wellFormed = true ∧ i ∈ Instr.all

/-- The statement of one command follows from a check that evaluates. -/
theorem statement_of {i : Instr}
    (h : (wordWellFormed (encode i) && (encode i).toNat == i.opcode.toNat && reservedField (encode i) == 0 &&
      i.wellFormed && Instr.all.contains i) = true) : Statement i := by
  simpa [Statement, and_assoc] using h

theorem addN : Statement .addN := statement_of (by decide)
theorem subN : Statement .subN := statement_of (by decide)
theorem add1 : Statement .add1 := statement_of (by decide)
theorem sub1 : Statement .sub1 := statement_of (by decide)
theorem mul1 : Statement .mul1 := statement_of (by decide)
theorem addmul1 : Statement .addmul1 := statement_of (by decide)
theorem submul1 : Statement .submul1 := statement_of (by decide)
theorem lshift : Statement .lshift := statement_of (by decide)
theorem rshift : Statement .rshift := statement_of (by decide)
theorem cmp : Statement .cmp := statement_of (by decide)
theorem divrem1 : Statement .divrem1 := statement_of (by decide)
theorem mulBasecase : Statement .mulBasecase := statement_of (by decide)
theorem sqrBasecase : Statement .sqrBasecase := statement_of (by decide)
theorem mulKaratsuba : Statement .mulKaratsuba := statement_of (by decide)
theorem sqrKaratsuba : Statement .sqrKaratsuba := statement_of (by decide)
theorem mulNtt : Statement .mulNtt := statement_of (by decide)
theorem sqrNtt : Statement .sqrNtt := statement_of (by decide)
theorem mul : Statement .mul := statement_of (by decide)
theorem sqr : Statement .sqr := statement_of (by decide)
theorem divQr : Statement .divQr := statement_of (by decide)

end Sys2Proof.Laws.Encoding
end

