-- ==== Sys2Proof/Laws/Realisations.lean ====
section
/-! SUPPORT. Laws/Realisations.lean: the two realisations the spec writes out from general knowledge: Montgomery reduction
(R181) and the decimation-in-frequency butterflies (R182). -/

namespace Sys2Proof.Machine

/-! ### Montgomery reduction -/

/-- The division in `REDC` is exact. -/
theorem redc_exact {p p' R T : Nat} (h : (p * p' + 1) % R = 0) :
    (T + (T % R) * p' % R * p) % R = 0 := by
  have h1 : R ∣ T * (p * p' + 1) := Dvd.dvd.mul_left (Nat.dvd_of_mod_eq_zero h) T
  have h2 : T + (T % R) * p' % R * p ≡ T + T * p' * p [MOD R] := by
    refine Nat.ModEq.add_left _ (Nat.ModEq.mul_right _ ?_)
    exact (Nat.mod_modEq _ _).trans ((Nat.mod_modEq _ _).mul_right _)
  have h3 : T + T * p' * p = T * (p * p' + 1) := by ring
  rw [h3] at h2
  exact h2.trans ((Nat.modEq_zero_iff_dvd).mpr h1)

theorem redc_spec {p p' R T : Nat} (hR : 0 < R) (h : (p * p' + 1) % R = 0) (hT : T < p * R) :
    redc p p' R T < p ∧ redc p p' R T * R % p = T % p := by
  unfold redc
  dsimp only
  have hm : (T % R) * p' % R < R := Nat.mod_lt _ hR
  have hex := Nat.div_add_mod (T + (T % R) * p' % R * p) R
  rw [redc_exact h, Nat.add_zero] at hex
  generalize (T % R) * p' % R = m at *
  obtain ⟨u, hu⟩ : ∃ u, u = (T + m * p) / R := ⟨_, rfl⟩
  rw [← hu] at hex ⊢
  have hmod : u * R % p = T % p := by rw [Nat.mul_comm, hex, Nat.add_mul_mod_self_right]
  have hlt : u < 2 * p := by
    have h1 : m * p ≤ p * R := by rw [Nat.mul_comm p R]; exact Nat.mul_le_mul_right _ hm.le
    have h2 : R * u < R * (2 * p) := by
      have : R * (2 * p) = p * R + p * R := by ring
      omega
    exact Nat.lt_of_mul_lt_mul_left h2
  split
  · next hge =>
    refine ⟨by omega, ?_⟩
    rw [← hmod]
    conv_rhs => rw [show u = (u - p) + p by omega, Nat.add_mul, Nat.add_mul_mod_self_left]
  · next hge => exact ⟨by omega, hmod⟩

/-! ### Butterflies -/

theorem evalMod_lt {p : Nat} (hp : 0 < p) (xs : List Nat) (w : Nat) : evalMod p xs w < p := by
  cases xs with
  | nil => exact hp
  | cons x xs => exact Nat.mod_lt _ hp

/-- The sum an output of the transform is. -/
theorem evalMod_sum (p : Nat) {xs : List Nat} {n : Nat} (h : xs.length = n) (w : Nat) :
    ((evalMod p xs w : Nat) : ZMod p) = ∑ t ∈ Finset.range n, ((xs.getD t 0 : Nat) : ZMod p) * (w : ZMod p) ^ t := by
  rw [evalMod_cast, eval₂_eq_sum_coeff (n := n)]
  · exact Finset.sum_congr rfl fun t _ => by rw [coeff_digitPoly]; rfl
  · intro t ht
    rw [coeff_digitPoly, List.getD_eq_default _ _ (by omega)]

theorem sum_range_blocks {M : Type*} [AddCommMonoid M] (f : Nat → M) (c m : Nat) :
    ∑ u ∈ Finset.range (c * m), f u = ∑ q ∈ Finset.range c, ∑ t ∈ Finset.range m, f (t + q * m) := by
  induction c with
  | zero => simp
  | succ c ih =>
    rw [Nat.succ_mul, Finset.sum_range_add, ih, Finset.sum_range_succ]
    congr 1
    exact Finset.sum_congr rfl fun t _ => by rw [Nat.add_comm]

theorem natCast_listSum {p : Nat} (f : Nat → Nat) (n : Nat) :
    ((((List.range n).map f).sum : Nat) : ZMod p) = ∑ q ∈ Finset.range n, ((f q : Nat) : ZMod p) := by
  induction n with
  | zero => simp
  | succ n ih => rw [List.range_succ, List.map_append, List.sum_append, Nat.cast_add, ih, Finset.sum_range_succ]; simp

theorem range_map_getD (f : Nat → Nat) {n j : Nat} (hj : j < n) : ((List.range n).map f).getD j 0 = f j := by
  rw [List.getD_eq_getElem _ _ (by simpa using hj)]; simp

theorem eq_of_getD {a b : List Nat} {n : Nat} (ha : a.length = n) (hb : b.length = n)
    (h : ∀ j, j < n → a.getD j 0 = b.getD j 0) : a = b := by
  apply List.ext_getElem (by omega)
  intro j h1 h2
  have := h j (by omega)
  rwa [List.getD_eq_getElem _ _ h1, List.getD_eq_getElem _ _ h2] at this

theorem forward_length (p : Nat) (ws xs : List Nat) : (forward p ws xs).length = ws.length := by simp [forward]

/-- An output of the transform. -/
theorem forward_getD {p w n : Nat} {xs : List Nat} (j : Nat) (hj : j < n) :
    (((forward p (powersFrom w p 1 n) xs).getD j 0 : Nat) : ZMod p)
      = (((evalMod p xs (w ^ j) : Nat)) : ZMod p) := by
  rw [forward, map_getD _ (powersFrom_length w p 1 n) hj, evalMod_cast, powersFrom_cast w p 1 n j hj, evalMod_cast]
  simp

theorem difPart_length (p c m w : Nat) (x : List Nat) (s : Nat) : (difPart p c m w x s).length = m := by
  simp [difPart]

theorem difPart_cast {p c m w : Nat} {x : List Nat} {s t : Nat} (ht : t < m) :
    (((difPart p c m w x s).getD t 0 : Nat) : ZMod p)
      = (∑ q ∈ Finset.range c, (w : ZMod p) ^ (m * (s * q)) * ((x.getD (t + q * m) 0 : Nat) : ZMod p))
        * (w : ZMod p) ^ (s * t) := by
  rw [difPart, range_map_getD _ ht, ZMod.natCast_mod, Nat.cast_mul, natCast_listSum, powMod_cast]
  congr 1
  exact Finset.sum_congr rfl fun q _ => by rw [Nat.cast_mul, powMod_cast]

/-- One stage: output `c·j + s` of the whole is output `j` of part `s` (R182). -/
theorem difPart_spec {p c m w : Nat} {x : List Nat} (hx : x.length = c * m)
    (hw : ((w : ZMod p)) ^ (c * m) = 1) (s j : Nat) :
    ((evalMod p (difPart p c m w x s) ((powMod w c p) ^ j) : Nat) : ZMod p)
      = ((evalMod p x (w ^ (c * j + s)) : Nat) : ZMod p) := by
  rw [evalMod_sum p (difPart_length p c m w x s), evalMod_sum p hx, sum_range_blocks, Finset.sum_comm]
  apply Finset.sum_congr rfl
  intro t ht
  rw [difPart_cast (Finset.mem_range.mp ht), Nat.cast_pow, powMod_cast, Nat.cast_pow, Finset.sum_mul, Finset.sum_mul]
  apply Finset.sum_congr rfl
  intro q _
  have e : ((w : ZMod p) ^ (c * j + s)) ^ (t + q * m)
      = (w : ZMod p) ^ (m * (s * q)) * (w : ZMod p) ^ (s * t) * (((w : ZMod p) ^ c) ^ j) ^ t
        * ((w : ZMod p) ^ (c * m)) ^ (j * q) := by
    simp only [← pow_mul, ← pow_add]
    congr 1
    ring
  rw [e, hw, one_pow, mul_one]
  ring

theorem mergeParts_length (c m : Nat) (parts : List (List Nat)) : (mergeParts c m parts).length = c * m := by
  simp [mergeParts]

theorem difTransform_length {p w : Nat} {radices : List Nat} {x : List Nat} (hx : x.length = radices.prod) :
    (difTransform p radices w x).length = radices.prod := by
  cases radices with
  | nil => simpa [difTransform] using hx
  | cons c cs => simp [difTransform, mergeParts_length]

theorem difTransform_eq {p : Nat} (hp : 1 < p) {radices : List Nat} (hc : ∀ c ∈ radices, 0 < c) {w : Nat} {x : List Nat}
    (hx : x.length = radices.prod) (hlt : ∀ d ∈ x, d < p) (hw : (w : ZMod p) ^ radices.prod = 1) :
    difTransform p radices w x = forward p (powersFrom w p 1 radices.prod) x := by
  induction radices generalizing w x with
  | nil =>
    match x, hx with
    | [d], _ =>
      have : d < p := hlt d List.mem_cons_self
      simp [difTransform, forward, powersFrom, evalMod, Nat.mod_eq_of_lt this]
  | cons c cs ih =>
    have hcpos : 0 < c := hc c List.mem_cons_self
    rw [List.prod_cons] at hx hw
    apply eq_of_getD (n := c * cs.prod) (by simp [difTransform, mergeParts_length])
      (by rw [forward_length, powersFrom_length, List.prod_cons])
    intro k hk
    have hlt2 : (forward p (powersFrom w p 1 (c * cs.prod)) x).getD k 0 < p := by
      rw [forward, map_getD _ (powersFrom_length w p 1 _) hk]
      exact evalMod_lt (by omega) _ _
    have hmod : k % c < c := Nat.mod_lt _ hcpos
    have hdiv : k / c < cs.prod := Nat.div_lt_of_lt_mul hk
    have hpart : ∀ s, difTransform p cs (powMod w c p) (difPart p c cs.prod w x s)
        = forward p (powersFrom (powMod w c p) p 1 cs.prod) (difPart p c cs.prod w x s) := by
      intro s
      apply ih (fun c' hc' => hc c' (List.mem_cons_of_mem _ hc')) (difPart_length ..)
      · intro d hd
        simp only [difPart, List.mem_map] at hd
        obtain ⟨t, -, rfl⟩ := hd
        exact Nat.mod_lt _ (by omega)
      · rw [powMod_cast, ← pow_mul, hw]
    have hval : (difTransform p (c :: cs) w x).getD k 0
        = (forward p (powersFrom (powMod w c p) p 1 cs.prod) (difPart p c cs.prod w x (k % c))).getD (k / c) 0 := by
      rw [difTransform]
      simp only [mergeParts]
      have hparts : ((List.range c).map fun s => difTransform p cs (powMod w c p) (difPart p c cs.prod w x s)).getD (k % c) []
          = difTransform p cs (powMod w c p) (difPart p c cs.prod w x (k % c)) := by
        rw [List.getD_eq_getElem _ _ (by simpa using hmod)]; simp
      rw [range_map_getD _ hk, hparts, hpart]
    rw [List.prod_cons]
    have hlt1 : (difTransform p (c :: cs) w x).getD k 0 < p := by
      rw [hval, forward, map_getD _ (powersFrom_length _ p 1 _) hdiv]
      exact evalMod_lt (by omega) _ _
    have key : (((difTransform p (c :: cs) w x).getD k 0 : Nat) : ZMod p)
        = (((forward p (powersFrom w p 1 (c * cs.prod)) x).getD k 0 : Nat) : ZMod p) := by
      rw [hval, forward_getD _ hdiv, forward_getD _ hk, difPart_spec hx hw, Nat.div_add_mod]
    rw [ZMod.natCast_eq_natCast_iff'] at key
    rwa [Nat.mod_eq_of_lt hlt1, Nat.mod_eq_of_lt hlt2] at key

end Sys2Proof.Machine
end

