-- ==== Sys2Proof/Laws/Reference.lean ====
section
/-! SUPPORT. Laws/Reference.lean: the reference configuration is legal (R163, R165): its three numbers are prime, by Lucas'
test with their generators, and the generators' powers have the orders demanded. -/

namespace Sys2Proof

/-- A generator `g` with `g^(p-1) = 1` and `g^((p-1)/q) ≠ 1` for the prime factors `q` of `p - 1`: `p` is prime and `g` has order
`p - 1`. -/
theorem prime_and_order {p g : Nat} (hp : 1 < p) (h1 : powMod g (p - 1) p = 1) (qs : List Nat)
    (hqs : ∀ q, q.Prime → q ∣ p - 1 → q ∈ qs) (h2 : ∀ q ∈ qs, powMod g ((p - 1) / q) p ≠ 1) :
    p.Prime ∧ orderOf (g : ZMod p) = p - 1 := by
  have cast1 : ∀ e, powMod g e p = 1 ↔ (g : ZMod p) ^ e = 1 := by
    intro e
    have : ((powMod g e p : Nat) : ZMod p) = ((1 : Nat) : ZMod p) ↔ powMod g e p = 1 := by
      rw [ZMod.natCast_eq_natCast_iff', Nat.mod_eq_of_lt hp, powMod_eq, Nat.mod_mod]
    rw [← this, powMod_cast, Nat.cast_one]
  have a1 : (g : ZMod p) ^ (p - 1) = 1 := (cast1 _).mp h1
  have a2 : ∀ q, q.Prime → q ∣ p - 1 → (g : ZMod p) ^ ((p - 1) / q) ≠ 1 :=
    fun q hq hd h => h2 q (hqs q hq hd) ((cast1 _).mpr h)
  exact ⟨lucas_primality p _ a1 a2, orderOf_eq_of_pow_and_pow_div_prime (by omega) a1 a2⟩

theorem reference_p1 : Nat.Prime 754974721 ∧ orderOf ((11 : Nat) : ZMod 754974721) = 754974720 := by
  refine prime_and_order (by norm_num) (by decide) [2, 3, 5] ?_ (by decide)
  intro q hq hd
  rw [show 754974721 - 1 = 2 ^ 24 * 3 ^ 2 * 5 by norm_num] at hd
  rcases (Nat.Prime.dvd_mul hq).mp hd with h | h
  · rcases (Nat.Prime.dvd_mul hq).mp h with h | h
    · simp [(Nat.prime_dvd_prime_iff_eq hq Nat.prime_two).mp (hq.dvd_of_dvd_pow h)]
    · simp [(Nat.prime_dvd_prime_iff_eq hq Nat.prime_three).mp (hq.dvd_of_dvd_pow h)]
  · simp [(Nat.prime_dvd_prime_iff_eq hq Nat.prime_five).mp h]

theorem reference_p2 : Nat.Prime 880803841 ∧ orderOf ((26 : Nat) : ZMod 880803841) = 880803840 := by
  refine prime_and_order (by norm_num) (by decide) [2, 3, 5, 7] ?_ (by decide)
  intro q hq hd
  rw [show 880803841 - 1 = 2 ^ 23 * 3 * 5 * 7 by norm_num] at hd
  rcases (Nat.Prime.dvd_mul hq).mp hd with h | h
  · rcases (Nat.Prime.dvd_mul hq).mp h with h | h
    · rcases (Nat.Prime.dvd_mul hq).mp h with h | h
      · simp [(Nat.prime_dvd_prime_iff_eq hq Nat.prime_two).mp (hq.dvd_of_dvd_pow h)]
      · simp [(Nat.prime_dvd_prime_iff_eq hq Nat.prime_three).mp h]
    · simp [(Nat.prime_dvd_prime_iff_eq hq Nat.prime_five).mp h]
  · simp [(Nat.prime_dvd_prime_iff_eq hq (by norm_num : Nat.Prime 7)).mp h]

theorem reference_p3 : Nat.Prime 2013265921 ∧ orderOf ((31 : Nat) : ZMod 2013265921) = 2013265920 := by
  refine prime_and_order (by norm_num) (by decide) [2, 3, 5] ?_ (by decide)
  intro q hq hd
  rw [show 2013265921 - 1 = 2 ^ 27 * 3 * 5 by norm_num] at hd
  rcases (Nat.Prime.dvd_mul hq).mp hd with h | h
  · rcases (Nat.Prime.dvd_mul hq).mp h with h | h
    · simp [(Nat.prime_dvd_prime_iff_eq hq Nat.prime_two).mp (hq.dvd_of_dvd_pow h)]
    · simp [(Nat.prime_dvd_prime_iff_eq hq Nat.prime_three).mp h]
  · simp [(Nat.prime_dvd_prime_iff_eq hq Nat.prime_five).mp h]

/-- A power of a generator to the exponent `(p - 1)/n` has order `n`. -/
theorem order_of_root {p g n : Nat} (hp : 1 < p) (ho : orderOf (g : ZMod p) = p - 1) (hn : (p - 1) % n = 0) (h0 : 0 < n) :
    orderOf ((powMod g ((p - 1) / n) p : Nat) : ZMod p) = n := by
  obtain ⟨k, hk⟩ := Nat.dvd_of_mod_eq_zero hn
  have hkpos : 0 < k := by
    rcases Nat.eq_zero_or_pos k with rfl | h
    · omega
    · exact h
  rw [powMod_cast, hk, Nat.mul_div_cancel_left _ h0, orderOf_pow_of_dvd hkpos.ne' (by rw [ho, hk]; exact Nat.dvd_mul_left k n),
    ho, hk, Nat.mul_div_cancel _ hkpos]

theorem reference_wellFormed : Config.reference.wellFormed = true := by decide

/-- The reference configuration is legal. -/
theorem reference_legal : Config.reference.Legal where
  wellFormed := reference_wellFormed
  prime := by
    intro p hp
    simp only [Config.reference, List.mem_cons, List.not_mem_nil, or_false] at hp
    rcases hp with rfl | rfl | rfl
    · exact reference_p1.1
    · exact reference_p2.1
    · exact reference_p3.1
  root_lt := by
    intro i h1 h2 n _
    have hi : i = 1 ∨ i = 2 ∨ i = 3 := by
      have : Config.reference.primes.length = 3 := rfl
      omega
    rcases hi with rfl | rfl | rfl <;>
    · simp only [Config.root, Config.reference, Config.prime, powMod_eq]
      exact Nat.mod_lt _ (by decide)
  root_order := by
    intro i h1 h2 n hn
    obtain ⟨h0, -, hd⟩ := mem_sizes hn
    have hi : i = 1 ∨ i = 2 ∨ i = 3 := by
      have : Config.reference.primes.length = 3 := rfl
      omega
    rcases hi with rfl | rfl | rfl
    · exact order_of_root (g := 11) (p := 754974721) (by norm_num) reference_p1.2 (hd 754974721 (by decide)) h0
    · exact order_of_root (g := 26) (p := 880803841) (by norm_num) reference_p2.2 (hd 880803841 (by decide)) h0
    · exact order_of_root (g := 31) (p := 2013265921) (by norm_num) reference_p3.2 (hd 2013265921 (by decide)) h0

end Sys2Proof
end

