-- ==== Sys2Proof/Laws/Steps.lean ====
section
/-! SUPPORT. Laws/Steps.lean: everything an execution and a step can do, once; and that the invariant of Safety.lean
survives it. -/

namespace Sys2Proof.Machine

/-- Every command, in every state, has a next state (R76). -/
theorem exec_next (i : Instr) (s : State) : ∃ t, exec i s = .next t := by
  obtain ⟨late, eff, h, -⟩ := exec_run i s
  rcases run_cases s i late eff with ⟨e, -, hr⟩ | ⟨-, -, hr⟩
  · exact ⟨_, h.trans hr⟩
  · exact ⟨_, h.trans hr⟩

/-- The errors a command that was decoded can end in (R291, R292). -/
def ErrorKind.ofCommand (e : ErrorKind) : Prop := e ≠ .parseError ∧ e ≠ .illegalCommand

/-- Everything an execution can do: raise one error, or complete with stores inside the command's write ranges, which lie
in limb memory, and with the tables of one fitting length or none. -/
theorem exec_cases {i : Instr} {s t : State} (h : exec i s = .next t) :
    (∃ e : ErrorKind, e.ofCommand ∧ t = s.raise e (outputs i s.operands)) ∨
    (∃ eff : Effect, t = s.complete eff ∧ footprintInside i s.cfg s.operands = true ∧
      (∀ w ∈ eff.stores, storeInside w (outputs i s.operands)) ∧
      (eff.stores.Pairwise fun x y => ∀ b, x.1 ≤ b ∧ b < x.1 + x.2.length → ¬(y.1 ≤ b ∧ b < y.1 + y.2.length)) ∧
      (eff.tables = [] ∨ ∃ n, nttFits s.cfg n = true ∧ eff.tables = nttTables s.cfg n)) := by
  obtain ⟨late, eff, he, hlate, heff⟩ := exec_run i s
  rcases run_cases s i late eff with ⟨e, hf, hr⟩ | ⟨hreg, hl, hr⟩
  · refine .inl ⟨e, ?_, ?_⟩
    · rcases hf with hf | ⟨-, hf⟩
      · rcases registerFailure_some hf with rfl | rfl | rfl <;> exact ⟨by decide, by decide⟩
      · rcases hlate _ _ hf with rfl | rfl | rfl | ⟨rfl, -⟩ <;> exact ⟨by decide, by decide⟩
    · rw [he, hr] at h; injection h with h; exact h.symm
  · obtain ⟨h1, h2, h3⟩ := heff hreg hl
    refine .inr ⟨eff s.operands, ?_, (registerFailure_none.mp hreg).2.1, h1, h2, h3⟩
    rw [he, hr] at h; injection h with h; exact h.symm

theorem code_range (e : ErrorKind) (h : e.ofCommand) :
    2 ≤ (errWord e.code).toNat ∧ (errWord e.code).toNat ≤ 8 := by
  revert h; cases e <;> simp [ErrorKind.ofCommand, errWord, ErrorKind.code]

theorem errWord_ne_zero (e : ErrorKind) : errWord e.code ≠ 0 := by cases e <;> decide

/-- An execution leaves alone what `Frame` names. -/
theorem exec_frame {i : Instr} {s t : State} (h : exec i s = .next t) : Frame s t := by
  rcases exec_cases h with ⟨e, -, rfl⟩ | ⟨eff, rfl, -⟩
  · exact frame_raise s e _
  · exact frame_complete s eff

/-- A command whose operand registers break a precondition ends in BadOperand (R302 check 2). -/
theorem endsIn_badOperand {i : Instr} {s : State} (hb : badRegisters i s.operands = true) : EndsIn i s 6 := by
  obtain ⟨late, eff, he, -⟩ := exec_run i s
  refine ⟨_, he.trans (run_raises_register (e := .badOperand) ?_), errored_raise s .badOperand _⟩
  simp [registerFailure, hb]

/-- A footprint that leaves limb memory ends in AddressRange (R302 check 3). -/
theorem endsIn_addressRange {i : Instr} {s : State} (hb : badRegisters i s.operands = false)
    (hf : ¬footprintInside i s.cfg s.operands = true) : EndsIn i s 8 := by
  obtain ⟨late, eff, he, -⟩ := exec_run i s
  refine ⟨_, he.trans (run_raises_register (e := .addressRange) ?_), errored_raise s .addressRange _⟩
  simp [registerFailure, hb, hf]

/-- A forbidden overlap ends in AliasViolation (R302 check 4). -/
theorem endsIn_aliasViolation {i : Instr} {s : State} (hb : badRegisters i s.operands = false)
    (hf : footprintInside i s.cfg s.operands = true) (ho : ¬overlapOk i s.operands = true) : EndsIn i s 7 := by
  obtain ⟨late, eff, he, -⟩ := exec_run i s
  refine ⟨_, he.trans (run_raises_register (e := .aliasViolation) ?_), errored_raise s .aliasViolation _⟩
  simp [registerFailure, hb, hf, ho]

/-- A command with one store, whose checks all pass, completes with it. -/
theorem completed_single {s : State} {eff : Effect} {p : Nat} {l : List Limb} {r : Nat} (hs : eff.stores = [(p, l)])
    (hr : eff.ret.toNat = r) : Completed s (s.complete eff) [(p, l)] r := by
  have := completed_complete s eff (by rw [hs]; exact List.pairwise_singleton _ _)
  rwa [hs, hr] at this

/-- Everything a step can do. -/
theorem step_cases {s t : State} (h : step s = .next t) :
    (s.host = [] ∧ t = s) ∨
    (∃ w rest i, s.host = .wr 0 w :: rest ∧ decode w = .ok i ∧ exec i (s.startCommand w rest) = .next t) ∨
    (∃ w rest e, s.host = .wr 0 w :: rest ∧ decode w = .error e ∧ t = (s.startCommand w rest).illegal) ∨
    (∃ act rest, s.host = act :: rest ∧ act.commandWord = none ∧ hostAct act { s with host := rest } = .next t) := by
  unfold step at h
  split at h
  · next h0 => injection h with h; exact .inl ⟨h0, h.symm⟩
  · next act rest h0 =>
    split at h
    · next w hw =>
      have hact : act = .wr 0 w := by
        cases act with
        | wr r v => cases r <;> simp_all [HostAction.commandWord]
        | _ => simp [HostAction.commandWord] at hw
      subst hact
      unfold execWord at h
      split at h
      · next i hi => exact .inr (.inl ⟨w, rest, i, h0, hi, h⟩)
      · next e he => injection h with h; exact .inr (.inr (.inl ⟨w, rest, e, h0, he, h.symm⟩))
    · next hn => exact .inr (.inr (.inr ⟨act, rest, h0, hn, h⟩))

/-- Everything a host action that starts no command can do. -/
theorem hostAct_cases {act : HostAction} {s t : State} (h : hostAct act s = .next t) :
    (∃ r v, act = .wr r v ∧ s.writeReg r v = some t) ∨
    (∃ r v, act = .rd r ∧ s.readReg r = some v ∧ t = { s with rdata := v }) ∨
    (∃ a v, act = .st a v ∧ a < s.cfg.memLimbs ∧ t = { s with mem := s.mem.write a v }) ∨
    (∃ a, act = .ld a ∧ a < s.cfg.memLimbs ∧ t = { s with rdata := s.limb a, free := s.free + 1 }) ∨
    (act = .reset ∧ t = s.platformReset) := by
  cases act with
  | wr r v =>
    simp only [hostAct] at h
    split at h
    · next s' hs => injection h with h; exact .inl ⟨r, v, rfl, h ▸ hs⟩
    · simp at h
  | rd r =>
    simp only [hostAct] at h
    split at h
    · next v hv => injection h with h; exact .inr (.inl ⟨r, v, rfl, hv, h.symm⟩)
    · simp at h
  | st a v =>
    simp only [hostAct] at h
    split at h
    · next ha => injection h with h; exact .inr (.inr (.inl ⟨a, v, rfl, ha, h.symm⟩))
    · simp at h
  | ld a =>
    simp only [hostAct] at h
    split at h
    · next ha => injection h with h; exact .inr (.inr (.inr (.inl ⟨a, rfl, ha, h.symm⟩)))
    · simp at h
  | reset => injection h with h; exact .inr (.inr (.inr (.inr ⟨rfl, h.symm⟩)))

/-- A write of a register other than `CMD` changes that register alone. -/
theorem writeReg_spec {s t : State} {r : Nat} {v : Limb} (h : s.writeReg r v = some t) :
    r ≤ 15 ∧ t = { s with
      rp := if r = 1 then v else s.rp, ap := if r = 2 then v else s.ap, bp := if r = 3 then v else s.bp
      na := if r = 4 then v else s.na, nb := if r = 5 then v else s.nb, sc := if r = 6 then v else s.sc } := by
  unfold State.writeReg at h
  split at h <;> first
    | (injection h with h; subst h; exact ⟨by omega, rfl⟩)
    | skip
  split at h
  · injection h with h; subst h; exact ⟨by assumption, by simp_all⟩
  · simp at h

/-! ### The invariant -/

/-- The part of the invariant that speaks of the tables. -/
theorem tables_named {s : State} (h : s.Inv) {ts : List TableName}
    (ht : ts = [] ∨ ∃ n, nttFits s.cfg n = true ∧ ts = nttTables s.cfg n) :
    ∀ x ∈ addTables s.tw ts, 1 ≤ x.1 ∧ x.1 ≤ s.cfg.primes.length ∧ x.2 ∈ s.cfg.sizes := by
  intro x hx
  rw [addTables, mem_foldr_insertTable] at hx
  rcases hx with hx | hx
  · rcases ht with rfl | ⟨n, hn, rfl⟩
    · simp at hx
    · obtain ⟨h1, h2, h3⟩ := mem_tablesOf.mp hx
      refine ⟨h1, h2, h3 ▸ (selectSize_spec h.legal.nMax_mem ?_).1⟩
      simpa [nttFits] using hn
  · exact h.named x hx

theorem status_error : (statusWord true true).toNat < 4 ∧ (statusWord true true).getLsbD 1 = true ∧
    (statusWord true true).getLsbD 0 = true := by decide

theorem status_ok : (statusWord true false).toNat < 4 ∧ (statusWord true false).getLsbD 1 = false ∧
    (statusWord true false).getLsbD 0 = true := by decide

theorem inv_raise {s : State} (h : s.Inv) (e : ErrorKind) (outs : List Extent) (he : e ≠ .parseError) :
    (s.raise e outs).Inv where
  legal := h.legal
  canonical := by
    rw [State.raise_mem]; split
    · exact Memory.wf_forgetAll h.canonical _
    · exact h.canonical
  inside := by
    rw [State.raise_mem, State.raise_cfg]; split
    · exact Memory.below_forgetAll h.inside _
    · exact h.inside
  sorted := h.sorted
  named := h.named
  precomputed := h.precomputed
  status := status_error.1
  code := by rw [State.raise_err]; revert he; cases e <;> decide
  errorBit := by
    simp only [State.error, State.errCode, State.raise_err, State.raise_status, status_error, true_iff]
    cases e <;> decide
  errorDone := fun _ => status_error.2.2
  fresh := fun hd => absurd hd (by simp [State.done, status_error])

theorem inv_complete {s : State} (h : s.Inv) {i : Instr} {eff : Effect}
    (hf : footprintInside i s.cfg s.operands = true)
    (hw : ∀ w ∈ eff.stores, storeInside w (outputs i s.operands))
    (ht : eff.tables = [] ∨ ∃ n, nttFits s.cfg n = true ∧ eff.tables = nttTables s.cfg n) :
    (s.complete eff).Inv where
  legal := h.legal
  canonical := Memory.wf_store h.canonical _
  inside := by
    rw [State.complete_mem, State.complete_cfg]
    apply Memory.below_store h.inside
    intro w hw'
    obtain ⟨e, he, h1, h2⟩ := hw w hw'
    simp only [footprintInside, Bool.and_eq_true, List.all_eq_true] at hf
    have hin := (inside_iff s e.ptr e.len).mp (hf.2 e he)
    rcases hin with h0 | h0
    · exact .inl (List.eq_nil_of_length_eq_zero (by omega))
    · exact .inr (by omega)
  sorted := foldr_insertTable_sorted _ h.sorted
  named := tables_named h ht
  precomputed := fun hp i n h1 h2 h3 => (mem_foldr_insertTable _ _ _).mpr (.inr (h.precomputed hp i n h1 h2 h3))
  status := status_ok.1
  code := .inl rfl
  errorBit := by
    simp only [State.error, State.errCode, State.complete_err, State.complete_status, status_ok]
    decide
  errorDone := fun _ => status_ok.2.2
  fresh := fun hd => absurd hd (by simp [State.done, status_ok])

/-- The invariant does not look at the registers a host writes, at the host's list, or at the model's own fields. -/
theorem inv_of_same {s t : State} (h : s.Inv) (h1 : t.cfg = s.cfg) (h2 : t.mem = s.mem) (h3 : t.tw = s.tw)
    (h4 : t.status = s.status) (h5 : t.err = s.err) (h6 : t.ret = s.ret) : t.Inv := by
  obtain ⟨a, b, c, d, e, f, g, k, l, m, n⟩ := h
  constructor <;> simp only [State.error, State.done, State.errCode, h1, h2, h3, h4, h5, h6] at * <;> assumption

theorem inv_resetOf {c : Config} (h : c.Legal) : (State.resetOf c).Inv where
  legal := h
  canonical := List.Pairwise.nil
  inside := by simp
  sorted := by
    rw [State.resetOf_tw]; split
    · exact allTables_sorted c
    · exact List.Pairwise.nil
  named := by
    intro x hx
    rw [State.resetOf_tw] at hx
    split at hx
    · exact mem_allTables.mp hx
    · simp at hx
  precomputed := by
    intro hp i n h1 h2 h3
    rw [State.resetOf_tw, if_pos (show c.twPrecompute = true from hp)]
    exact mem_allTables.mpr ⟨h1, h2, h3⟩
  status := by simp
  code := .inl rfl
  errorBit := by simp [State.error, State.errCode]
  errorDone := by simp [State.error]
  fresh := fun _ => ⟨rfl, rfl⟩

end Sys2Proof.Machine
end

