-- ==== Sys2Proof/Tests/Slice0.lean ====
section
/-! SUPPORT. Tests/Slice0.lean: the model's own tests, on values of spec/95_test_vectors.md and of the worked examples in
the rules, and, for every statement of Certificates/Slice0/Obligations.lean with hypotheses, a named theorem that shows
states and operands which meet them, at the boundaries of their ranges. -/

namespace Sys2Proof.Tests
open Sys2Proof.Machine

/-! ### Small states -/

/-- The reference configuration with sixteen limbs of memory. -/
def small : Config := { Config.reference with memLimbs := 16 }

/-- The largest limb, `M` of spec/95_test_vectors.md. -/
def M : Limb := 0xFFFFFFFFFFFFFFFF

/-- A block right after reset with operand registers set and limbs stored from index 0 on. -/
def st (rp ap bp na nb sc : Limb) (cells : List Limb := []) (c : Config := small) : State :=
  { State.resetOf c with
    rp := rp, ap := ap, bp := bp, na := na, nb := nb, sc := sc, mem := Memory.writeList [] 0 cells }

/-- The same block with `alloc_ok` refusing the command `i` on the operands that stand in its registers. -/
def refusing (i : Instr) (s : State) : State := { s with cfg := { s.cfg with allocDenied := [s.allocRequest i] } }

/-- A block whose host has actions pending. -/
def pending (acts : List HostAction) (s : State := State.resetOf small) : State := { s with host := acts }

/-- What a test looks at: `n` limbs from index `p` on, `RET`, `ERR`. -/
def seen (o : Host.Outcome State Fault Refusal) (p n : Nat) : Option (List (Option Limb) × Limb × Limb) :=
  match o with
  | .next t => some ((List.range n).map fun i => t.mem.read (p + i), t.ret, t.err)
  | _ => none

/-- `ERR` after a command. -/
def errOf (o : Host.Outcome State Fault Refusal) : Option Limb :=
  match o with
  | .next t => some t.err
  | _ => none

/-! ### Decoding (R75, R77, R79, T50) -/

theorem test_decode_each_unit :
    decode 0x0000000000000001 = .ok .addN ∧ decode 0x000000000000000B = .ok .divrem1 ∧
    decode 0x0000000000000010 = .ok .mulBasecase ∧ decode 0x0000000000000021 = .ok .sqrKaratsuba ∧
    decode 0x0000000000000030 = .ok .mulNtt ∧ decode 0x0000000000000041 = .ok .sqr ∧
    decode 0x0000000000000050 = .ok .divQr := by decide

theorem test_decode_illegal :
    decode 0 = .error .unassignedOpcode ∧ decode 0x0C = .error .unassignedOpcode ∧
    decode 0xFF = .error .unassignedOpcode ∧ decode 0x101 = .error .reservedBits ∧
    decode 0x8000000000000001 = .error .reservedBits := by decide

theorem test_decode_table_word :
    decodeTableWord 64 0x0A = some .cmp ∧ decodeTableWord 64 0x0F = none := by decide

/-! ### WellFormed: every check refuses something -/

theorem smoke_words :
    wordWellFormed 0x50 = true ∧ reservedBitsZero 0x101 = false ∧ opcodeAssigned 0x0C = false ∧
    wordWellFormed 0x101 = false ∧ wordWellFormed 0x0C = false ∧ Instr.all.all Instr.wellFormed = true := by decide

theorem smoke_thresholds :
    Config.thresholdsOk { small with kThreshold := 15 } = false ∧
    Config.thresholdsOk { small with kThreshold := 65 } = false ∧
    Config.thresholdsOk { small with nThreshold := 32 } = false ∧
    Config.thresholdsOk { small with nThreshold := 2 ^ 64 } = false ∧
    Config.thresholdsOk { small with kThreshold := 64, nThreshold := 65 } = true := by decide

theorem smoke_memLimbs :
    Config.memLimbsOk { small with memLimbs := 0 } = false ∧
    Config.memLimbsOk { small with memLimbs := 2 ^ 61 + 1 } = false ∧
    Config.memLimbsOk { small with memLimbs := 1 } = true := by decide

theorem smoke_primes :
    Config.primesOk { small with primes := [754974721, 880803841] } = false ∧
    Config.primesOk { small with primes := [754974721, 754974721, 2013265921] } = false ∧
    Config.primesOk { small with primes := [754974721, 880803841, 2 ^ 32 + 1] } = false ∧
    Config.primesOk { small with primes := [1, 754974721, 880803841] } = false ∧
    Config.primesOk small = true := by decide

theorem smoke_nMax :
    Config.nMaxOk { small with primes := [754974721, 880803841, 998244353 + 2] } = false ∧
    Config.nMaxOk { small with view := .v64, nMaxV64 := 7 } = false := by decide +kernel

theorem smoke_product : Config.productOk { small with primes := [754974721, 880803841, 5] } = false := by decide

/-! ### One step of each command -/

-- R102, T10; T20: in place
theorem test_addN_carry :
    seen (exec .addN (st 4 0 2 2 0 0 [M, M, 1, 0])) 4 2 = some ([some 0, some 0], 1, 0) := by decide
theorem test_addN_inPlace :
    seen (exec .addN (st 0 0 2 2 0 0 [M, 0, 1, 0])) 0 2 = some ([some 0, some 1], 0, 0) := by decide

-- R104, T11, T13
theorem test_subN : seen (exec .subN (st 4 0 2 2 0 0 [5, 7, 6, 2])) 4 2 = some ([some M, some 4], 0, 0) := by decide
theorem test_subN_borrow :
    seen (exec .subN (st 6 3 0 3 0 0 [M, M, M, 1, 0, 0])) 6 3 = some ([some 2, some 0, some 0], 1, 0) := by decide

-- R106, T14
theorem test_add1 : seen (exec .add1 (st 4 0 0 2 0 2 [M, 1])) 4 2 = some ([some 1, some 2], 0, 0) := by decide
theorem test_add1_empty : seen (exec .add1 (st M M 0 0 0 7)) 0 1 = some ([none], 7, 0) := by decide

-- R108, T14
theorem test_sub1 : seen (exec .sub1 (st 4 0 0 2 0 1 [0, 1])) 4 2 = some ([some M, some 0], 0, 0) := by decide
theorem test_sub1_borrow :
    seen (exec .sub1 (st 4 0 0 1 0 5 [3])) 4 1 = some ([some 0xFFFFFFFFFFFFFFFE], 1, 0) := by decide

-- R110, T15; T20: aliased
theorem test_mul1 :
    seen (exec .mul1 (st 4 0 0 2 0 0x1000000000000001 [0x123456789ABCDEF0, 0x0FEDCBA987654321])) 4 2
      = some ([some 0x123456789ABCDEF0, some 0x2111111111111110], 0x00FEDCBA98765432, 0) := by decide
theorem test_mul1_alias :
    errOf (exec .mul1 (st 0 0 0 1 0 3 [7])) = some 7 ∧ errOf (exec .mul1 (st 0 0 0 0 0 3 [7])) = some 0 := by decide

-- R112, T16
theorem test_addmul1 :
    seen (exec .addmul1 (st 0 2 0 2 0 5 [1, 2, 3, 4])) 0 2 = some ([some 0x10, some 0x16], 0, 0) := by decide
theorem test_addmul1_largest :
    seen (exec .addmul1 (st 0 2 0 2 0 M [M, M, M, M])) 0 2 = some ([some 0, some M], M, 0) := by decide

-- R114, T16
theorem test_submul1 :
    seen (exec .submul1 (st 0 2 0 2 0 5 [100, 50, 3, 4])) 0 2 = some ([some 0x55, some 0x1E], 0, 0) := by decide
theorem test_submul1_borrow :
    seen (exec .submul1 (st 0 2 0 2 0 M [0, 0, M, M])) 0 2 = some ([some M, some 0], M, 0) := by decide

-- R117, T17; T52: BadOperand before AddressRange
theorem test_lshift :
    seen (exec .lshift (st 4 0 0 2 0 63 [0x8000000000000001, 0xC000000000000003])) 4 2
      = some ([some 0x8000000000000000, some 0xC000000000000000], 0x6000000000000001, 0) := by decide
theorem test_lshift_priority : errOf (exec .lshift (st M 0 0 2 0 64)) = some 6 := by decide

-- R119, T17
theorem test_rshift :
    seen (exec .rshift (st 4 0 0 2 0 4 [0x8000000000000001, 0xC000000000000003])) 4 2
      = some ([some 0x3800000000000000, some 0x0C00000000000000], 0x1000000000000000, 0) := by decide
theorem test_rshift_by_zero : seen (exec .rshift (st 4 0 0 1 0 0 [M])) 4 1 = some ([some M], 0, 0) := by decide

-- R124, T11, T18
theorem test_cmp_less : seen (exec .cmp (st 0 0 2 2 0 0 [M, 1, 0, 2])) 0 4
    = some ([some M, some 1, some 0, some 2], M, 0) := by decide
theorem test_cmp_greater : seen (exec .cmp (st 0 0 2 2 0 0 [5, 9, 4, 9])) 0 0 = some ([], 1, 0) := by decide

-- R126, T19; T52: AliasViolation before DivisionByZero
theorem test_divrem1 :
    seen (exec .divrem1 (st 4 0 0 3 0 10 [0, 0, 1])) 4 3
      = some ([some 0x9999999999999999, some 0x1999999999999999, some 0], 6, 0) := by decide
theorem test_divrem1_zero :
    errOf (exec .divrem1 (st 4 0 0 0 0 0)) = some 2 ∧ errOf (exec .divrem1 (st 0 0 0 1 0 0 [7])) = some 7 := by decide

-- R131, T26
theorem test_mulBasecase :
    seen (exec .mulBasecase (st 4 0 2 2 2 0 [M, 1, 2, M])) 4 4
      = some ([some 0xFFFFFFFFFFFFFFFE, some 4, some 0xFFFFFFFFFFFFFFFD, some 1], 0, 0) := by decide
theorem test_mulBasecase_zero_length :
    seen (exec .mulBasecase (st 4 0 2 2 0 0 [5, 6])) 4 2 = some ([some 0, some 0], 0, 0) := by decide

-- R134, T27
theorem test_sqrBasecase :
    seen (exec .sqrBasecase (st 4 0 0 2 0 0 [0x123456789ABCDEF0, 0x0FEDCBA987654321])) 4 4
      = some ([some 0xA5E20890F2A52100, some 0x45B917FBFEB9C6BC, some 0xCF22E06E3293F8C5,
          some 0x00FDBAC097C8DC5A], 0, 0) := by decide

-- R141, T32; R142, T31: 33 limbs, split 17, 16, 18
theorem test_mulKaratsuba :
    seen (exec .mulKaratsuba (st 4 0 2 2 0 0 [2, 3, 4, 5])) 4 4
      = some ([some 8, some 22, some 15, some 0], 0, 0) := by decide
theorem test_kara_33 :
    let r := kara 32 33 ((List.range 33).map fun i => BitVec.ofNat 64 (i + 1))
      ((List.range 33).map fun i => BitVec.ofNat 64 (2 * i + 1)) 33
    r.take 8 = [1, 5, 14, 30, 55, 91, 140, 204] ∧ r[32]? = some 12529 ∧ r[33]? = some 13584 ∧
      r[64]? = some 2145 ∧ r[65]? = some 0 := by decide +kernel

-- R150; T30, T38: 64 limbs, all M
theorem test_sqrKaratsuba :
    seen (exec .sqrKaratsuba (st 4 0 0 1 0 0 [0x100000000])) 4 2 = some ([some 0, some 1], 0, 0) := by decide
theorem test_karaSqr_64 :
    karaSqr 32 64 (List.replicate 64 M) 64
      = 1 :: List.replicate 63 0 ++ 0xFFFFFFFFFFFFFFFE :: List.replicate 63 M := by decide +kernel

-- R160, T62, and P5: the tables that become present
theorem test_mulNtt :
    seen (exec .mulNtt (st 4 0 0 1 1 0 [M])) 4 2 = some ([some 1, some 0xFFFFFFFFFFFFFFFE], 0, 0) := by decide +kernel
theorem test_mulNtt_tables : nttTables small 2 = [(1, 64), (2, 64), (3, 64)] := by decide +kernel

-- R177, P5
theorem test_sqrNtt :
    seen (exec .sqrNtt (st 4 0 0 1 0 0 [M])) 4 2 = some ([some 1, some 0xFFFFFFFFFFFFFFFE], 0, 0) := by decide +kernel

-- R210, T3; R216: a small threshold reaches the blocks (the spec's least is 16; the rule is the same)
theorem test_mul :
    seen (exec .mul (st 4 0 1 1 2 0 [0xAB54A98CEB1F0AD2, 0x5AA54D38E5267EEA, 5])) 4 3
      = some ([some 0x127989C1A6DF3FF4, some 0x9551B49BF4F8A3A2, some 3], 0, 0) := by decide
theorem test_dispatch_blocks :
    dispatch { small with kThreshold := 2 } 7 [1, 2, 3, 4, 5] 5 [M, 1] 2 true
      = basecase [1, 2, 3, 4, 5] 5 [M, 1] 2 := by decide +kernel

-- R218, T38
theorem test_sqr : seen (exec .sqr (st 4 0 0 1 0 0 [3])) 4 2 = some ([some 9, some 0], 0, 0) := by decide

-- R230, T7; R231, T46
theorem test_divQr :
    seen (exec .divQr (st 8 0 4 3 2 0 [0, 0, 1, 9, 1, 1])) 0 10
      = some ([some 1, some 0, some 0, some 9, some 1, some 1, none, none, some M, some 0], 0, 0) := by decide
theorem test_divQr_errors :
    errOf (exec .divQr (st 8 0 4 1 2 0)) = some 6 ∧ errOf (exec .divQr (st 8 0 16 2 1 0)) = some 8 ∧
    errOf (exec .divQr (st 0 0 4 2 1 0)) = some 7 ∧ errOf (exec .divQr (st M 0 4 2 0 0)) = some 2 ∧
    errOf (exec .divQr (st 8 0 4 2 2 0 [1, 2, 3, 4, 5, 0])) = some 6 := by decide

/-! ### The engine's parts (T60 to T62) and the divider's (T44, T45) -/

theorem test_selectSize :
    [0, 1, 64, 65, 129, 193, 257, 4096, 4097, 16777216, 20971521].map small.selectSize
      = [64, 64, 64, 128, 192, 256, 320, 4096, 5120, 20971520, 25165824] := by decide +kernel

theorem test_roots :
    [small.root 1 64, small.root 2 64, small.root 3 64] = [508199684, 547743738, 1721589904] ∧
    [(small.twiddle 1 64).nInv, (small.twiddle 2 64).nInv, (small.twiddle 3 64).nInv]
      = [743178241, 867041281, 1981808641] := by decide +kernel

theorem test_garner :
    garner [(754974721, 172619001), (880803841, 484701829), (2013265921, 1270594512)]
      = 0x1FFFFFFFC00000002 := by decide +kernel

theorem test_carryPropagate :
    carryPropagate (2 ^ 32) [0xFFFFFFFE00000001, 0x1FFFFFFFC00000002, 0xFFFFFFFE00000001, 0] 0
      = [1, 0, 0xFFFFFFFE, 0xFFFFFFFF] := by decide

theorem test_divide_addBack :
    knuthDivide [0, 0, M, 1] [2, 0xFFFFFFFFFFFFFFFE, 3]
      = ([0x7FFFFFFFFFFFFFFF, 0], [2, 0xFFFFFFFFFFFFFFFD, 3]) := by decide +kernel

theorem test_divide_capped :
    knuthDivide [0x8000000000000000, 1, 1, 3] [0x8000000000000001, 0x8000000000000000, 1]
      = ([M, 1], [1, 0x8000000000000000, 1]) := by decide +kernel

/-! ### Steps -/

theorem test_step_illegal_word :
    errOf (step (pending [.wr 0 0x101])) = some 5 ∧ errOf (step (pending [.wr 0 0x0C])) = some 5 := by decide

theorem test_withFetchWord : errOf (step (State.reset.withFetchWord 64 0x0B)) = some 2 := by decide

theorem test_idWord : idWord small = 0x0000000001032040 := by decide

/-! ### Witnesses: hypotheses of the statements -/

/-- A legal configuration stays legal with another size of limb memory and another threshold. -/
theorem legal_of {c : Config} (hv : c.view = .v32) (hp : c.primes = Config.reference.primes)
    (hr : c.roots = Config.reference.roots) (hk : c.nttKMin = Config.reference.nttKMin) (hw : c.wellFormed = true) :
    c.Legal := by
  have hs : c.sizes = Config.reference.sizes := by
    simp only [Config.sizes, Config.permits, Config.nMax, hv, hp, hk]; rfl
  have hroot : ∀ i n, c.root i n = Config.reference.root i n := by
    intro i n; simp only [Config.root, Config.prime, hr, hp]
  have hprime : ∀ i, c.prime i = Config.reference.prime i := by intro i; simp only [Config.prime, hp]
  refine ⟨hw, by rw [hp]; exact reference_legal.prime, ?_, ?_⟩
  · intro i h1 h2 n hn
    rw [hroot, hprime]; rw [hp] at h2; rw [hs] at hn; exact reference_legal.root_lt i h1 h2 n hn
  · intro i h1 h2 n hn
    rw [hroot, hprime]; rw [hp] at h2; rw [hs] at hn; exact reference_legal.root_order i h1 h2 n hn

theorem small_legal : small.Legal := legal_of rfl rfl rfl rfl (by decide +kernel)

/-- Another legal configuration: the least `K_THRESHOLD`, another `N_THRESHOLD`, tables built at start-up. -/
def other : Config := { small with kThreshold := 16, nThreshold := 17, twPrecompute := true }

theorem other_legal : other.Legal := legal_of rfl rfl rfl rfl (by decide +kernel)

abbrev Ranges2 (s : State) (n m : Nat) : Prop := s.InLM s.ap.toNat n ∧ s.InLM s.rp.toNat m
abbrev Ranges3 (s : State) (n k m : Nat) : Prop := s.InLM s.ap.toNat n ∧ s.InLM s.bp.toNat k ∧ s.InLM s.rp.toNat m

/-- `a` meets the ranges `R` and the overlap rule `O`, `b` breaks `R`, `c` meets `R` and breaks `O`. -/
abbrev Cases (R O : State → Prop) (a b c : State) : Prop := (R a ∧ O a) ∧ ¬R b ∧ (R c ∧ ¬O c)

theorem witness_StepRunsTheCommand :
    (pending [.wr 0 0x50]).host = .wr 0 0x50 :: [] ∧ decode 0x50 = .ok .divQr := ⟨rfl, by decide⟩

theorem witness_DecodeIsInverseOfEncode : decode 0x50 = .ok .divQr := by decide

theorem witness_IllegalWordsRaise :
    (pending [.wr 0 0x101]).host = .wr 0 0x101 :: [] ∧ (0x101 : Limb).toNat / 2 ^ 8 ≠ 0 ∧
    (pending [.wr 0 0x51]).host = .wr 0 0x51 :: [] ∧ (0x51 : Limb).toNat % 2 ^ 8 ∉
      [0x01, 0x02, 0x03, 0x04, 0x05, 0x06, 0x07, 0x08, 0x09, 0x0A, 0x0B, 0x10, 0x11, 0x20, 0x21,
        0x30, 0x31, 0x40, 0x41, 0x50] := ⟨rfl, by decide, rfl, by decide⟩

theorem witness_EveryCommandEnds : (pending [.wr 0 M, .rd 8]).host = .wr 0 M :: [.rd 8] := rfl

theorem witness_DoneStaysUntilReset :
    let s := { pending [.rd 9] with status := 1 }
    (∃ t, step s = .next t) ∧ s.host.head? ≠ some .reset ∧ s.done = true := ⟨⟨_, rfl⟩, by decide, by decide⟩

theorem witness_HostAccessRaisesNoError :
    (∃ t, step (pending [.st 15 M]) = .next t) ∧ (∀ w, HostAction.st 15 M ≠ .wr 0 w) ∧ HostAction.st 15 M ≠ .reset :=
  ⟨⟨_, rfl⟩, by simp, by simp⟩

theorem witness_StepsThatGoOn :
    (pending [.wr 15 M, .rd 15, .st 15 M, .ld 15]).Safe ∧ ¬(pending [.rd 16]).Safe ∧ ¬(pending [.ld 16]).Safe ∧
      (pending []).host = [] := by
  refine ⟨?_, ?_, ?_, rfl⟩ <;> simp [State.Safe, pending, HostAction.onBlock, State.resetOf, small]

theorem witness_HostWritesRegisters :
    (pending [.wr 1 M]).host = .wr 1 M :: [] ∧ (pending [.wr 6 M]).host = .wr 6 M :: [] ∧
    (pending [.wr 7 M]).host = .wr 7 M :: [] ∧ (pending [.wr 15 M]).host = .wr 15 M :: [] := ⟨rfl, rfl, rfl, rfl⟩

theorem witness_HostReadsConfiguration :
    (pending [.rd 15]).host = .rd 15 :: [] ∧ (State.resetOf small).cfg.Legal ∧ small.view = .v32 ∧
    (State.resetOf Config.reference).cfg.Legal ∧ (State.resetOf Config.reference).cfg = Config.reference ∧
    ∃ t, step (State.resetOf small) = .next t := ⟨rfl, small_legal, rfl, reference_legal, rfl, _, rfl⟩

theorem witness_HostStoresAndLoads :
    (pending [.st 15 7]).host = .st 15 7 :: [] ∧ 15 < small.memLimbs ∧
    (pending [.ld 0] (st 0 0 0 0 0 0 [7])).mem.read 0 = some 7 := by decide

theorem witness_PlatformResetGivesResetState : (pending [.reset]).host = .reset :: [] := rfl

theorem witness_StepKeepsInvariant : (State.resetOf small).Inv ∧ ∃ t, step (State.resetOf small) = .next t :=
  ⟨inv_resetOf small_legal, _, rfl⟩

theorem witness_ResetKeepsInvariant : other.Legal := other_legal

theorem witness_AddNStoresSum :
    Cases (fun s => Ranges3 s s.na.toNat s.na.toNat s.na.toNat)
      (fun s => InPlaceOrApart s.rp.toNat s.ap.toNat s.na.toNat ∧ InPlaceOrApart s.rp.toNat s.bp.toNat s.na.toNat)
      (st 14 0 2 2 0 0) (st 15 0 2 2 0 0) (st 1 0 4 2 0 0) := by decide

theorem witness_SubNStoresDifference :
    Cases (fun s => Ranges3 s s.na.toNat s.na.toNat s.na.toNat)
      (fun s => InPlaceOrApart s.rp.toNat s.ap.toNat s.na.toNat ∧ InPlaceOrApart s.rp.toNat s.bp.toNat s.na.toNat)
      (st 2 0 2 2 0 0) (st 0 0 15 2 0 0) (st 3 0 2 2 0 0) := by decide

abbrev InPlace1 (s : State) : Prop := InPlaceOrApart s.rp.toNat s.ap.toNat s.na.toNat
abbrev Apart1 (s : State) : Prop := Apart s.rp.toNat s.na.toNat s.ap.toNat s.na.toNat

theorem witness_AddOneStoresSum :
    Cases (fun s => Ranges2 s s.na.toNat s.na.toNat) InPlace1 (st 14 0 0 2 0 1) (st 15 0 0 2 0 1) (st 1 0 0 2 0 1) ∧
    Ranges2 (st M M 0 0 0 7) 0 0 := by decide

theorem witness_SubOneStoresDifference :
    Cases (fun s => Ranges2 s s.na.toNat s.na.toNat) InPlace1 (st 0 0 0 2 0 1) (st 0 15 0 2 0 1) (st 0 1 0 2 0 1) := by
  decide

theorem witness_MulOneStoresProduct :
    Cases (fun s => Ranges2 s s.na.toNat s.na.toNat) Apart1 (st 14 12 0 2 0 M) (st 15 0 0 2 0 M) (st 0 0 0 2 0 M) := by
  decide

theorem witness_AddmulOneAccumulates :
    Cases (fun s => Ranges2 s s.na.toNat s.na.toNat) Apart1 (st 14 12 0 2 0 M) (st 15 0 0 2 0 M) (st 0 1 0 2 0 M) := by
  decide

theorem witness_SubmulOneSubtracts :
    Cases (fun s => Ranges2 s s.na.toNat s.na.toNat) Apart1 (st 12 14 0 2 0 M) (st 0 15 0 2 0 M) (st 1 0 0 2 0 M) := by
  decide

theorem witness_LshiftStoresShiftedLeft :
    64 ≤ (st 4 0 0 2 0 64).sc.toNat ∧ (st 14 0 0 2 0 63).sc.toNat < 64 ∧
    Cases (fun s => Ranges2 s s.na.toNat s.na.toNat) InPlace1 (st 14 0 0 2 0 63) (st 15 0 0 2 0 0) (st 1 0 0 2 0 63) := by
  decide

theorem witness_RshiftStoresShiftedRight :
    64 ≤ (st 4 0 0 2 0 64).sc.toNat ∧ (st 0 0 0 2 0 0).sc.toNat < 64 ∧
    Cases (fun s => Ranges2 s s.na.toNat s.na.toNat) InPlace1 (st 0 0 0 2 0 0) (st 0 15 0 2 0 63) (st 0 1 0 2 0 63) := by
  decide

theorem witness_CmpReturnsOrdering :
    ((st 0 14 0 2 0 0).InLM 14 2 ∧ (st 0 14 0 2 0 0).InLM 0 2) ∧
    ¬((st 0 15 0 2 0 0).InLM 15 2 ∧ (st 0 15 0 2 0 0).InLM 0 2) := by decide

theorem witness_DivremOneStoresQuotient :
    Cases (fun s => Ranges2 s s.na.toNat s.na.toNat) Apart1 (st 14 12 0 2 0 1) (st 15 0 0 2 0 1) (st 0 0 0 2 0 0) ∧
    (st 14 12 0 2 0 1).sc.toNat ≠ 0 ∧ Ranges2 (st M M 0 0 0 0) 0 0 ∧ Apart1 (st M M 0 0 0 0) ∧
    (st M M 0 0 0 0).sc.toNat = 0 := by decide

abbrev ProductRanges (s : State) : Prop := Ranges3 s s.na.toNat s.nb.toNat (s.na.toNat + s.nb.toNat)
abbrev ProductApart (s : State) : Prop :=
  Apart s.rp.toNat (s.na.toNat + s.nb.toNat) s.ap.toNat s.na.toNat ∧
    Apart s.rp.toNat (s.na.toNat + s.nb.toNat) s.bp.toNat s.nb.toNat
abbrev SquareRanges (s : State) : Prop := Ranges2 s s.na.toNat (2 * s.na.toNat)
abbrev SquareApart (s : State) : Prop := Apart s.rp.toNat (2 * s.na.toNat) s.ap.toNat s.na.toNat

theorem witness_MulBasecaseStoresProduct :
    Cases ProductRanges ProductApart (st 13 0 2 2 1 0) (st 14 0 2 2 1 0) (st 0 2 4 2 1 0) := by decide

theorem witness_SqrBasecaseStoresSquare :
    Cases SquareRanges SquareApart (st 12 10 0 2 0 0) (st 13 0 0 2 0 0) (st 0 3 0 2 0 0) := by decide

/-- A state of the reference configuration, whose limb memory has room for long operands. -/
def big (rp ap bp na nb : Limb) : State := st rp ap bp na nb 0 [] Config.reference

abbrev KaraRanges (s : State) : Prop := Ranges3 s s.na.toNat s.na.toNat (2 * s.na.toNat)
abbrev KaraApart (s : State) : Prop :=
  Apart s.rp.toNat (2 * s.na.toNat) s.ap.toNat s.na.toNat ∧ Apart s.rp.toNat (2 * s.na.toNat) s.bp.toNat s.na.toNat

theorem witness_MulKaratsubaStoresProduct_completes :
    KaraRanges (big 64 0 32 32 0) ∧ KaraApart (big 64 0 32 32 0) ∧
      (big 64 0 32 32 0).allocOk .mulKaratsuba = true := by decide

theorem witness_MulKaratsubaStoresProduct_ranges :
    Cases KaraRanges KaraApart (st 12 0 2 2 0 0) (st 13 0 2 2 0 0) (st 1 0 4 2 0 0) := by decide

theorem witness_MulKaratsubaStoresProduct_allocation :
    (KaraRanges (refusing .mulKaratsuba (big 64 0 32 31 0)) ∧ KaraApart (refusing .mulKaratsuba (big 64 0 32 31 0)) ∧
      31 < Config.reference.kThreshold) ∧
    KaraRanges (refusing .mulKaratsuba (big 64 0 32 32 0)) ∧ KaraApart (refusing .mulKaratsuba (big 64 0 32 32 0)) ∧
    ¬(32 < Config.reference.kThreshold ∨
      (refusing .mulKaratsuba (big 64 0 32 32 0)).allocOk .mulKaratsuba = true) := by decide

theorem witness_SqrKaratsubaStoresSquare :
    Cases SquareRanges SquareApart (st 12 10 0 2 0 0) (st 13 0 0 2 0 0) (st 0 3 0 2 0 0) ∧
    SquareRanges (big 64 0 0 32 0) ∧ SquareApart (big 64 0 0 32 0) ∧ (big 64 0 0 32 0).allocOk .sqrKaratsuba = true ∧
    SquareRanges (refusing .sqrKaratsuba (big 64 0 0 32 0)) ∧ SquareApart (refusing .sqrKaratsuba (big 64 0 0 32 0)) ∧
    ¬(32 < Config.reference.kThreshold ∨ (refusing .sqrKaratsuba (big 64 0 0 32 0)).allocOk .sqrKaratsuba = true) := by
  decide

/-- The longest product the engine takes, and one limb more (T63). -/
def longest : State := big 0x2000000 0 0 6291456 6291456
def tooLong : State := big 0x2000000 0 0 6291456 6291457

theorem witness_MulNttStoresProduct_completes :
    longest.cfg.Legal ∧ ProductRanges longest ∧ ProductApart longest ∧ 2 * (6291456 + 6291456) = longest.cfg.nMax ∧
      longest.allocOk .mulNtt = true := ⟨reference_legal, by decide, by decide, by decide, by decide⟩

theorem witness_MulNttStoresProduct_errors :
    ¬ProductRanges (st 14 0 2 2 1 0) ∧ (ProductRanges (st 0 0 2 1 1 0) ∧ ¬ProductApart (st 0 0 2 1 1 0)) ∧
    (ProductRanges tooLong ∧ ProductApart tooLong ∧ tooLong.cfg.nMax < 2 * (6291456 + 6291457)) ∧
    ProductRanges (refusing .mulNtt longest) ∧ ProductApart (refusing .mulNtt longest) ∧
    (refusing .mulNtt longest).allocOk .mulNtt = false := by decide

def longestSquare : State := big 0x2000000 0 0 6291456 0
def tooLongSquare : State := big 0x2000000 0 0 6291457 0

theorem witness_SqrNttStoresSquare_completes :
    longestSquare.cfg.Legal ∧ SquareRanges longestSquare ∧ SquareApart longestSquare ∧
      2 * (2 * 6291456) = longestSquare.cfg.nMax ∧ longestSquare.allocOk .sqrNtt = true :=
  ⟨reference_legal, by decide, by decide, by decide, by decide⟩

theorem witness_SqrNttStoresSquare_errors :
    ¬SquareRanges (st 13 0 0 2 0 0) ∧ (SquareRanges (st 1 0 0 2 0 0) ∧ ¬SquareApart (st 1 0 0 2 0 0)) ∧
    (SquareRanges tooLongSquare ∧ SquareApart tooLongSquare ∧ tooLongSquare.cfg.nMax < 2 * (2 * 6291457)) ∧
    SquareRanges (refusing .sqrNtt longestSquare) ∧ SquareApart (refusing .sqrNtt longestSquare) ∧
    (refusing .sqrNtt longestSquare).allocOk .sqrNtt = false := by decide

/-- The rows of `mul`: base case without scratch, the NTT row from 1024 limbs on, and the fallback. -/
abbrev NttRow (s : State) : Prop :=
  s.cfg.kThreshold ≤ min s.na.toNat s.nb.toNat ∧ s.cfg.nThreshold ≤ min s.na.toNat s.nb.toNat ∧
    s.cfg.view.perLimb * (s.na.toNat + s.nb.toNat) ≤ s.cfg.nMax

theorem witness_MulStoresProduct_completes :
    (ProductRanges (refusing .mul (big 5000 0 0 31 32)) ∧ ProductApart (refusing .mul (big 5000 0 0 31 32)) ∧
      31 < Config.reference.kThreshold) ∧
    (ProductRanges (big 5000 0 0 1024 1024) ∧ ProductApart (big 5000 0 0 1024 1024) ∧ NttRow (big 5000 0 0 1024 1024) ∧
      (big 5000 0 0 1024 1024).allocOk .mul = true) ∧
    ¬NttRow (big 5000 0 0 1024 1023) ∧ ProductRanges tooLong ∧ ProductApart tooLong ∧ ¬NttRow tooLong := by decide

theorem witness_MulStoresProduct_errors :
    ¬ProductRanges (st 14 0 2 2 1 0) ∧ (ProductRanges (st 0 0 2 1 1 0) ∧ ¬ProductApart (st 0 0 2 1 1 0)) ∧
    ProductRanges (refusing .mul (big 64 0 0 32 32)) ∧ ProductApart (refusing .mul (big 64 0 0 32 32)) ∧
    ¬(32 < Config.reference.kThreshold ∨ (refusing .mul (big 64 0 0 32 32)).allocOk .mul = true) := by decide

theorem witness_SqrStoresSquare :
    (SquareRanges (refusing .sqr (big 5000 0 0 31 0)) ∧ SquareApart (refusing .sqr (big 5000 0 0 31 0)) ∧
      31 < Config.reference.kThreshold) ∧
    (SquareRanges (big 5000 0 0 1024 1024) ∧ SquareApart (big 5000 0 0 1024 1024) ∧
      (big 5000 0 0 1024 1024).allocOk .sqr = true ∧ 2 * (2 * 1024) ≤ Config.reference.nMax) ∧
    ¬SquareRanges (st 13 0 0 2 0 0) ∧ (SquareRanges (st 1 0 0 2 0 0) ∧ ¬SquareApart (st 1 0 0 2 0 0)) ∧
    (SquareRanges (refusing .sqr (big 64 0 0 32 0)) ∧ SquareApart (refusing .sqr (big 64 0 0 32 0)) ∧
      ¬(32 < Config.reference.kThreshold ∨ (refusing .sqr (big 64 0 0 32 0)).allocOk .sqr = true)) := by decide

abbrev QuotientLen (s : State) : Nat := if s.nb.toNat = 0 then 0 else s.na.toNat - s.nb.toNat + 1
abbrev DivRanges (s : State) : Prop := Ranges3 s s.na.toNat s.nb.toNat (QuotientLen s)
abbrev DivApart (s : State) : Prop :=
  Apart s.rp.toNat (QuotientLen s) s.ap.toNat s.na.toNat ∧ Apart s.rp.toNat (QuotientLen s) s.bp.toNat s.nb.toNat ∧
    Apart s.ap.toNat s.na.toNat s.bp.toNat s.nb.toNat

/-- Scenario 5 of the source, with the quotient at the top of limb memory. -/
def scenario5 : State := st 14 0 4 3 2 0 [0, 0, 1, 9, 1, 1]

/-- A divisor that is not zero but whose top limb is. -/
def zeroTop : State := st 8 0 4 3 2 0 [1, 2, 3, 9, 5, 0]

theorem witness_DivQrStoresQuotientAndRemainder_completes :
    DivRanges scenario5 ∧ DivApart scenario5 ∧ scenario5.valAt 4 2 ≠ 0 ∧ scenario5.limb (4 + (2 - 1)) ≠ 0 ∧
      scenario5.allocOk .divQr = true := by decide

theorem witness_DivQrStoresQuotientAndRemainder_early_errors :
    (1 ≤ (st 8 0 4 1 2 0).nb.toNat ∧ (st 8 0 4 1 2 0).na.toNat < (st 8 0 4 1 2 0).nb.toNat) ∧
    ¬DivRanges (st 15 0 4 3 2 0) ∧ DivRanges (st 2 0 4 3 2 0) ∧ ¬DivApart (st 2 0 4 3 2 0) := by decide

theorem witness_DivQrStoresQuotientAndRemainder_late_errors :
    (DivRanges (st M 0 M 2 0 0) ∧ DivApart (st M 0 M 2 0 0) ∧ (st M 0 M 2 0 0).valAt (M.toNat) 0 = 0) ∧
    (DivRanges zeroTop ∧ DivApart zeroTop ∧ zeroTop.valAt 4 2 ≠ 0 ∧ zeroTop.limb (4 + (2 - 1)) = 0) ∧
    (DivRanges (refusing .divQr scenario5) ∧ DivApart (refusing .divQr scenario5)) ∧
    (refusing .divQr scenario5).valAt 4 2 ≠ 0 ∧ (refusing .divQr scenario5).limb (4 + (2 - 1)) ≠ 0 ∧
    (refusing .divQr scenario5).allocOk .divQr = false := by decide

theorem witness_FirstFailingCheckIsReported_word :
    (pending [.wr 0 0x51]).host = .wr 0 0x51 :: [] ∧ ∀ i, decode 0x51 ≠ .ok i := by
  refine ⟨rfl, ?_⟩
  intro i; cases i <;> decide

theorem witness_FirstFailingCheckIsReported :
    errOf (exec .rshift (st M 0 0 2 0 64)) = some 6 ∧ errOf (exec .mulNtt (st M 0 0 1 1 0)) = some 8 ∧
    errOf (exec .mulNtt (st 0 0 0 1 1 0)) = some 7 ∧ errOf (exec .divrem1 (st 4 0 0 1 0 0)) = some 2 ∧
    errOf (exec .divQr (st 8 0 4 2 2 0 [1, 2, 3, 4, 5, 0])) = some 6 ∧ errOf (exec .mulNtt tooLong) = some 4 ∧
    errOf (exec .divQr (refusing .divQr scenario5)) = some 3 ∧ errOf (exec .divQr scenario5) = some 0 := by decide

theorem witness_WritesAreConfined :
    (∃ t, exec .divrem1 (st 4 0 0 1 0 0) = .next t ∧ t.err ≠ 0) ∧
    ∃ t, exec .addN (st 15 0 0 2 0 0) = .next t ∧ 5 ≤ t.err.toNat := ⟨⟨_, rfl, by decide⟩, _, rfl, by decide⟩

theorem witness_OnlyBoundOperandsAreRead :
    let s := st 4 0 2 2 0 0 [M, M, 1, 0]
    let s' := { s with nb := 9, sc := M }
    s'.cfg = s.cfg ∧ s'.mem = s.mem ∧ s'.free = s.free ∧ (uses .addN).nb = false ∧ (uses .addN).sc = false ∧
      (s'.rp = s.rp ∧ s'.ap = s.ap ∧ s'.bp = s.bp ∧ s'.na = s.na) ∧
      (∃ t, exec .addN s = .next t) ∧ ∃ t, exec .addN s' = .next t :=
  ⟨rfl, rfl, rfl, rfl, rfl, ⟨rfl, rfl, rfl, rfl⟩, ⟨_, rfl⟩, _, rfl⟩

theorem witness_NothingElseIsRead :
    let s := st 4 0 2 2 0 0 [M, M, 1, 0]
    (∃ t, exec .addN s = .next t) ∧
      ∃ t, exec .addN { s with cmd := 1, ret := 1, status := 3, err := 2, tw := [(1, 64)] } = .next t :=
  ⟨⟨_, rfl⟩, _, rfl⟩

/-- Program P5 at its first command. -/
def firstNtt : State := pending [.wr 0 0x30] (st 4 0 0 1 1 0 [M])

theorem witness_TablesOnlyGrow :
    firstNtt.host.head? ≠ some .reset ∧ firstNtt.tw = [] ∧
    (match step firstNtt with | .next t => t.tw | _ => []) = [(1, 64), (2, 64), (3, 64)] := by decide +kernel

theorem witness_ArithmeticIdentitiesHold :
    [errOf (exec .addN (st 4 0 2 2 0 0 [M, M, 1, 0])), errOf (exec .subN (st 4 0 2 2 0 0 [5, 7, 6, 2])),
      errOf (exec .add1 (st 4 0 0 2 0 2 [M, 1])), errOf (exec .sub1 (st 4 0 0 2 0 1 [0, 1])),
      errOf (exec .mul1 (st 4 0 0 2 0 M [M, M])), errOf (exec .addmul1 (st 0 2 0 2 0 5 [1, 2, 3, 4])),
      errOf (exec .submul1 (st 0 2 0 2 0 5 [100, 50, 3, 4])), errOf (exec .lshift (st 4 0 0 2 0 63 [1, 0])),
      errOf (exec .rshift (st 4 0 0 2 0 63 [1, 0])), errOf (exec .divrem1 (st 4 0 0 3 0 10 [0, 0, 1]))]
      = List.replicate 10 (some 0) := by decide

/-- T17: a shift that loses no bit. -/
theorem witness_ShiftsUndoEachOther :
    let s := st 4 0 0 2 0 4 [0x8000000000000001, 3]
    ∃ t v, exec .lshift s = .next t ∧ t.err = 0 ∧ t.ret = 0 ∧
      exec .rshift { t with ap := s.rp, rp := 8 } = .next v ∧ v.err = 0 := ⟨_, _, rfl, by decide, by decide, rfl, by decide⟩

theorem witness_CompareAgreesWithSubtract :
    let s := st 4 0 2 2 0 0 [M, 1, 0, 2]
    ∃ t u v, exec .cmp s = .next t ∧ t.err = 0 ∧ exec .cmp { s with ap := s.bp, bp := s.ap } = .next u ∧
      exec .subN s = .next v ∧ v.err = 0 := ⟨_, _, _, rfl, by decide, rfl, rfl, by decide⟩

/-- P1: two limbs plus one. -/
theorem witness_UnequalAdditionIsExact :
    let s := st 4 0 2 2 1 0 [M, 1, 1]
    s.nb.toNat = 1 ∧ s.na.toNat = 2 ∧ s.Holds 0 [M, 1] ∧ s.Holds 2 [1] ∧
      Apart s.rp.toNat 2 s.ap.toNat 2 ∧ Apart s.rp.toNat 2 s.bp.toNat 1 ∧
      ∃ t v, exec .addN { s with na := s.nb } = .next t ∧ t.err = 0 ∧
        exec .add1 { t with rp := s.rp + s.nb, ap := s.ap + s.nb, na := s.na - s.nb, sc := t.ret } = .next v ∧
        v.err = 0 := by
  refine ⟨rfl, rfl, ?_, ?_, by decide, by decide, _, _, rfl, by decide, rfl, by decide⟩
  · intro i hi
    match i, hi with
    | 0, _ => rfl
    | 1, _ => rfl
  · intro i hi
    match i, hi with
    | 0, _ => rfl

/-- T42. -/
theorem witness_OneLimbDivisionsAgree :
    let s := st 8 0 3 3 1 10 [0, 0, 1, 10]
    s.nb = 1 ∧ 1 ≤ s.na.toNat ∧ s.sc = s.limb s.bp.toNat ∧
      errOf (exec .divQr s) = some 0 ∧ errOf (exec .divrem1 s) = some 0 := by decide

theorem witness_ProductsCommute :
    let s := st 4 0 2 2 1 0 [M, 1, 7]
    let s' := { s with ap := s.bp, bp := s.ap, na := s.nb, nb := s.na }
    s.cfg.Legal ∧ [errOf (exec .mulBasecase s), errOf (exec .mulBasecase s'), errOf (exec .mulNtt s),
      errOf (exec .mulNtt s'), errOf (exec .mul s), errOf (exec .mul s')] = List.replicate 6 (some 0) :=
  ⟨small_legal, by decide⟩

theorem witness_SquaringEquivalence :
    let s := st 4 0 0 2 2 0 [M, 1]
    s.cfg.Legal ∧ s.bp = s.ap ∧ s.nb = s.na ∧
      ([Instr.sqr, .mul, .sqrBasecase, .mulBasecase, .sqrKaratsuba, .mulKaratsuba, .sqrNtt, .mulNtt].map fun i =>
        errOf (exec i s)) = List.replicate 8 (some 0) := ⟨small_legal, rfl, rfl, by decide⟩

theorem witness_ConfigurationIsInvisible :
    let s := st 4 0 0 2 2 0 [M, 1]
    s.cfg.Legal ∧ other.Legal ∧ errOf (exec .mulNtt s) = some 0 ∧
      errOf (exec .mulNtt { s with cfg := other }) = some 0 := ⟨small_legal, other_legal, by decide, by decide⟩

theorem witness_CanonicalMemoryIsDetermined :
    Memory.wf [(0, M), (15, 0)] ∧ Memory.wf (Memory.write [(15, 0)] 0 M) ∧
      ∀ a, Memory.read [(0, M), (15, 0)] a = Memory.read (Memory.write [(15, 0)] 0 M) a :=
  ⟨by decide, by decide, fun _ => rfl⟩

theorem witness_LimbRecurrencesComputeValues : [M, 1].length = 2 ∧ [(2 : Limb), M].length = 2 ∧ 63 ≤ 63 ∧ 1 ≤ 2 ∧ M ≠ 0 := by
  decide

/-- The least length that is split, at the least threshold. -/
theorem witness_KaratsubaRecursionIsExact : 16 ≤ 16 ∧ (List.replicate 16 M).length = 16 := by decide

theorem witness_SelectSizeIsLeastPermitted :
    small.Legal ∧ 25165824 ≤ small.nMax ∧ ¬25165825 ≤ small.nMax ∧ 64 ∈ small.sizes :=
  ⟨small_legal, by decide, by decide, by decide +kernel⟩

theorem witness_ResiduesAreTheConvolution :
    small.Legal ∧ 1 ≤ 3 ∧ 3 ≤ small.primes.length ∧ 64 ∈ small.sizes ∧
      (List.replicate 32 1).length + (List.replicate 32 1).length ≤ 64 ∧ 63 < 64 :=
  ⟨small_legal, by decide, by decide, by decide +kernel, by decide, by decide⟩

theorem witness_ReconstructionIsExact :
    small.Legal ∧ small.primes.prod - 1 < small.primes.prod ∧ 0 < 2 ^ 32 ∧
      [2 ^ 32 - 1, 2 ^ 32].foldr (fun d acc => d + 2 ^ 32 * acc) 0 ≥ (2 ^ 32) ^ 2 ∧
      [2 ^ 33, 1].foldr (fun d acc => d + 2 ^ 32 * acc) 0 < (2 ^ 32) ^ 2 := ⟨small_legal, by decide⟩

/-- R181: the first reference prime, its `p'`, and the largest `T`. -/
theorem witness_RedcDividesByR :
    0 < 754974721 ∧ 754974721 < 2 ^ 32 ∧ (754974721 * 754974719 + 1) % 2 ^ 32 = 0 ∧
      754974721 * 2 ^ 32 - 1 < 754974721 * 2 ^ 32 := by decide

/-- Radix 3 on top of radix 2 modulo 7, where 3 has order 6. -/
theorem witness_ButterfliesComputeTransform :
    1 < 7 ∧ (∀ c ∈ [3, 2], 0 < c) ∧ [6, 0, 1, 5, 2, 3].length = [3, 2].prod ∧ (∀ d ∈ [6, 0, 1, 5, 2, 3], d < 7) ∧
      3 ^ [3, 2].prod % 7 = 1 := by decide

/-- The second pass of T45, where the estimate is capped. -/
theorem witness_DividerPassFindsQuotientLimb :
    let vn : List Limb := [0x8000000000000000, 0x4000000000000000, 0xC000000000000000]
    let low : List Limb := [0, 0x4000000000000000, 0x4000000000000000]
    low.length = vn.length ∧ 1 ≤ vn.length ∧ 2 ^ 63 ≤ (vn.getD (vn.length - 1) 0).toNat ∧
      val low + beta ^ vn.length * (0xC000000000000000 : Limb).toNat < val vn * beta := by decide

theorem witness_SchoolbookDivisionIsExact :
    1 ≤ ([10] : List Limb).length ∧ ([10] : List Limb).length ≤ ([7] : List Limb).length ∧
      ([10] : List Limb).getD 0 0 ≠ 0 := by decide

end Sys2Proof.Tests
end

section
/-! PROOFS. Proofs/State.lean: what one step does, action by action, and the statements about the state, the host's accesses,
reset, the invariant and what commands read. -/

namespace Sys2Proof.Machine

/-! ### One step, action by action -/

/-- The step of an action that starts no command is that action's own. -/
theorem step_of_hostAct {s : State} {act : HostAction} {rest : List HostAction} (h : s.host = act :: rest)
    (hn : act.commandWord = none) : step s = hostAct act { s with host := rest } := by
  simp only [step, h, hn]

/-- The step of a write of `CMD` executes the word (R24, R76). -/
theorem step_of_commandWrite {s : State} {w : Limb} {rest : List HostAction} (h : s.host = .wr 0 w :: rest) :
    step s = execWord w (s.startCommand w rest) := by
  simp only [step, h, HostAction.commandWord]

theorem execWord_of_decode {w : Limb} {i : Instr} (h : decode w = .ok i) (s : State) : execWord w s = exec i s := by
  simp only [execWord, h]

/-- Every word written to `CMD` has a next state (R76). -/
theorem execWord_next (w : Limb) (s : State) : ∃ t, execWord w s = .next t := by
  unfold execWord
  split
  · exact exec_next _ s
  · exact ⟨_, rfl⟩

/-- A command word's execution leaves alone what `Frame` names, whatever the word (R22, R40, R79). -/
theorem execWord_frame {w : Limb} {s t : State} (h : execWord w s = .next t) : Frame s t := by
  unfold execWord at h
  split at h
  · exact exec_frame h
  · injection h with h
    exact h ▸ frame_raise s _ _

theorem step_of_regWrite {s : State} {r : Nat} {v : Limb} {rest : List HostAction} (h : s.host = .wr r v :: rest)
    (hr : 1 ≤ r) : step s = hostAct (.wr r v) { s with host := rest } := by
  refine step_of_hostAct h ?_
  cases r with
  | zero => omega
  | succ r => rfl

/-! ### The register file -/

/-- The block has the sixteen registers of R23 and no other (R30). -/
theorem readReg_isSome_iff (s : State) (r : Nat) : (∃ v, s.readReg r = some v) ↔ r ≤ 15 := by
  refine ⟨fun ⟨v, h⟩ => ?_, fun h => ?_⟩
  · unfold State.readReg at h
    split at h <;> simp_all
  · interval_cases r <;> exact ⟨_, rfl⟩

/-- Every register up to 15 can be written, to some effect or none (R21, R30). -/
theorem writeReg_isSome_iff (s : State) (r : Nat) (v : Limb) : (∃ t, s.writeReg r v = some t) ↔ r ≤ 15 := by
  unfold State.writeReg
  split <;> simp

/-- A write of a read-only register is ignored (R30). -/
theorem writeReg_readOnly (s : State) {r : Nat} (v : Limb) (h7 : 7 ≤ r) (h15 : r ≤ 15) : s.writeReg r v = some s := by
  obtain ⟨t, ht⟩ := (writeReg_isSome_iff s r v).mpr h15
  obtain ⟨-, rfl⟩ := writeReg_spec ht
  rw [ht]
  simp [show r ≠ 1 by omega, show r ≠ 2 by omega, show r ≠ 3 by omega, show r ≠ 4 by omega, show r ≠ 5 by omega,
    show r ≠ 6 by omega]

/-- A write of an operand register is read back (R21). -/
theorem readReg_writeReg_same {s t : State} {r : Nat} {v : Limb} (h : s.writeReg r v = some t) (h1 : 1 ≤ r)
    (h6 : r ≤ 6) : t.readReg r = some v := by
  obtain ⟨-, rfl⟩ := writeReg_spec h
  interval_cases r <;> rfl

/-- No register is aliased to another (R21). -/
theorem readReg_writeReg_other {s t : State} {r q : Nat} {v : Limb} (h : s.writeReg r v = some t) (hq : q ≠ r) :
    t.readReg q = s.readReg q := by
  obtain ⟨-, rfl⟩ := writeReg_spec h
  unfold State.readReg
  split <;> simp [hq.symm]

/-- The registers from 10 on show the configuration and nothing else (R31 to R33). -/
theorem readReg_of_cfg {s t : State} (h : t.cfg = s.cfg) {r : Nat} (hr : 10 ≤ r) : t.readReg r = s.readReg r := by
  unfold State.readReg
  split <;> simp_all

/-- Right after reset the registers that hold no configuration read 0 (R41). -/
theorem readReg_resetOf (c : Config) {r : Nat} (h : r ≤ 9 ∨ r = 15) : (State.resetOf c).readReg r = some 0 := by
  obtain h | rfl := h
  · interval_cases r <;> rfl
  · rfl

/-! ### The configuration registers -/

theorem toNat_ofNat_of_lt {n : Nat} (h : n < beta) : (BitVec.ofNat 64 n).toNat = n :=
  (toNat_ofNat_limb n).trans (Nat.mod_eq_of_lt h)

/-- The constants of a legal configuration fit their registers (R32, R33, R50). -/
theorem registers_fit {c : Config} (h : c.Legal) :
    c.kThreshold < beta ∧ c.nThreshold < beta ∧ c.nMax < beta ∧ c.memLimbs < beta := by
  obtain ⟨ht, hm, -, hn, -⟩ := h.checks
  simp only [Config.thresholdsOk, Config.memLimbsOk, Config.nMaxOk, Bool.and_eq_true, decide_eq_true_eq] at ht hm hn
  unfold beta at *
  omega

theorem primes_length {c : Config} (h : c.Legal) : c.primes.length = c.view.primeCount := by
  obtain ⟨-, -, hp, -⟩ := h.checks
  simp only [Config.primesOk, Bool.and_eq_true, beq_iff_eq] at hp
  exact hp.1.1

/-- `N_max` of the 32-bit view (R10): `3·2^23`. -/
theorem nMax_of_v32 {c : Config} (h : c.view = .v32) : c.nMax = 25165824 := by
  rw [Config.nMax, h]; rfl

/-- The fields of `CFG_ID` (R31), in either view. -/
theorem idWord_fields {c : Config} (h : c.Legal) :
    (idWord c).toNat % 2 ^ 8 = 64 ∧ (idWord c).toNat / 2 ^ 8 % 2 ^ 8 = c.view.width ∧
    (idWord c).toNat / 2 ^ 16 % 2 ^ 8 = c.primes.length ∧ (idWord c).toNat / 2 ^ 24 % 2 ^ 8 = 1 ∧
    (idWord c).toNat / 2 ^ 32 = 0 := by
  rw [primes_length h, idWord]
  cases c.view <;> decide

/-! ### Which steps go on -/

/-- An action that starts no command has a next state exactly when the block has what it names (R30, R34). -/
theorem hostAct_next_iff (act : HostAction) (s : State) :
    (∃ t, hostAct act s = .next t) ↔ act.onBlock s.cfg := by
  cases act with
  | wr r v =>
    rw [HostAction.onBlock, ← writeReg_isSome_iff s r v, hostAct]
    cases s.writeReg r v <;> simp
  | rd r =>
    rw [HostAction.onBlock, ← readReg_isSome_iff s r, hostAct]
    cases s.readReg r <;> simp
  | st a v => simp only [hostAct, HostAction.onBlock]; split <;> simp [*]
  | ld a => simp only [hostAct, HostAction.onBlock]; split <;> simp [*]
  | reset => simp [hostAct, HostAction.onBlock]

/-- Only a write of register 0 starts a command (R24). -/
theorem commandWord_eq_some {act : HostAction} {w : Limb} : act.commandWord = some w ↔ act = .wr 0 w := by
  cases act with
  | wr r v => cases r <;> simp [HostAction.commandWord]
  | _ => simp [HostAction.commandWord]

/-- A step has a next state exactly when it is safe. -/
theorem step_next_iff (s : State) : (∃ t, step s = .next t) ↔ s.Safe := by
  unfold State.Safe
  cases hs : s.host with
  | nil => simp [step, hs]
  | cons act rest =>
    suffices h : (∃ t, step s = .next t) ↔ act.onBlock s.cfg by simpa using h
    cases hw : act.commandWord with
    | none => rw [step_of_hostAct hs hw]; exact hostAct_next_iff act _
    | some w =>
      obtain rfl := commandWord_eq_some.mp hw
      rw [step_of_commandWrite hs]
      exact iff_of_true (execWord_next w _) (Nat.zero_le 15)

/-- What an action that starts no command leaves alone, if it is no reset (R38, R40, R290). -/
theorem hostAct_keeps {act : HostAction} {s t : State} (h : hostAct act s = .next t) :
    (act = .reset ∧ t = s.platformReset) ∨
      t.cfg = s.cfg ∧ t.tw = s.tw ∧ t.cmd = s.cmd ∧ t.ret = s.ret ∧ t.status = s.status ∧ t.err = s.err := by
  obtain ⟨r, v, -, hw⟩ | ⟨r, v, -, -, rfl⟩ | ⟨a, v, -, -, rfl⟩ | ⟨a, -, -, rfl⟩ | hreset := hostAct_cases h
  · obtain ⟨-, rfl⟩ := writeReg_spec hw
    exact .inr ⟨rfl, rfl, rfl, rfl, rfl, rfl⟩
  · exact .inr ⟨rfl, rfl, rfl, rfl, rfl, rfl⟩
  · exact .inr ⟨rfl, rfl, rfl, rfl, rfl, rfl⟩
  · exact .inr ⟨rfl, rfl, rfl, rfl, rfl, rfl⟩
  · exact .inl hreset

/-- No step changes the configuration (R40). -/
theorem step_cfg {s t : State} (h : step s = .next t) : t.cfg = s.cfg := by
  obtain ⟨-, rfl⟩ | ⟨w, rest, i, -, -, he⟩ | ⟨w, rest, e, -, -, rfl⟩ | ⟨act, rest, -, -, ha⟩ := step_cases h
  · rfl
  · exact (exec_frame he).cfg
  · rfl
  · obtain ⟨-, rfl⟩ | ⟨hcfg, -⟩ := hostAct_keeps ha
    · rfl
    · exact hcfg

/-! ### The invariant, step by step -/

/-- Starting a command touches nothing the invariant speaks of. -/
theorem inv_startCommand {s : State} (h : s.Inv) (w : Limb) (rest : List HostAction) : (s.startCommand w rest).Inv :=
  inv_of_same h rfl rfl rfl rfl rfl rfl

theorem inv_exec {i : Instr} {s t : State} (h : s.Inv) (he : exec i s = .next t) : t.Inv := by
  obtain ⟨e, hc, rfl⟩ | ⟨eff, rfl, hf, hw, -, ht⟩ := exec_cases he
  · exact inv_raise h e _ hc.1
  · exact inv_complete h hf hw ht

/-- A host store keeps limb memory canonical and inside the block. -/
theorem inv_hostStore {s : State} (h : s.Inv) {a : Nat} (ha : a < s.cfg.memLimbs) (v : Limb) :
    { s with mem := s.mem.write a v }.Inv :=
  { h with
    canonical := Memory.wf_write h.canonical a v
    inside := Memory.below_write h.inside ha v }

theorem inv_platformReset {s : State} (h : s.Inv) : s.platformReset.Inv :=
  inv_of_same (inv_resetOf h.legal) rfl rfl rfl rfl rfl rfl

theorem inv_hostAct {act : HostAction} {s t : State} (h : s.Inv) (ha : hostAct act s = .next t) : t.Inv := by
  obtain ⟨r, v, -, hw⟩ | ⟨r, v, -, -, rfl⟩ | ⟨a, v, -, hin, rfl⟩ | ⟨a, -, -, rfl⟩ | ⟨-, rfl⟩ := hostAct_cases ha
  · obtain ⟨-, rfl⟩ := writeReg_spec hw
    exact inv_of_same h rfl rfl rfl rfl rfl rfl
  · exact inv_of_same h rfl rfl rfl rfl rfl rfl
  · exact inv_hostStore h hin v
  · exact inv_of_same h rfl rfl rfl rfl rfl rfl
  · exact inv_platformReset h

/-! ### The twiddle tables -/

/-- The commands that can make tables present (R166). -/
def buildsTables : Instr → Bool
  | .mulNtt | .sqrNtt | .mul | .sqr => true
  | _ => false

/-- A run leaves the tables as they are, or completes and adds those of its effect. -/
theorem run_tw {s t : State} {i : Instr} {late : Operands → Option ErrorKind} {eff : Operands → Effect}
    (h : s.run i late eff = .next t) : t.tw = s.tw ∨ t.err = 0 ∧ t.tw = addTables s.tw (eff s.operands).tables := by
  obtain ⟨e, -, hr⟩ | ⟨-, -, hr⟩ := run_cases s i late eff <;> obtain rfl := Host.Outcome.next.inj (hr.symm.trans h)
  · exact .inl rfl
  · exact .inr ⟨rfl, rfl⟩

/-- A command adds tables only if it is one of the four and ends without error; it takes none away (R38, R166, R322). -/
theorem exec_tw {i : Instr} {s t : State} (h : exec i s = .next t) :
    t.tw = s.tw ∨ t.err = 0 ∧ buildsTables i = true ∧ ∃ ts, t.tw = addTables s.tw ts := by
  cases i <;> rw [exec] at h
  case mulNtt | sqrNtt | mul | sqr => exact (run_tw h).imp_right fun ⟨he, ht⟩ => ⟨he, rfl, _, ht⟩
  all_goals exact .inl ((run_tw h).elim id And.right)

/-- A decoded word has the command's opcode as its value: nothing stands above it (R75, R77). -/
theorem toNat_of_decode {w : Limb} {i : Instr} (h : decode w = .ok i) : w.toNat = i.opcode.toNat := by
  have opcodes : ∀ row ∈ opcodeMap, row.1 = row.2.opcode.toNat := by decide
  unfold decode at h
  split at h
  · simp at h
  · next hr =>
    split at h
    · next j hj =>
      injection h with h
      subst h
      obtain ⟨row, hf, rfl⟩ := Option.map_eq_some_iff.mp hj
      have hop : row.1 = opcodeField w := by simpa using List.find?_some hf
      have := opcodes row (List.mem_of_find?_eq_some hf)
      simp only [reservedField, opcodeField] at hr hop
      omega
    · simp at h

/-- The words of the commands that can make tables present (R77). -/
theorem word_of_buildsTables {w : Limb} {i : Instr} (h : decode w = .ok i) (hi : buildsTables i = true) :
    w = 0x30 ∨ w = 0x31 ∨ w = 0x40 ∨ w = 0x41 := by
  have hw := toNat_of_decode h
  simp only [← BitVec.toNat_inj, hw]
  revert hi
  cases i <;> decide

/-- What a step but a reset does to the tables: nothing, or it adds some as R166 says. -/
theorem step_tw {s t : State} (h : step s = .next t) (hr : s.host.head? ≠ some .reset) :
    t.tw = s.tw ∨ (∃ ts, t.tw = addTables s.tw ts) ∧ t.err = 0 ∧
      ∃ w, s.host.head? = some (.wr 0 w) ∧ (w = 0x30 ∨ w = 0x31 ∨ w = 0x40 ∨ w = 0x41) := by
  obtain ⟨-, rfl⟩ | ⟨w, rest, i, hs, hd, he⟩ | ⟨w, rest, e, -, -, rfl⟩ | ⟨act, rest, hs, -, ha⟩ := step_cases h
  · exact .inl rfl
  · exact (exec_tw he).imp_right fun ⟨herr, hi, ht⟩ => ⟨ht, herr, w, by rw [hs]; rfl, word_of_buildsTables hd hi⟩
  · exact .inl rfl
  · obtain ⟨rfl, -⟩ | ⟨-, htw, -⟩ := hostAct_keeps ha
    · exact absurd (by rw [hs]; rfl) hr
    · exact .inl htw

/-! ### What a command reads -/

/-- The part of the state the command `i` may read (R22, R78): the configuration, limb memory, the counter of free values,
and the operand registers its row of R78 names; everything else is as after reset. -/
def State.readBy (s : State) (i : Instr) : State :=
  { State.resetOf s.cfg with
    mem := s.mem
    free := s.free
    rp := if (uses i).rp then s.rp else 0
    ap := if (uses i).ap then s.ap else 0
    bp := if (uses i).bp then s.bp else 0
    na := if (uses i).na then s.na else 0
    nb := if (uses i).nb then s.nb else 0
    sc := if (uses i).sc then s.sc else 0 }

@[simp] theorem State.readBy_mem (s : State) (i : Instr) : (s.readBy i).mem = s.mem := rfl
@[simp] theorem State.readBy_free (s : State) (i : Instr) : (s.readBy i).free = s.free := rfl

theorem registerFailure_readBy (i : Instr) (s : State) :
    registerFailure i (s.readBy i).cfg (s.readBy i).operands = registerFailure i s.cfg s.operands := by
  cases i <;> rfl

theorem outputs_readBy (i : Instr) (s : State) : outputs i (s.readBy i).operands = outputs i s.operands := by
  cases i <;> rfl

/-- A command's late checks and its effect are functions of what it may read: in the meaning of each command a register that
its row of R78 does not name, and a field that `readBy` drops, do not occur. -/
theorem exec_run_readBy (i : Instr) : ∃ (late : State → Operands → Option ErrorKind) (eff : State → Operands → Effect),
    (∀ s, exec i s = s.run i (late s) (eff s)) ∧
    (∀ s, late (s.readBy i) (s.readBy i).operands = late s s.operands) ∧
    ∀ s, eff (s.readBy i) (s.readBy i).operands = eff s s.operands := by
  cases i <;> simp only [exec] <;> exact ⟨_, _, fun _ => rfl, fun _ => rfl, fun _ => rfl⟩

theorem run_eq_finish (s : State) (i : Instr) (late : Operands → Option ErrorKind) (eff : Operands → Effect) :
    s.run i late eff = s.finish ((registerFailure i s.cfg s.operands).or (late s.operands)) (outputs i s.operands)
      fun _ => eff s.operands := by
  simp only [State.run]
  cases registerFailure i s.cfg s.operands <;> rfl

/-- How a command ends is a function of what it may read: the error it raises, the ranges that error clears, and the
effect. -/
theorem exec_finish_readBy (i : Instr) :
    ∃ (failure : State → Option ErrorKind) (outs : State → List Extent) (eff : State → Effect),
      ∀ s, exec i s = s.finish (failure (s.readBy i)) (outs (s.readBy i)) fun _ => eff (s.readBy i) := by
  obtain ⟨late, eff, hrun, hlate, heff⟩ := exec_run_readBy i
  refine ⟨fun r => (registerFailure i r.cfg r.operands).or (late r r.operands), fun r => outputs i r.operands,
    fun r => eff r r.operands, fun s => ?_⟩
  simp only [hrun, run_eq_finish, registerFailure_readBy, outputs_readBy, hlate, heff]

/-- Two states of which the command may read the same end alike. -/
theorem exec_of_readBy_eq {i : Instr} {s s' t t' : State} (hr : s'.readBy i = s.readBy i) (h : exec i s = .next t)
    (h' : exec i s' = .next t') :
    t'.mem = t.mem ∧ (t.err = 0 → t'.ret = t.ret) ∧ t'.status = t.status ∧ t'.err = t.err ∧
      (s'.tw = s.tw → t'.tw = t.tw) := by
  have hmem : s'.mem = s.mem := by simpa using congrArg State.mem hr
  have hfree : s'.free = s.free := by simpa using congrArg State.free hr
  obtain ⟨failure, outs, eff, hexec⟩ := exec_finish_readBy i
  rw [hexec] at h h'
  rw [hr] at h'
  revert h h'
  cases failure (s.readBy i) with
  | some e =>
    rintro ⟨⟩ ⟨⟩
    simp [hmem, hfree]
  | none =>
    rintro ⟨⟩ ⟨⟩
    simp +contextual [hmem]

end Sys2Proof.Machine

section
open Sys2Proof Sys2Proof.Machine

/-- Settles O15, by the cases of a step: each of them keeps the invariant. -/
theorem stepKeepsInvariant : Obligations.StepKeepsInvariant := by
  intro s t hinv h
  obtain ⟨-, rfl⟩ | ⟨w, rest, i, -, -, he⟩ | ⟨w, rest, e, -, -, rfl⟩ | ⟨act, rest, -, -, ha⟩ := step_cases h
  · exact hinv
  · exact inv_exec (inv_startCommand hinv w rest) he
  · exact inv_raise (inv_startCommand hinv w rest) .illegalCommand [] (by decide)
  · exact inv_hostAct (s := { s with host := rest }) (inv_of_same hinv rfl rfl rfl rfl rfl rfl) ha

/-- Settles O8: the block's registers and limbs are those its host actions can name. -/
theorem stepsThatGoOn : Obligations.StepsThatGoOn :=
  ⟨fun s => (step_next_iff s).symm, fun s h => by simp [step, h]⟩

/-- Settles O38: the frame of a command, and that its end is a function of what it may read. -/
theorem onlyBoundOperandsAreRead : Obligations.OnlyBoundOperandsAreRead := by
  refine ⟨fun s w rest t hs h => ?_, fun i s s' t t' hcfg hmem hfree hrp hap hbp hna hnb hsc h h' => ?_⟩
  · rw [step_of_commandWrite hs] at h
    obtain ⟨-, -, hrp, hap, hbp, hna, hnb, hsc, -, -⟩ := execWord_frame h
    exact ⟨hrp, hap, hbp, hna, hnb, hsc⟩
  · refine exec_of_readBy_eq ?_ h h'
    simp only [State.readBy, hcfg, hmem, hfree]
    congr 1
    · exact ite_congr rfl hrp fun _ => rfl
    · exact ite_congr rfl hap fun _ => rfl
    · exact ite_congr rfl hbp fun _ => rfl
    · exact ite_congr rfl hna fun _ => rfl
    · exact ite_congr rfl hnb fun _ => rfl
    · exact ite_congr rfl hsc fun _ => rfl

/-- Settles O39: what it changes is no part of what a command may read. -/
theorem nothingElseIsRead : Obligations.NothingElseIsRead := by
  intro i s t t' cmd ret status err tw h h'
  have hr : State.readBy { s with cmd := cmd, ret := ret, status := status, err := err, tw := tw } i = s.readBy i := rfl
  obtain ⟨hmem, hret, hstatus, herr, -⟩ := exec_of_readBy_eq hr h h'
  exact ⟨hmem, hret, hstatus, herr⟩

/-- Settles O40, from what a step does to the tables. -/
theorem tablesOnlyGrow : Obligations.TablesOnlyGrow := by
  intro s t h hr
  obtain heq | ⟨⟨ts, hts⟩, hend⟩ := step_tw h hr
  · exact ⟨fun x hx => heq ▸ hx, fun x hx hn => absurd (heq ▸ hx) hn⟩
  · refine ⟨fun x hx => ?_, fun _ _ _ => hend⟩
    rw [hts]
    exact (mem_foldr_insertTable ts s.tw x).mpr (.inr hx)

/-- Settles O3: the state of R76 step 1 is the one `startCommand` makes. -/
theorem stepRunsTheCommand : Obligations.StepRunsTheCommand :=
  fun _ _ _ _ hs hd => (step_of_commandWrite hs).trans (execWord_of_decode hd _)

/-- Settles O9: writes of operand registers are read back, writes of read-only ones are ignored. -/
theorem hostWritesRegisters : Obligations.HostWritesRegisters := by
  intro s r v rest hs
  refine ⟨fun h1 h6 => ?_, fun h7 h15 => ?_⟩
  · obtain ⟨t, ht⟩ := (writeReg_isSome_iff { s with host := rest } r v).mpr (by omega)
    refine ⟨t, ?_, readReg_writeReg_same ht h1 h6, fun q => readReg_writeReg_other (s := { s with host := rest }) ht, ?_⟩
    · simp only [step_of_regWrite hs h1, hostAct, ht]
    · obtain ⟨-, rfl⟩ := writeReg_spec ht
      exact ⟨rfl, rfl, rfl, rfl⟩
  · simp only [step_of_regWrite hs (by omega), hostAct, writeReg_readOnly _ v h7 h15]

/-- Settles O10: the configuration registers are fields of the configuration, and legality makes them fit. -/
theorem hostReadsConfiguration : Obligations.HostReadsConfiguration := by
  refine ⟨fun s r rest hs hr => ?_, fun s hl => ?_⟩
  · obtain ⟨v, hv⟩ := (readReg_isSome_iff s r).mpr hr
    refine ⟨v, hv, ?_⟩
    have hv' : State.readReg { s with host := rest } r = some v := hv
    simp only [step_of_hostAct hs rfl, hostAct, hv']
  · obtain ⟨hW, hWI, hcount, hversion, hzero⟩ := idWord_fields hl
    obtain ⟨hk, hn, hmax, hmem⟩ := registers_fit hl
    exact ⟨⟨_, rfl, hW, hWI, hcount, hversion, hzero⟩, ⟨_, rfl, toNat_ofNat_of_lt hk⟩,
      ⟨_, rfl, toNat_ofNat_of_lt hn⟩, ⟨_, rfl, toNat_ofNat_of_lt hmax⟩,
      ⟨_, rfl, toNat_ofNat_of_lt hmem⟩, rfl, nMax_of_v32, fun hc => by rw [State.readReg, hc]; rfl,
      fun t h r hr => readReg_of_cfg (step_cfg h) hr⟩

/-- Settles O11: a store is a write of limb memory, a load reads the specified value. -/
theorem hostStoresAndLoads : Obligations.HostStoresAndLoads := by
  refine ⟨fun s a v rest hs ha => ?_, fun s a v rest hs ha hv => ?_⟩
  · refine ⟨{ s with host := rest, mem := s.mem.write a v }, ?_, ?_, fun b hb => ?_, fun _ => rfl, rfl, rfl⟩
    · simp only [step_of_hostAct hs rfl, hostAct, if_pos ha]
    · simp [Memory.read_write]
    · have : b ≠ a := by have := hb (a, 1) List.mem_cons_self; omega
      simp [Memory.read_write, this]
  · refine ⟨{ s with host := rest, rdata := v, free := s.free + 1 }, ?_, rfl, rfl, fun _ => rfl, rfl, rfl⟩
    simp [step_of_hostAct hs rfl, hostAct, if_pos ha, State.limb, hv]

/-- Settles O12, register by register and table by table. -/
theorem resetLeavesStatedValues : Obligations.ResetLeavesStatedValues := by
  refine fun c => ⟨fun r hr => readReg_resetOf c hr, rfl, rfl, rfl, rfl, rfl, fun _ => rfl, fun i n => ?_⟩
  rw [State.resetOf_tw]
  split <;> simp [mem_allTables, *]

/-- Settles O14; that the reference configuration is legal is `reference_legal`. -/
theorem resetKeepsInvariant : Obligations.ResetKeepsInvariant :=
  ⟨fun _ => inv_resetOf, rfl, inv_resetOf reference_legal⟩

end
end

section
/-! PROOFS. Proofs/Memory.lean: which limbs a command can change, and the internal view of a limb array. -/

namespace Sys2Proof.Machine

/-! ### Limbs a command can change -/

/-- Memory kept outside some ranges is kept outside any ranges that cover them. -/
theorem MemoryKeptOutside.mono {s t : State} {ranges covers : List (Nat × Nat)} (h : MemoryKeptOutside s t ranges)
    (hc : ∀ r ∈ ranges, ∃ c ∈ covers, c.1 ≤ r.1 ∧ r.1 + r.2 ≤ c.1 + c.2) : MemoryKeptOutside s t covers := by
  refine fun a ha => h a fun r hr => ?_
  obtain ⟨c, hmem, hlow, hhigh⟩ := hc r hr
  have := ha c hmem
  omega

/-- The codes from 5 on leave limb memory as it is (R301). -/
theorem ErrorKind.clobbers_eq_false {e : ErrorKind} (h : 5 ≤ e.code) : e.clobbers = false := by
  cases e with
  | illegalCommand | badOperand | aliasViolation | addressRange => rfl
  | parseError | divisionByZero | allocationFailure | sizeLimit => simp [ErrorKind.code] at h

/-- An error clears no limb outside the command's write ranges (R301). -/
theorem memoryKept_raise (s : State) (e : ErrorKind) (outs : List Extent) :
    MemoryKeptOutside s (s.raise e outs) (pairsOf outs) := by
  refine (errored_raise s e outs).memory.mono fun r hr => ?_
  cases hc : e.clobbers with
  | true => exact ⟨r, by simpa [hc] using hr, le_rfl, le_rfl⟩
  | false => simp [hc] at hr

/-- Stores that lie in the write ranges change no limb outside them (R63). -/
theorem memoryKept_complete {s : State} {eff : Effect} {outs : List Extent}
    (hin : ∀ w ∈ eff.stores, storeInside w outs)
    (hs : eff.stores.Pairwise fun x y => ∀ b, x.1 ≤ b ∧ b < x.1 + x.2.length → ¬(y.1 ≤ b ∧ b < y.1 + y.2.length)) :
    MemoryKeptOutside s (s.complete eff) (pairsOf outs) := by
  refine (completed_complete s eff hs).memory.mono fun r hr => ?_
  obtain ⟨w, hw, rfl⟩ := List.mem_map.mp hr
  obtain ⟨e, he, hlow, hhigh⟩ := hin w hw
  exact ⟨(e.ptr, e.len), List.mem_map_of_mem he, hlow, hhigh⟩

/-- However a command ends, it changes no limb outside its write ranges (R63, R301). -/
theorem exec_memoryKept {i : Instr} {s t : State} (h : exec i s = .next t) :
    MemoryKeptOutside s t (pairsOf (outputs i s.operands)) := by
  obtain ⟨e, -, rfl⟩ | ⟨eff, rfl, -, hin, hs, -⟩ := exec_cases h
  · exact memoryKept_raise s e _
  · exact memoryKept_complete hin hs

/-- A command with an error code has raised an error of that code. -/
theorem exec_raised {i : Instr} {s t : State} (h : exec i s = .next t) (herr : t.err ≠ 0) :
    ∃ e : ErrorKind, t = s.raise e (outputs i s.operands) := by
  obtain ⟨e, -, ht⟩ | ⟨eff, rfl, -⟩ := exec_cases h
  · exact ⟨e, ht⟩
  · exact absurd rfl herr

/-! ### The internal view -/

theorem digitVal_eq_foldr (B : Nat) (l : List Nat) : digitVal B l = l.foldr (fun d acc => d + B * acc) 0 := by
  induction l with
  | nil => rfl
  | cons x xs ih => simp only [digitVal, List.foldr_cons, ih]

/-- Packing the view of an array gives a list of the array's length and value, so the array (R54, R175). -/
theorem pack_internalView (v : NttView) (a : List Limb) : pack v (internalView v a) = a := by
  obtain ⟨hlen, hval⟩ := pack_spec v a.length _ (internalView_length v a) (internalView_lt v a)
  exact eq_of_val_eq hlen (hval.trans (internalView_val v a))

end Sys2Proof.Machine

section
open Sys2Proof Sys2Proof.Machine

/-- Settles O37: the stores of a command, and what an error clears, lie in its write ranges. -/
theorem writesAreConfined : Obligations.WritesAreConfined := by
  refine fun i s t h => ⟨exec_memoryKept h, exec_frame h, fun herr => ?_⟩
  obtain ⟨e, rfl⟩ := exec_raised h herr
  obtain ⟨hcode, hstatus, htw, -, -⟩ := errored_raise s e (outputs i s.operands)
  refine ⟨htw, hstatus, fun h5 a => ?_⟩
  simp [ErrorKind.clobbers_eq_false (hcode ▸ h5)]

/-- Settles O53, from the laws of the view and of packing. -/
theorem internalViewKeepsValue : Obligations.InternalViewKeepsValue := fun v a =>
  ⟨internalView_length v a, internalView_lt v a, (digitVal_eq_foldr _ _).symm.trans (internalView_val v a),
    pack_internalView v a⟩

end
end

section
/-! PROOFS. Proofs/Encoding.lean: the decoder inverts the encoder, how every write of `CMD` ends, and addition of unequal
lengths. -/

namespace Sys2Proof

/-! ### Decoder and encoder -/

/-- The word of a command has the command's opcode as its value (R75). -/
theorem encode_toNat (i : Instr) : (encode i).toNat = i.opcode.toNat :=
  BitVec.toNat_setWidth_of_le (by decide)

theorem decode_encode (i : Instr) : decode (encode i) = .ok i := by
  cases i <;> decide

/-- A word decodes to a command exactly when it is the command's own word (R75, R77). -/
theorem decode_eq_ok_iff {w : Limb} {i : Instr} : decode w = .ok i ↔ w = encode i := by
  refine ⟨fun h => BitVec.eq_of_toNat_eq ?_, fun h => h ▸ decode_encode i⟩
  rw [Machine.toNat_of_decode h, encode_toNat]

/-- The word of a command has bits 63:8 clear and an opcode R77 assigns. -/
theorem encode_fields (i : Instr) :
    (encode i).toNat / 2 ^ 8 = 0 ∧ (encode i).toNat % 2 ^ 8 ∈ assignedOpcodes := by
  cases i <;> decide

/-- A word with one of bits 63:8 set, or with an unassigned opcode, is no command (R79). -/
theorem decode_error {w : Limb} (h : w.toNat / 2 ^ 8 ≠ 0 ∨ w.toNat % 2 ^ 8 ∉ assignedOpcodes) :
    ∃ e, decode w = .error e := by
  cases hd : decode w with
  | error e => exact ⟨e, rfl⟩
  | ok i =>
    obtain rfl := decode_eq_ok_iff.mp hd
    obtain ⟨hzero, hop⟩ := encode_fields i
    obtain h | h := h
    · exact absurd hzero h
    · exact absurd hop h

end Sys2Proof

namespace Sys2Proof.Machine

/-! ### How a write of `CMD` ends -/

theorem execWord_of_decode_error {w : Limb} {e : DecodeError} (h : decode w = .error e) (s : State) :
    execWord w s = .next s.illegal := by
  simp only [execWord, h]

/-- The two ends of a command: `STATUS` and `ERR` after completion, and after an error of code 2 to 8 (R28, R29, R291). -/
def State.Ended (t : State) : Prop :=
  (t.status = 1 ∧ t.err = 0) ∨ (t.status = 3 ∧ 2 ≤ t.err.toNat ∧ t.err.toNat ≤ 8)

theorem ended_complete (s : State) (eff : Effect) : (s.complete eff).Ended := .inl ⟨rfl, rfl⟩

/-- Every error but ParseError, which the block never raises (R292), has one of the codes 2 to 8. -/
theorem ended_raise (s : State) {e : ErrorKind} (he : e ≠ .parseError) (outs : List Extent) :
    (s.raise e outs).Ended := by
  refine .inr ⟨rfl, ?_⟩
  rw [(errored_raise s e outs).err]
  cases e <;> simp [ErrorKind.code] at he ⊢

theorem exec_ended {i : Instr} {s t : State} (h : exec i s = .next t) : t.Ended := by
  obtain ⟨e, ⟨he, -⟩, rfl⟩ | ⟨eff, rfl, -⟩ := exec_cases h
  · exact ended_raise s he _
  · exact ended_complete s eff

/-- Every word ends as a command does: one that is no command in IllegalCommand (R76, R79). -/
theorem execWord_ended {w : Limb} {s t : State} (h : execWord w s = .next t) : t.Ended := by
  cases hd : decode w with
  | ok i => exact exec_ended ((execWord_of_decode hd s).symm.trans h)
  | error e =>
    obtain rfl := Host.Outcome.next.inj ((execWord_of_decode_error hd s).symm.trans h)
    exact ended_raise s (by decide) []

/-! ### Arrays in limb memory -/

/-- Two arrays on end are one array. -/
theorem State.Holds.append {t : State} {p : Nat} {l m : List Limb} (hl : t.Holds p l) (hm : t.Holds (p + l.length) m) :
    t.Holds p (l ++ m) := by
  intro i hi
  obtain h | h := Nat.lt_or_ge i l.length
  · rw [List.getElem_append_left h]
    exact hl i h
  · have := hm (i - l.length) (by simp at hi; omega)
    rw [List.getElem_append_right h, ← this]
    congr 1
    omega

theorem State.Holds.take {t : State} {p : Nat} {l : List Limb} (h : t.Holds p l) (k : Nat) : t.Holds p (l.take k) := by
  intro i hi
  rw [List.getElem_take]
  exact h i _

theorem State.Holds.drop {t : State} {p : Nat} {l : List Limb} (h : t.Holds p l) (k : Nat) :
    t.Holds (p + k) (l.drop k) := by
  intro i hi
  rw [List.getElem_drop, Nat.add_assoc]
  exact h (k + i) _

/-- An array is kept where every range that may change is apart from it. -/
theorem State.Holds.kept {s t : State} {ranges : List (Nat × Nat)} {p : Nat} {l : List Limb} (h : s.Holds p l)
    (hk : MemoryKeptOutside s t ranges) (ha : ∀ r ∈ ranges, Apart r.1 r.2 p l.length) : t.Holds p l := by
  intro i hi
  rw [← h i hi]
  refine hk _ fun r hr => ?_
  have := ha r hr
  omega

/-- An array of specified limbs has its own value to a command that reads it. -/
theorem State.Holds.valAt_eq {s : State} {p n : Nat} {l : List Limb} (h : s.Holds p l) (hn : l.length = n) :
    s.valAt p n = val l := by
  rw [← hn, State.valAt, memRead_of_read h]

theorem valAt_lt (s : State) (p n : Nat) : s.valAt p n < beta ^ n := by
  simpa using val_lt (s.memRead p n)

/-! ### The two additions -/

/-- A run that ends without error completed with its effect. -/
theorem run_eq_complete {s t : State} {i : Instr} {late : Operands → Option ErrorKind} {eff : Operands → Effect}
    (h : s.run i late eff = .next t) (herr : t.err = 0) : t = s.complete (eff s.operands) := by
  obtain ⟨e, -, hr⟩ | ⟨-, -, hr⟩ := run_cases s i late eff <;> obtain rfl := Host.Outcome.next.inj (hr.symm.trans h)
  · exact absurd herr (errWord_ne_zero e)
  · rfl

/-- The carry of an `n`-limb sum fits a limb, be the second summand an array of `n` limbs or one limb (R102, R106). -/
theorem carry_lt {x y n : Nat} (hx : x < beta ^ n) (hy : y < beta ^ n ∨ y < beta) : (x + y) / beta ^ n < beta := by
  have hbeta : 2 ≤ beta := by decide
  refine Nat.div_lt_of_lt_mul ?_
  obtain hy | hy := hy <;> nlinarith

/-- `add_n` that ends without error stored the sum and returned its carry (R102). -/
theorem completed_addN {s t : State} (h : exec .addN s = .next t) (herr : t.err = 0) :
    Completed s t
      [(s.rp.toNat, limbs (s.valAt s.ap.toNat s.na.toNat + s.valAt s.bp.toNat s.na.toNat) s.na.toNat)]
      ((s.valAt s.ap.toNat s.na.toNat + s.valAt s.bp.toNat s.na.toNat) / beta ^ s.na.toNat) := by
  rw [exec, execAddN] at h
  rw [run_eq_complete h herr]
  exact completed_single rfl (toNat_ofNat_of_lt (carry_lt (valAt_lt s _ _) (.inl (valAt_lt s _ _))))

/-- `add_1` that ends without error stored the sum and returned its carry (R106). -/
theorem completed_add1 {s t : State} (h : exec .add1 s = .next t) (herr : t.err = 0) :
    Completed s t [(s.rp.toNat, limbs (s.valAt s.ap.toNat s.na.toNat + s.sc.toNat) s.na.toNat)]
      ((s.valAt s.ap.toNat s.na.toNat + s.sc.toNat) / beta ^ s.na.toNat) := by
  rw [exec, execAdd1] at h
  rw [run_eq_complete h herr]
  exact completed_single rfl (toNat_ofNat_of_lt (carry_lt (valAt_lt s _ _) (.inr (limb_lt s.sc))))

/-- The sum of two arrays of specified limbs, by `add_n`. -/
theorem completed_addN_of_holds {s t : State} {a b : List Limb} (ha : s.Holds s.ap.toNat a) (hb : s.Holds s.bp.toNat b)
    (hn : s.na.toNat = b.length) (hl : a.length = b.length) (h : exec .addN s = .next t) (herr : t.err = 0) :
    Completed s t [(s.rp.toNat, limbs (val a + val b) b.length)] ((val a + val b) / beta ^ b.length) := by
  have := completed_addN h herr
  rwa [hn, ha.valAt_eq hl, hb.valAt_eq rfl] at this

/-- The sum of an array of specified limbs and a scalar, by `add_1`. -/
theorem completed_add1_of_holds {s t : State} {a : List Limb} (ha : s.Holds s.ap.toNat a) (hn : s.na.toNat = a.length)
    (h : exec .add1 s = .next t) (herr : t.err = 0) :
    Completed s t [(s.rp.toNat, limbs (val a + s.sc.toNat) a.length)] ((val a + s.sc.toNat) / beta ^ a.length) := by
  have := completed_add1 h herr
  rwa [hn, ha.valAt_eq rfl] at this

/-- The low `k` limbs of a sum pass their carry to the `m` limbs above, which pass on the carry of the whole (R83). -/
theorem limbs_add_split (x y k m : Nat) :
    limbs (x + beta ^ k * y) (k + m) = limbs x k ++ limbs (y + x / beta ^ k) m ∧
      (x + beta ^ k * y) / beta ^ (k + m) = (y + x / beta ^ k) / beta ^ m := by
  have hdiv : (x + beta ^ k * y) / beta ^ k = y + x / beta ^ k := by
    rw [Nat.add_mul_div_left _ _ (Nat.pow_pos beta_pos), Nat.add_comm]
  refine ⟨eq_of_val_eq (by simp) ?_, by rw [pow_add, ← Nat.div_div_eq_div_mul, hdiv]⟩
  rw [val_append, limbs_length, val_limbs_mod, val_limbs_mod, val_limbs_mod, pow_add, Nat.mod_mul, hdiv,
    Nat.add_mul_mod_self_left]

end Sys2Proof.Machine

section
open Sys2Proof Sys2Proof.Machine

/-- Settles O2: the word of a command is the only one that decodes to it. -/
theorem decodeIsInverseOfEncode : Obligations.DecodeIsInverseOfEncode :=
  ⟨decode_encode, fun _ _ => decode_eq_ok_iff.mp⟩

/-- Settles O4: such a word does not decode, so its step raises IllegalCommand. -/
theorem illegalWordsRaise : Obligations.IllegalWordsRaise := by
  intro s w rest hs hw
  obtain ⟨e, he⟩ := decode_error hw
  exact ⟨_, (step_of_commandWrite hs).trans (execWord_of_decode_error he _), errored_raise _ .illegalCommand []⟩

/-- Settles O5: a word's execution has a next state, keeps what `Frame` names, and ends in one of the two ways. -/
theorem everyCommandEnds : Obligations.EveryCommandEnds := by
  intro s w rest hs
  obtain ⟨t, ht⟩ := execWord_next w (s.startCommand w rest)
  have hframe := execWord_frame ht
  exact ⟨t, (step_of_commandWrite hs).trans ht, hframe.cmd, hframe.host, execWord_ended ht⟩

/-- Settles O44: the limbs the two commands store, one array above the other, are those of the whole sum. -/
theorem unequalAdditionIsExact : Obligations.UnequalAdditionIsExact := by
  intro s t v a b hle hnb hna ha hb hrp hap hapartA hapartB hadd hterr hadd1 hverr
  have hrpUp : (s.rp + s.nb).toNat = s.rp.toNat + b.length := by
    rw [BitVec.toNat_add_of_lt (hnb ▸ by unfold beta at hrp; omega), hnb]
  have hapUp : (s.ap + s.nb).toNat = s.ap.toNat + b.length := by
    rw [BitVec.toNat_add_of_lt (hnb ▸ by unfold beta at hap; omega), hnb]
  have hnaUp : (s.na - s.nb).toNat = (a.drop b.length).length := by
    rw [BitVec.toNat_sub_of_le (BitVec.le_def.mpr (by omega)), hna, hnb, List.length_drop]
  have hlow := completed_addN_of_holds (s := { s with na := s.nb }) (ha.take b.length) hb hnb
    (List.length_take_of_le hle) hadd hterr
  have hupper : t.Holds (s.ap + s.nb).toNat (a.drop b.length) :=
    hapUp ▸ (ha.drop b.length).kept hlow.memory (by simp; omega)
  have hhigh := completed_add1_of_holds hupper hnaUp hadd1 hverr
  simp only [hrpUp, hlow.ret] at hhigh
  have hsum : val (a.take b.length) + val b + beta ^ b.length * val (a.drop b.length) = val a + val b := by
    rw [← val_take_add_drop a hle]
    omega
  obtain ⟨hlimbs, hcarry⟩ := limbs_add_split (val (a.take b.length) + val b) (val (a.drop b.length)) b.length
    (a.drop b.length).length
  rw [hsum, List.length_drop, Nat.add_sub_of_le hle, ← List.length_drop] at hlimbs hcarry
  refine ⟨?_, hhigh.ret.trans hcarry.symm⟩
  rw [hlimbs]
  have hkept := (hlow.holds _ List.mem_cons_self).kept hhigh.memory (by simp; omega)
  exact hkept.append (by simpa using hhigh.holds)

/-- Settles O1, word by word. -/
theorem commandWordsDecode : Obligations.CommandWordsDecode := by
  unfold Obligations.CommandWordsDecode
  decide

end
end

section
/-! PROOFS. Proofs/LimbPrimitives.lean: unit C1 (R100 to R128): how each of its commands ends, the identities between
its operands and its results, and its limb recurrences. -/

namespace Sys2Proof.Machine

variable {s t : State} {i : Instr} {x y z n k w T : Nat} {D : Int}

/-! ### Bounds of carries and high limbs -/

theorem beta_pow_pos (n : Nat) : 0 < beta ^ n := Nat.pow_pos beta_pos

theorem beta_le_pow (hn : 1 ≤ n) : beta ≤ beta ^ n := Nat.le_self_pow (by omega) beta

theorem beta_eq_two_pow_mul (hk : k ≤ 64) : beta = 2 ^ k * 2 ^ (64 - k) := by
  rw [← pow_add, Nat.add_sub_cancel' hk, beta]

/-- The carry of a sum of two `n`-limb arrays (R102). -/
theorem carry_le_one (hx : x < beta ^ n) (hy : y < beta ^ n) : (x + y) / beta ^ n ≤ 1 :=
  Nat.le_of_lt_succ (Nat.div_lt_of_lt_mul (by omega))

/-- The high limb of an array times a limb (R110). -/
theorem mul_high_le (hx : x < beta ^ n) (hy : y < beta) : x * y / beta ^ n ≤ beta - 2 := by
  have hmul : x * y < beta ^ n * (beta - 1) := calc
    x * y ≤ x * (beta - 1) := Nat.mul_le_mul_left x (by omega)
    _ < beta ^ n * (beta - 1) := Nat.mul_lt_mul_of_pos_right hx (by decide)
  have := Nat.div_lt_of_lt_mul hmul
  omega

/-- The high limb of an array plus an array times a limb (R112). -/
theorem addmul_high_le (hz : z < beta ^ n) (hx : x < beta ^ n) (hy : y < beta) :
    (z + x * y) / beta ^ n ≤ beta - 1 := by
  refine Nat.le_sub_one_of_lt (Nat.div_lt_of_lt_mul ?_)
  calc z + x * y < beta ^ n + beta ^ n * (beta - 1) :=
        Nat.add_lt_add_of_lt_of_le hz (Nat.mul_le_mul hx.le (by omega))
    _ = beta ^ n * beta := by rw [Nat.add_comm, ← Nat.mul_succ]; rfl

/-- The bits a left shift by `k` moves out of an array (R117). -/
theorem shift_high_lt (hx : x < beta ^ n) (k : Nat) : x * 2 ^ k / beta ^ n < 2 ^ k :=
  Nat.div_lt_of_lt_mul (Nat.mul_lt_mul_of_pos_right hx (by positivity))

/-- The borrow of an array less at most an array times a limb is a limb (R108, R114). -/
theorem borrow_range (hz : z < beta ^ n) (hy : y ≤ beta ^ n * (beta - 1)) :
    0 ≤ -(((z : Int) - y) / (beta ^ n : Nat)) ∧ -(((z : Int) - y) / (beta ^ n : Nat)) < beta := by
  have hpos : (0 : Int) < (beta ^ n : Nat) := mod_cast beta_pow_pos n
  zify [beta_pos] at hz hy
  have h1 := Int.ediv_lt_of_lt_mul hpos (show (z : Int) - y < 1 * (beta ^ n : Nat) by push_cast; omega)
  have h2 := Int.le_ediv_of_mul_le hpos (show -(beta - 1 : Int) * (beta ^ n : Nat) ≤ z - y by push_cast; linarith)
  omega

/-- Where the difference of two numbers below `β^n` is negative its borrow is 1 (R104, R108). -/
theorem borrow_eq_ite (hx : x < beta ^ n) (hy : y ≤ beta ^ n) :
    ((if x < y then 1 else 0 : Nat) : Int) = -(((x : Int) - y) / (beta ^ n : Nat)) := by
  have hpos : (0 : Int) < (beta ^ n : Nat) := mod_cast beta_pow_pos n
  split
  · next hlt =>
    have := Int.ediv_eq_neg_one_of_neg_of_le (a := (x : Int) - y) (b := (beta ^ n : Nat)) (by omega) (by omega)
    rw [this]; rfl
  · next hge => rw [Int.ediv_eq_zero_of_lt (by omega) (by omega)]; rfl

/-! ### Totals and differences in `n` limbs -/

/-- The command stored the low `n` limbs of the total `T` and returned what is above them. -/
abbrev StoresTotal (s t : State) (T : Nat) : Prop :=
  Completed s t [(s.rp.toNat, limbs T s.na.toNat)] (T / beta ^ s.na.toNat)

/-- The command stored the `n` limbs of the difference `D` and returned the borrow `w` that makes up for them. -/
abbrev StoresDifference (s t : State) (D : Int) (w : Nat) : Prop :=
  Completed s t [(s.rp.toNat, limbsOfInt D s.na.toNat)] w ∧
    D = (val (limbsOfInt D s.na.toNat) : Int) - w * (beta ^ s.na.toNat : Nat)

/-- An array that a command stored has its list's value to the commands after it. -/
theorem Completed.valAt_eq {p ret : Nat} {l : List Limb} (h : Completed s t [(p, l)] ret) (hn : l.length = n) :
    t.valAt p n = val l :=
  (h.holds _ List.mem_cons_self).valAt_eq hn

theorem StoresTotal.total_eq (h : StoresTotal s t T) :
    T = t.ret.toNat * beta ^ s.na.toNat + t.valAt s.rp.toNat s.na.toNat := by
  rw [h.ret, h.valAt_eq (limbs_length _ _), val_limbs_mod, Nat.div_add_mod']

theorem StoresDifference.difference_eq (h : StoresDifference s t D w) :
    D = (t.valAt s.rp.toNat s.na.toNat : Int) - t.ret.toNat * (beta ^ s.na.toNat : Nat) := by
  rw [h.1.ret, h.1.valAt_eq (limbsOfInt_length _ _)]
  exact h.2

/-- The borrow of a difference is what division rounded down makes it. -/
theorem difference_of_borrow (hw : (w : Int) = -(D / (beta ^ n : Nat))) :
    D = (val (limbsOfInt D n) : Int) - w * (beta ^ n : Nat) := by
  rw [val_limbsOfInt, hw]
  linarith [Int.emod_add_mul_ediv D (beta ^ n : Nat)]

/-- A completed run with a difference for its effect, and `RET` that difference's borrow. -/
theorem storesDifference_complete {eff : Effect} (hs : eff.stores = [(s.rp.toNat, limbsOfInt D s.na.toNat)])
    (hr : eff.ret.toNat = w) (hw : (w : Int) = -(D / (beta ^ s.na.toNat : Nat))) :
    StoresDifference s (s.complete eff) D w :=
  ⟨completed_single hs hr, difference_of_borrow hw⟩

/-- `RET` as `sub_1` and `submul_1` compute it is the borrow itself. -/
theorem toNat_borrow_limb (hz : z < beta ^ n) (hy : y ≤ beta ^ n * (beta - 1))
    (hw : (w : Int) = -(((z : Int) - y) / (beta ^ n : Nat))) :
    (BitVec.ofInt 64 (-(((z : Int) - y) / (beta ^ n : Nat)))).toNat = w := by
  obtain ⟨h0, hlt⟩ := borrow_range hz hy
  have := toNat_ofInt_limb (-(((z : Int) - y) / (beta ^ n : Nat)))
  rw [Int.emod_eq_of_lt h0 hlt] at this
  omega

/-! ### What each command leaves when it ends without error -/

/-- `A`, the value of the first input array. -/
abbrev State.inA (s : State) : Nat := s.valAt s.ap.toNat s.na.toNat

/-- `B`, the value of a second input array of the first one's length. -/
abbrev State.inB (s : State) : Nat := s.valAt s.bp.toNat s.na.toNat

/-- The old value of the output array. -/
abbrev State.oldOut (s : State) : Nat := s.valAt s.rp.toNat s.na.toNat

/-- A run that ends without error passed all its checks (R302). -/
theorem run_checks_passed {late : Operands → Option ErrorKind} {eff : Operands → Effect}
    (h : s.run i late eff = .next t) (herr : t.err = 0) :
    registerFailure i s.cfg s.operands = none ∧ late s.operands = none := by
  obtain ⟨e, -, hr⟩ | ⟨hreg, hlate, -⟩ := run_cases s i late eff
  · obtain rfl := Host.Outcome.next.inj (hr.symm.trans h)
    exact absurd herr (errWord_ne_zero e)
  · exact ⟨hreg, hlate⟩

/-- `sub_n` that ends without error (R104). -/
theorem completed_subN (h : exec .subN s = .next t) (herr : t.err = 0) :
    StoresDifference s t ((s.inA : Int) - s.inB) (if s.inA < s.inB then 1 else 0) := by
  rw [exec, execSubN] at h
  rw [run_eq_complete h herr]
  refine storesDifference_complete rfl ?_ (borrow_eq_ite (valAt_lt s _ _) (valAt_lt s _ _).le)
  exact apply_ite BitVec.toNat _ 1 0

/-- The borrow of `sub_1` (R108). -/
theorem subOne_borrow_eq (hx : x < beta ^ n) (hy : y < beta) :
    ((if n = 0 then y else if x < y then 1 else 0 : Nat) : Int) = -(((x : Int) - y) / (beta ^ n : Nat)) := by
  split
  · next hn =>
    subst hn
    simp at hx
    simp [hx]
  · next hn => exact borrow_eq_ite hx (hy.le.trans (beta_le_pow (by omega)))

/-- `sub_1` that ends without error (R108). -/
theorem completed_sub1 (h : exec .sub1 s = .next t) (herr : t.err = 0) :
    StoresDifference s t ((s.inA : Int) - s.sc.toNat)
      (if s.na.toNat = 0 then s.sc.toNat else if s.inA < s.sc.toNat then 1 else 0) := by
  rw [exec, execSub1] at h
  rw [run_eq_complete h herr]
  have hA := valAt_lt s s.ap.toNat s.na.toNat
  have hsc := limb_lt s.sc
  have hw := subOne_borrow_eq hA hsc
  have hle : s.sc.toNat ≤ beta ^ s.na.toNat * (beta - 1) :=
    (Nat.le_sub_one_of_lt hsc).trans (Nat.le_mul_of_pos_left _ (beta_pow_pos _))
  exact storesDifference_complete rfl (toNat_borrow_limb hA hle hw) hw

/-- `submul_1` that ends without error (R114). -/
theorem completed_submul1 (h : exec .submul1 s = .next t) (herr : t.err = 0) :
    ∃ w, StoresDifference s t ((s.oldOut : Int) - s.inA * s.sc.toNat) w := by
  rw [exec, execSubmul1] at h
  rw [run_eq_complete h herr]
  have hout := valAt_lt s s.rp.toNat s.na.toNat
  have hprod : s.inA * s.sc.toNat ≤ beta ^ s.na.toNat * (beta - 1) :=
    Nat.mul_le_mul (valAt_lt s _ _).le (Nat.le_sub_one_of_lt (limb_lt s.sc))
  obtain ⟨w, hw⟩ := Int.eq_ofNat_of_zero_le (borrow_range hout hprod).1
  have hret := toNat_borrow_limb hout hprod hw.symm
  rw [Nat.cast_mul] at hw hret
  exact ⟨w, storesDifference_complete rfl hret hw.symm⟩

/-- `mul_1` that ends without error (R110). -/
theorem completed_mul1 (h : exec .mul1 s = .next t) (herr : t.err = 0) :
    StoresTotal s t (s.inA * s.sc.toNat) := by
  rw [exec, execMul1] at h
  rw [run_eq_complete h herr]
  refine completed_single rfl (toNat_ofNat_of_lt ((mul_high_le (valAt_lt s _ _) (limb_lt s.sc)).trans_lt ?_))
  decide

/-- `addmul_1` that ends without error (R112). -/
theorem completed_addmul1 (h : exec .addmul1 s = .next t) (herr : t.err = 0) :
    StoresTotal s t (s.oldOut + s.inA * s.sc.toNat) := by
  rw [exec, execAddmul1] at h
  rw [run_eq_complete h herr]
  refine completed_single rfl (toNat_ofNat_of_lt
    ((addmul_high_le (valAt_lt s _ _) (valAt_lt s _ _) (limb_lt s.sc)).trans_lt ?_))
  decide

/-- A command that ends without error passed its register checks (R302). -/
theorem registerFailure_of_ok (h : exec i s = .next t) (herr : t.err = 0) :
    registerFailure i s.cfg s.operands = none := by
  obtain ⟨late, eff, hexec, -⟩ := exec_run i s
  exact (run_checks_passed (hexec.symm.trans h) herr).1

/-- A shift that ends without error was by less than 64 (R116). -/
theorem shift_lt (hi : i = .lshift ∨ i = .rshift) (h : exec i s = .next t) (herr : t.err = 0) : s.sc.toNat < 64 := by
  obtain ⟨hbad, -, -⟩ := registerFailure_none.mp (registerFailure_of_ok h herr)
  obtain rfl | rfl := hi <;> exact Nat.lt_of_not_le (of_decide_eq_false hbad)

/-- `lshift` that ends without error (R117). -/
theorem completed_lshift (h : exec .lshift s = .next t) (herr : t.err = 0) :
    StoresTotal s t (s.inA * 2 ^ s.sc.toNat) := by
  have hk := shift_lt (.inl rfl) h herr
  rw [exec, execLshift] at h
  rw [run_eq_complete h herr]
  refine completed_single rfl (toNat_ofNat_of_lt ((shift_high_lt (valAt_lt s _ _) _).trans ?_))
  exact Nat.pow_lt_pow_right (by decide) hk

/-- The bits a right shift of `x` by `k` moves out, left-aligned in a limb (R119). -/
def bitsOut (x k : Nat) : Nat := if k = 0 then 0 else x % 2 ^ k * 2 ^ (64 - k)

/-- Shifting right loses nothing: the result and the bits moved out are the operand, one limb longer (R119). -/
theorem shift_right_eq (hk : k ≤ 64) (x : Nat) : x * beta = (x / 2 ^ k * beta + bitsOut x k) * 2 ^ k := by
  unfold bitsOut
  split
  · next h0 => subst h0; simp
  · have hsplit := Nat.div_add_mod x (2 ^ k)
    have hbeta := beta_eq_two_pow_mul hk
    generalize x / 2 ^ k = q at *
    generalize x % 2 ^ k = r at *
    rw [← hsplit, hbeta]
    ring

theorem bitsOut_lt (hk : k ≤ 64) (x : Nat) : bitsOut x k < beta := by
  unfold bitsOut
  split
  · exact beta_pos
  · rw [beta_eq_two_pow_mul hk]
    exact Nat.mul_lt_mul_of_pos_right (Nat.mod_lt _ (by positivity)) (by positivity)

/-- A multiple of `2^k` loses no bit to a right shift by `k` (R121). -/
theorem bitsOut_mul (x k : Nat) : bitsOut (x * 2 ^ k) k = 0 := by simp [bitsOut]

/-- A quotient of an array's value fits the array. -/
theorem div_lt_pow (hx : x < beta ^ n) (y : Nat) : x / y < beta ^ n := (Nat.div_le_self x y).trans_lt hx

/-- `rshift` that ends without error (R119). -/
theorem completed_rshift (h : exec .rshift s = .next t) (herr : t.err = 0) :
    Completed s t [(s.rp.toNat, limbs (s.inA / 2 ^ s.sc.toNat) s.na.toNat)] (bitsOut s.inA s.sc.toNat) := by
  have hlt := bitsOut_lt (shift_lt (.inr rfl) h herr).le s.inA
  rw [exec, execRshift] at h
  rw [run_eq_complete h herr]
  refine completed_single rfl ?_
  rw [← toNat_ofNat_of_lt hlt]
  exact congrArg BitVec.toNat (apply_ite (BitVec.ofNat 64) _ _ _).symm

/-- `divrem_1` that ends without error had a divisor, and stored the quotient and returned the remainder (R126). -/
theorem completed_divrem1 (h : exec .divrem1 s = .next t) (herr : t.err = 0) :
    s.sc.toNat ≠ 0 ∧
      Completed s t [(s.rp.toNat, limbs (s.inA / s.sc.toNat) s.na.toNat)] (s.inA % s.sc.toNat) := by
  rw [exec, execDivrem1] at h
  obtain ⟨-, hlate⟩ := run_checks_passed h herr
  rw [run_eq_complete h herr]
  have hd : s.sc.toNat ≠ 0 := fun h0 => by simp only [State.operands_sc, h0, if_true, reduceCtorEq] at hlate
  refine ⟨hd, completed_single rfl (toNat_ofNat_of_lt ?_)⟩
  exact (Nat.mod_lt _ (Nat.pos_of_ne_zero hd)).trans (limb_lt s.sc)

/-- `cmp` that ends without error stored nothing and returned the order of the two values (R124). -/
theorem completed_cmp (h : exec .cmp s = .next t) (herr : t.err = 0) :
    t.ret = cmpWord s.inA s.inB ∧ Completed s t [] (cmpWord s.inA s.inB).toNat := by
  rw [exec, execCmp] at h
  rw [run_eq_complete h herr]
  exact ⟨rfl, completed_complete s _ List.Pairwise.nil⟩

/-! ### How a command with no check of its own ends -/

/-- The commands of unit C1 with no check beyond those of the registers (R302). -/
def onlyRegisterChecks : Instr → Bool
  | .addN | .subN | .add1 | .sub1 | .mul1 | .addmul1 | .submul1 | .lshift | .rshift | .cmp => true
  | _ => false

/-- Such a command is a run with no late check, whose effect builds no tables. -/
theorem exec_run_noLateCheck (hi : onlyRegisterChecks i = true) (s : State) :
    ∃ eff, exec i s = s.run i noLateCheck eff ∧ (eff s.operands).tables = [] := by
  cases i
  case addN | subN | add1 | sub1 | mul1 | addmul1 | submul1 | lshift | rshift | cmp =>
    rw [exec]
    exact ⟨_, rfl, rfl⟩
  all_goals contradiction

/-- It ends without error when the register checks pass. -/
theorem exec_ok (hi : onlyRegisterChecks i = true) (hreg : registerFailure i s.cfg s.operands = none) :
    ∃ t, exec i s = .next t ∧ t.err = 0 ∧ t.tw = s.tw := by
  obtain ⟨eff, hexec, htables⟩ := exec_run_noLateCheck hi s
  exact ⟨_, hexec.trans (run_completes hreg rfl), rfl, congrArg (addTables s.tw) htables⟩

/-- Its three ends, for checks put in words: completion as `C` says, AddressRange, and AliasViolation (R302). -/
theorem ends_by_ranges_and_overlap {ranges overlap : Prop} {C : State → Prop} (hi : onlyRegisterChecks i = true)
    (hbad : badRegisters i s.operands = false) (hr : footprintInside i s.cfg s.operands = true ↔ ranges)
    (ho : overlapOk i s.operands = true ↔ overlap)
    (hc : ∀ t, exec i s = .next t → t.err = 0 → t.tw = s.tw → C t) :
    (ranges → overlap → ∃ t, exec i s = .next t ∧ C t) ∧ (¬ranges → EndsIn i s 8) ∧
      (ranges → ¬overlap → EndsIn i s 7) := by
  refine ⟨fun h h' => ?_, fun h => endsIn_addressRange hbad (mt hr.mp h),
    fun h h' => endsIn_aliasViolation hbad (hr.mpr h) (mt ho.mp h')⟩
  obtain ⟨t, ht, herr, htw⟩ := exec_ok hi (registerFailure_none.mpr ⟨hbad, hr.mpr h, ho.mpr h'⟩)
  exact ⟨t, ht, hc t ht herr htw⟩

/-- The ranges of a command with two input arrays of one length (R61, R62). -/
theorem footprint_two_inputs (s : State) (hi : i = .addN ∨ i = .subN) :
    footprintInside i s.cfg s.operands = true ↔
      s.InLM s.ap.toNat s.na.toNat ∧ s.InLM s.bp.toNat s.na.toNat ∧ s.InLM s.rp.toNat s.na.toNat := by
  obtain rfl | rfl := hi <;>
    simp only [footprintInside, inputs, outputs, Operands.a, Operands.bSame, List.all_cons, List.all_nil, Bool.and_true,
      Bool.and_eq_true, inside_iff, and_assoc, State.operands_ap, State.operands_bp, State.operands_rp,
      State.operands_na]

/-- The ranges of a command with one input array, its result of the same length (R61, R62). -/
theorem footprint_one_input (s : State)
    (hi : i ∈ [.add1, .sub1, .mul1, .addmul1, .submul1, .lshift, .rshift, .divrem1]) :
    footprintInside i s.cfg s.operands = true ↔
      s.InLM s.ap.toNat s.na.toNat ∧ s.InLM s.rp.toNat s.na.toNat := by
  simp only [List.mem_cons, List.not_mem_nil, or_false] at hi
  obtain rfl | rfl | rfl | rfl | rfl | rfl | rfl | rfl := hi <;>
    simp only [footprintInside, inputs, outputs, Operands.a, List.all_cons, List.all_nil, Bool.and_true,
      Bool.and_eq_true, inside_iff, and_assoc, and_self, State.operands_ap, State.operands_rp, State.operands_na]

/-- The ranges of `cmp`, which writes no limb (R61, R62). -/
theorem footprint_cmp (s : State) :
    footprintInside .cmp s.cfg s.operands = true ↔
      s.InLM s.ap.toNat s.na.toNat ∧ s.InLM s.bp.toNat s.na.toNat := by
  simp only [footprintInside, inputs, outputs, Operands.a, Operands.bSame, List.all_cons, List.all_nil, Bool.and_true,
    Bool.and_eq_true, inside_iff, State.operands_ap, State.operands_bp, State.operands_na]

/-- The overlap rule of the two-input commands (R67). -/
theorem overlap_two_inputs (s : State) (hi : i = .addN ∨ i = .subN) :
    overlapOk i s.operands = true ↔
      InPlaceOrApart s.rp.toNat s.ap.toNat s.na.toNat ∧ InPlaceOrApart s.rp.toNat s.bp.toNat s.na.toNat := by
  obtain rfl | rfl := hi <;> exact Bool.and_eq_true_iff.trans (and_congr (inPlace_iff _ _ _) (inPlace_iff _ _ _))

/-- The ends of a shift: BadOperand, and the three ends of a command with one input that may be in place (R116). -/
theorem ends_of_shift {C : State → Prop} (hi : i = .lshift ∨ i = .rshift)
    (hc : ∀ t, exec i s = .next t → t.err = 0 → t.tw = s.tw → C t) :
    (64 ≤ s.sc.toNat → EndsIn i s 6) ∧
    (s.sc.toNat < 64 → s.InLM s.ap.toNat s.na.toNat ∧ s.InLM s.rp.toNat s.na.toNat →
      InPlaceOrApart s.rp.toNat s.ap.toNat s.na.toNat → ∃ t, exec i s = .next t ∧ C t) ∧
    (s.sc.toNat < 64 → ¬(s.InLM s.ap.toNat s.na.toNat ∧ s.InLM s.rp.toNat s.na.toNat) → EndsIn i s 8) ∧
    (s.sc.toNat < 64 → s.InLM s.ap.toNat s.na.toNat ∧ s.InLM s.rp.toNat s.na.toNat →
      ¬InPlaceOrApart s.rp.toNat s.ap.toNat s.na.toNat → EndsIn i s 7) := by
  have hbad : badRegisters i s.operands = decide (64 ≤ s.sc.toNat) := by obtain rfl | rfl := hi <;> rfl
  have hinPlace : overlapOk i s.operands = true ↔ InPlaceOrApart s.rp.toNat s.ap.toNat s.na.toNat := by
    obtain rfl | rfl := hi <;> exact inPlace_iff _ _ _
  have ends := fun hk : s.sc.toNat < 64 =>
    ends_by_ranges_and_overlap (by obtain rfl | rfl := hi <;> rfl) (hbad.trans (decide_eq_false hk.not_ge))
      (footprint_one_input s (by obtain rfl | rfl := hi <;> decide)) hinPlace hc
  exact ⟨fun hk => endsIn_badOperand (hbad.trans (decide_eq_true hk)), fun hk => (ends hk).1, fun hk => (ends hk).2.1,
    fun hk => (ends hk).2.2⟩

/-- `divrem_1` ends without error when the register checks pass and the divisor is not 0 (R126). -/
theorem exec_divrem1_ok (hreg : registerFailure .divrem1 s.cfg s.operands = none) (hd : s.sc.toNat ≠ 0) :
    ∃ t, exec .divrem1 s = .next t ∧ t.err = 0 ∧ t.tw = s.tw := by
  rw [exec, execDivrem1]
  exact ⟨_, run_completes hreg (if_neg hd), rfl, rfl⟩

/-- A zero divisor is DivisionByZero when the register checks pass (R126). -/
theorem divrem1_endsIn_divisionByZero (hreg : registerFailure .divrem1 s.cfg s.operands = none) (hd : s.sc.toNat = 0) :
    EndsIn .divrem1 s 2 [(s.rp.toNat, s.na.toNat)] := by
  rw [EndsIn, exec, execDivrem1]
  exact ⟨_, run_raises_late hreg (if_pos hd), errored_raise s .divisionByZero _⟩

/-- `cmp` ends without error exactly when both arrays lie in limb memory (R124). -/
theorem cmp_ok_iff (h : exec .cmp s = .next t) :
    t.err = 0 ↔ s.InLM s.ap.toNat s.na.toNat ∧ s.InLM s.bp.toNat s.na.toNat := by
  rw [← footprint_cmp]
  refine ⟨fun herr => (registerFailure_none.mp (registerFailure_of_ok h herr)).2.1, fun hf => ?_⟩
  obtain ⟨t', h', herr, -⟩ := exec_ok (i := .cmp) rfl (registerFailure_none.mpr ⟨rfl, hf, rfl⟩)
  rwa [Host.Outcome.next.inj (h.symm.trans h')]

/-! ### The order of two values -/

theorem cmpWord_of_lt (h : x < y) : cmpWord x y = BitVec.allOnes 64 := if_pos h

@[simp] theorem cmpWord_self (x : Nat) : cmpWord x x = 0 := by simp [cmpWord]

theorem cmpWord_of_gt (h : y < x) : cmpWord x y = 1 := by rw [cmpWord, if_neg h.not_gt, if_neg h.ne']

theorem cmpWord_toNat (x y : Nat) :
    (cmpWord x y).toNat = if x < y then 0xFFFFFFFFFFFFFFFF else if x = y then 0 else 1 := by
  rw [cmpWord, apply_ite BitVec.toNat, apply_ite BitVec.toNat]
  rfl

theorem cmpWord_eq_allOnes_iff : cmpWord x y = BitVec.allOnes 64 ↔ x < y := by
  obtain hlt | rfl | hgt := Nat.lt_trichotomy x y
  · simp [cmpWord_of_lt hlt, hlt]
  · simp
  · simp [cmpWord_of_gt hgt, hgt.le]

theorem cmpWord_eq_zero_iff : cmpWord x y = 0 ↔ x = y := by
  obtain hlt | rfl | hgt := Nat.lt_trichotomy x y
  · simp [cmpWord_of_lt hlt, hlt.ne]
  · simp
  · simp [cmpWord_of_gt hgt, hgt.ne']

/-- With its operands swapped `cmp` returns the negated limb (R125). -/
theorem cmpWord_swap (x y : Nat) : cmpWord y x = -cmpWord x y := by
  obtain hlt | rfl | hgt := Nat.lt_trichotomy x y
  · rw [cmpWord_of_gt hlt, cmpWord_of_lt hlt]; rfl
  · simp
  · rw [cmpWord_of_lt hgt, cmpWord_of_gt hgt]; rfl

end Sys2Proof.Machine

section
open Sys2Proof Sys2Proof.Machine

/-- Settles O16: the carry of two values below `β^n` is at most 1. -/
theorem addNStoresSum : Obligations.AddNStoresSum :=
  ⟨by decide, fun s => ends_by_ranges_and_overlap rfl rfl (footprint_two_inputs s (.inl rfl))
    (overlap_two_inputs s (.inl rfl)) fun _ h herr htw =>
      ⟨completed_addN h herr, htw, carry_le_one (valAt_lt s _ _) (valAt_lt s _ _)⟩⟩

/-- Settles O17: the borrow is what rounding the difference's quotient down makes it. -/
theorem subNStoresDifference : Obligations.SubNStoresDifference :=
  ⟨by decide, fun s => ends_by_ranges_and_overlap rfl rfl (footprint_two_inputs s (.inr rfl))
    (overlap_two_inputs s (.inr rfl)) fun _ h herr htw =>
      have ⟨hcompleted, hdiff⟩ := completed_subN h herr
      ⟨hcompleted, htw, mod_cast hdiff⟩⟩

/-- Settles O18: with no limbs the total is the scalar; otherwise the scalar is below `β^n`. -/
theorem addOneStoresSum : Obligations.AddOneStoresSum := by
  refine ⟨by decide, fun s => ends_by_ranges_and_overlap rfl rfl (footprint_one_input s (by decide))
    (inPlace_iff _ _ _) fun t h herr htw => ?_⟩
  have hcompleted := completed_add1 h herr
  refine ⟨hcompleted, htw, fun hn => ?_, fun hn => ?_⟩
  · refine BitVec.eq_of_toNat_eq (hcompleted.ret.trans ?_)
    simp [hn, State.valAt, State.memRead]
  · exact carry_le_one (valAt_lt s _ _) ((limb_lt s.sc).trans_le (beta_le_pow hn))

/-- Settles O19: the borrow is the scalar with no limbs, and otherwise the sign of the difference. -/
theorem subOneStoresDifference : Obligations.SubOneStoresDifference :=
  ⟨by decide, fun s => ends_by_ranges_and_overlap rfl rfl (footprint_one_input s (by decide))
    (inPlace_iff _ _ _) fun _ h herr htw =>
      have ⟨hcompleted, hdiff⟩ := completed_sub1 h herr
      ⟨hcompleted, htw, mod_cast hdiff⟩⟩

/-- Settles O20: an array is below `β^n`, so the product is below `β^n·(β - 1)`. -/
theorem mulOneStoresProduct : Obligations.MulOneStoresProduct :=
  ⟨by decide, fun s => ends_by_ranges_and_overlap rfl rfl (footprint_one_input s (by decide))
    (Machine.disjoint_iff _ _ _ _) fun _ h herr htw =>
      ⟨completed_mul1 h herr, htw, mul_high_le (valAt_lt s _ _) (limb_lt s.sc)⟩⟩

/-- Settles O21: the total is below `β^n·β`. -/
theorem addmulOneAccumulates : Obligations.AddmulOneAccumulates :=
  ⟨by decide, fun s => ends_by_ranges_and_overlap rfl rfl (footprint_one_input s (by decide))
    (Machine.disjoint_iff _ _ _ _) fun _ h herr htw =>
      ⟨completed_addmul1 h herr, htw, addmul_high_le (valAt_lt s _ _) (valAt_lt s _ _) (limb_lt s.sc)⟩⟩

/-- Settles O22: the difference is not below `-β^n·(β - 1)`, so its borrow is a limb. -/
theorem submulOneSubtracts : Obligations.SubmulOneSubtracts := by
  refine ⟨by decide, fun s => ?_⟩
  obtain ⟨hok, herrors⟩ := ends_by_ranges_and_overlap rfl rfl (footprint_one_input (i := .submul1) s (by decide))
    (Machine.disjoint_iff _ _ _ _) fun _ h herr htw => And.intro htw (completed_submul1 h herr)
  refine ⟨fun hr ho => ?_, herrors⟩
  obtain ⟨t, h, htw, w, hcompleted, hdiff⟩ := hok hr ho
  exact ⟨t, w, h, hcompleted, htw, hdiff⟩

/-- Settles O23, by the ends of a shift. -/
theorem lshiftStoresShiftedLeft : Obligations.LshiftStoresShiftedLeft :=
  ⟨by decide, fun s => ends_of_shift (.inl rfl) fun _ h herr htw =>
    ⟨completed_lshift h herr, htw, shift_high_lt (valAt_lt s _ _) _⟩⟩

/-- Settles O24, by the ends of a shift; the bits moved out are the remainder, left-aligned. -/
theorem rshiftStoresShiftedRight : Obligations.RshiftStoresShiftedRight :=
  ⟨by decide, fun s => ends_of_shift (.inr rfl) fun _ h herr htw =>
    ⟨completed_rshift h herr, htw, shift_right_eq (shift_lt (.inr rfl) h herr).le _⟩⟩

/-- Settles O25: the word `cmp` returns has the three values. -/
theorem cmpReturnsOrdering : Obligations.CmpReturnsOrdering := by
  refine ⟨by decide, fun s => ⟨fun hr => ?_, fun hr => endsIn_addressRange rfl (mt (footprint_cmp s).mp hr)⟩⟩
  have hreg := registerFailure_none.mpr ⟨rfl, (footprint_cmp s).mpr hr, rfl⟩
  obtain ⟨t, h, herr, htw⟩ := exec_ok (i := .cmp) rfl hreg
  refine ⟨t, h, ?_, htw⟩
  have hcompleted := (completed_cmp h herr).2
  rwa [cmpWord_toNat] at hcompleted

/-- Settles O26: the check for a zero divisor is the only one after those of the registers. -/
theorem divremOneStoresQuotient : Obligations.DivremOneStoresQuotient := by
  refine ⟨by decide, fun s => ?_⟩
  have hr := footprint_one_input (i := .divrem1) s (by decide)
  have ho : overlapOk .divrem1 s.operands = true ↔ _ := Machine.disjoint_iff _ _ _ _
  refine ⟨fun h h' hd => ?_, fun h => endsIn_addressRange rfl (mt hr.mp h),
    fun h h' => endsIn_aliasViolation rfl (hr.mpr h) (mt ho.mp h'), fun h h' hd => ?_⟩
  all_goals have hreg := registerFailure_none.mpr ⟨rfl, hr.mpr h, ho.mpr h'⟩
  · obtain ⟨t, ht, herr, htw⟩ := exec_divrem1_ok hreg hd
    refine ⟨t, ht, (completed_divrem1 ht herr).2, htw, ?_⟩
    rw [val_limbs (div_lt_pow (valAt_lt s _ _) _), Nat.div_add_mod']
  · exact divrem1_endsIn_divisionByZero hreg hd

/-- Settles O41, from what each command leaves when it ends without error. -/
theorem arithmeticIdentitiesHold : Obligations.ArithmeticIdentitiesHold := by
  intro i s t h herr
  refine ⟨?_, ?_, ?_, ?_, ?_, ?_, ?_, ?_, ?_, ?_⟩ <;> rintro rfl
  · exact_mod_cast StoresTotal.total_eq (completed_addN h herr)
  · exact (completed_subN h herr).difference_eq
  · exact_mod_cast StoresTotal.total_eq (completed_add1 h herr)
  · exact (completed_sub1 h herr).difference_eq
  · exact_mod_cast (completed_mul1 h herr).total_eq
  · exact_mod_cast (completed_addmul1 h herr).total_eq
  · obtain ⟨w, hw⟩ := completed_submul1 h herr
    exact hw.difference_eq
  · exact_mod_cast (completed_lshift h herr).total_eq
  · have hcompleted := completed_rshift h herr
    have heq := shift_right_eq (shift_lt (.inr rfl) h herr).le s.inA
    rw [← hcompleted.ret, ← val_limbs (div_lt_pow (valAt_lt s _ _) _),
      ← hcompleted.valAt_eq (limbs_length _ _)] at heq
    exact_mod_cast heq
  · obtain ⟨hd, hcompleted⟩ := completed_divrem1 h herr
    have heq := Nat.div_add_mod' s.inA s.sc.toNat
    have hlt := Nat.mod_lt s.inA (Nat.pos_of_ne_zero hd)
    rw [← hcompleted.ret] at heq hlt
    rw [← val_limbs (div_lt_pow (valAt_lt s _ _) _), ← hcompleted.valAt_eq (limbs_length _ _)] at heq
    exact_mod_cast And.intro heq.symm hlt

/-- Settles O42: no bit is lost, so the shifted array has the value `A·2^k`, which `2^k` divides. -/
theorem shiftsUndoEachOther : Obligations.ShiftsUndoEachOther := by
  intro s t v dst hl herr hret hr hverr
  have hleft := completed_lshift hl herr
  have htotal : t.valAt s.rp.toNat s.na.toNat = s.inA * 2 ^ s.sc.toNat := by
    have := hleft.total_eq
    rw [hret] at this
    simpa using this.symm
  have hright := completed_rshift hr hverr
  simp only [State.inA, hleft.frame.na, hleft.frame.sc] at hright
  change Completed _ v [(dst.toNat, limbs (t.valAt s.rp.toNat s.na.toNat / _) _)]
    (bitsOut (t.valAt s.rp.toNat s.na.toNat) _) at hright
  rw [htotal, Nat.mul_div_cancel _ (by positivity), bitsOut_mul] at hright
  refine ⟨?_, BitVec.eq_of_toNat_eq hright.ret⟩
  have := hright.holds _ List.mem_cons_self
  rwa [← limbs_val (s.memRead _ _), memRead_length]

/-- Settles O43: both commands look at the order of the two values. -/
theorem compareAgreesWithSubtract : Obligations.CompareAgreesWithSubtract := by
  intro s t u v ht hterr hu hv
  have hret := (completed_cmp ht hterr).1
  refine ⟨fun hverr => ?_, ?_, ?_⟩
  · have hborrow := (completed_subN hv hverr).1.ret
    rw [hret, show (0xFFFFFFFFFFFFFFFF : Limb) = BitVec.allOnes 64 from rfl, cmpWord_eq_allOnes_iff,
      ← BitVec.toNat_inj, hborrow]
    by_cases hlt : s.inA < s.inB <;> simp [hlt]
  · rw [hret, cmpWord_eq_zero_iff]
    exact ⟨eq_of_val_eq (by simp), congrArg val⟩
  · obtain ⟨hA, hB⟩ := (cmp_ok_iff ht).mp hterr
    rw [hret, ← cmpWord_swap]
    exact (completed_cmp hu ((cmp_ok_iff hu).mpr ⟨hB, hA⟩)).1

/-- Settles O50, from the laws of the recurrences. -/
theorem limbRecurrencesComputeValues : Obligations.LimbRecurrencesComputeValues := by
  intro a b n x k hn hb hk
  have hlen : a.length = b.length := hn.trans hb.symm
  have hk' : k ≤ 64 := by omega
  have hsub := subOneChain_total a (limb_lt x)
  have hsubmul := submulChain_total x hlen.symm 0
  have hsubN := subChain_eq hlen
  have hlshift := lshiftChain_eq hk' a
  subst hn
  refine ⟨addChain_eq hlen, Prod.ext hsubN.1 hsubN.2, addOneChain_eq a _, (subOneChain_eq a (limb_lt x)).1, ?_,
    mulChain_eq x a, addmulChain_eq x hlen.symm, (submulChain_eq x hlen.symm).1, ?_, hlshift.1, hlshift.2,
    rshiftChain_fst hk' a, fun hpos _ => (rshiftChain_eq hk' a (List.length_pos_iff.mp hpos)).2,
    fun hx => divremChain_eq (mt (BitVec.eq_of_toNat_eq (y := 0)) hx) a, ?_, ?_⟩
  · linarith
  · push_cast at hsubmul ⊢
    linarith
  · rw [cmpChain_eq hlen, compare_lt_iff_lt]
  · rw [cmpChain_eq hlen, compare_eq_iff_eq]
    exact ⟨eq_of_val_eq hlen, congrArg val⟩

end
end

section
/-! PROOFS. Proofs/Basecase.lean: unit C2 (R130 to R136): how the base-case multiplier and squarer end, that a product does
not depend on the order of its operands, and the schoolbook loops. -/

namespace Sys2Proof.Machine

variable {s t : State} {i : Instr} {n : Nat}

/-! ### The register checks of products and squares, in words -/

/-- The ranges of a product: two arrays with lengths of their own, and one as long as both (R61, R62). -/
theorem footprint_product (s : State) (hi : i = .mulBasecase ∨ i = .mulNtt ∨ i = .mul) :
    footprintInside i s.cfg s.operands = true ↔
      s.InLM s.ap.toNat s.na.toNat ∧ s.InLM s.bp.toNat s.nb.toNat ∧
        s.InLM s.rp.toNat (s.na.toNat + s.nb.toNat) := by
  obtain rfl | rfl | rfl := hi <;>
    simp only [footprintInside, inputs, outputs, Operands.a, Operands.b, List.all_cons, List.all_nil, Bool.and_true,
      Bool.and_eq_true, inside_iff, and_assoc, State.operands_ap, State.operands_bp, State.operands_rp,
      State.operands_na, State.operands_nb]

/-- The overlap rule of a product: its result is apart from both operands (R67). -/
theorem overlap_product (s : State) (hi : i = .mulBasecase ∨ i = .mulNtt ∨ i = .mul) :
    overlapOk i s.operands = true ↔
      Apart s.rp.toNat (s.na.toNat + s.nb.toNat) s.ap.toNat s.na.toNat ∧
        Apart s.rp.toNat (s.na.toNat + s.nb.toNat) s.bp.toNat s.nb.toNat := by
  obtain rfl | rfl | rfl := hi <;>
    exact Bool.and_eq_true_iff.trans (and_congr (disjoint_iff _ _ _ _) (disjoint_iff _ _ _ _))

/-- The ranges of a square: an array, and one twice as long (R61, R62). -/
theorem footprint_square (s : State) (hi : i ∈ [.sqrBasecase, .sqrKaratsuba, .sqrNtt, .sqr]) :
    footprintInside i s.cfg s.operands = true ↔
      s.InLM s.ap.toNat s.na.toNat ∧ s.InLM s.rp.toNat (2 * s.na.toNat) := by
  simp only [List.mem_cons, List.not_mem_nil, or_false] at hi
  obtain rfl | rfl | rfl | rfl := hi <;>
    simp only [footprintInside, inputs, outputs, Operands.a, List.all_cons, List.all_nil, Bool.and_true,
      Bool.and_eq_true, inside_iff, State.operands_ap, State.operands_rp, State.operands_na]

/-- The overlap rule of a square: its result is apart from its operand (R67). -/
theorem overlap_square (s : State) (hi : i ∈ [.sqrBasecase, .sqrKaratsuba, .sqrNtt, .sqr]) :
    overlapOk i s.operands = true ↔ Apart s.rp.toNat (2 * s.na.toNat) s.ap.toNat s.na.toNat := by
  simp only [List.mem_cons, List.not_mem_nil, or_false] at hi
  obtain rfl | rfl | rfl | rfl := hi <;> exact disjoint_iff _ _ _ _

/-! ### How the base case ends -/

/-- A command that completes whenever the register checks pass has three ends, for those checks put in words: completion,
AddressRange, and AliasViolation (R302). -/
theorem ends_of_registerFailure_none {ranges overlap : Prop} {C : State → Prop}
    (hbad : badRegisters i s.operands = false) (hr : footprintInside i s.cfg s.operands = true ↔ ranges)
    (ho : overlapOk i s.operands = true ↔ overlap)
    (hok : registerFailure i s.cfg s.operands = none → ∃ t, exec i s = .next t ∧ C t) :
    (ranges → overlap → ∃ t, exec i s = .next t ∧ C t) ∧ (¬ranges → EndsIn i s 8) ∧
      (ranges → ¬overlap → EndsIn i s 7) :=
  ⟨fun h h' => hok (registerFailure_none.mpr ⟨hbad, hr.mpr h, ho.mpr h'⟩),
    fun h => endsIn_addressRange hbad (mt hr.mp h), fun h h' => endsIn_aliasViolation hbad (hr.mpr h) (mt ho.mp h')⟩

/-- The product of two arrays fits an array as long as both (R131). -/
theorem valAt_mul_valAt_lt (s : State) (p m q n : Nat) : s.valAt p m * s.valAt q n < beta ^ (m + n) :=
  product_lt (memRead_length s p m) (memRead_length s q n)

/-- `mul_basecase` stores the limbs of the product when the register checks pass (R131). -/
theorem exec_mulBasecase_ok (hreg : registerFailure .mulBasecase s.cfg s.operands = none) :
    ∃ t, exec .mulBasecase s = .next t ∧
      Completed s t [(s.rp.toNat, limbs (s.valAt s.ap.toNat s.na.toNat * s.valAt s.bp.toNat s.nb.toNat)
        (s.na.toNat + s.nb.toNat))] 0 ∧ t.tw = s.tw := by
  rw [exec, execMulBasecase]
  exact ⟨_, run_completes hreg rfl, completed_single rfl rfl, rfl⟩

/-- `sqr_basecase` stores the limbs of the square when the register checks pass (R134). -/
theorem exec_sqrBasecase_ok (hreg : registerFailure .sqrBasecase s.cfg s.operands = none) :
    ∃ t, exec .sqrBasecase s = .next t ∧
      Completed s t [(s.rp.toNat, limbs (s.inA * s.inA) (2 * s.na.toNat))] 0 ∧ t.tw = s.tw := by
  rw [exec, execSqrBasecase]
  exact ⟨_, run_completes hreg rfl, completed_single rfl rfl, rfl⟩

/-! ### The order of the operands -/

/-- The limbs of a product command's result by the value equation: `limbs(A·B, na + nb)` (R131). -/
def State.productLimbs (s : State) : List Limb :=
  basecase (s.memRead s.ap.toNat s.na.toNat) s.na.toNat (s.memRead s.bp.toNat s.nb.toNat) s.nb.toNat

/-- The state with the two operands, pointers and lengths, exchanged (R136). -/
abbrev State.exchanged (s : State) : State := { s with ap := s.bp, bp := s.ap, na := s.nb, nb := s.na }

theorem productLimbs_exchanged (s : State) : s.exchanged.productLimbs = s.productLimbs :=
  basecase_comm (s.memRead _ _) (s.memRead _ _) _ _

/-- The engine's commands run only where a transform length exists (R179). -/
theorem nttFits_of_nttFailure (h : s.nttFailure i n = none) : nttFits s.cfg n = true := by
  by_contra hfit
  rw [State.nttFailure, Bool.eq_false_of_not_eq_true hfit] at h
  exact absurd h (by simp)

/-- Each of the three product commands, when it ends without error, stored the base case's limbs (R131, R176, R211). -/
theorem mem_of_product (hi : i = .mulBasecase ∨ i = .mulNtt ∨ i = .mul) (hc : s.cfg.Legal) (h : exec i s = .next t)
    (herr : t.err = 0) : t.mem = s.mem.store [(s.rp.toNat, s.productLimbs)] := by
  have ha := memRead_length s s.ap.toNat s.na.toNat
  have hb := memRead_length s s.bp.toNat s.nb.toNat
  obtain rfl | rfl | rfl := hi
  · rw [exec, execMulBasecase] at h
    rw [run_eq_complete h herr]
    rfl
  · rw [exec, execMulNtt] at h
    have hfit := nttFits_of_nttFailure (run_checks_passed h herr).2
    rw [run_eq_complete h herr, State.productLimbs, ← nttMul_eq hc ha hb hfit]
    rfl
  · rw [exec, execMul] at h
    rw [run_eq_complete h herr, State.productLimbs, ← dispatch_eq hc (s.na.toNat + s.nb.toNat) _ _ _ _ true ha hb]
    rfl

end Sys2Proof.Machine

section
open Sys2Proof Sys2Proof.Machine

/-- Settles O27: no bit of the product is lost. -/
theorem mulBasecaseStoresProduct : Obligations.MulBasecaseStoresProduct := by
  refine ⟨by decide, fun s => ends_of_registerFailure_none rfl (footprint_product s (.inl rfl))
    (overlap_product s (.inl rfl)) fun hreg => ?_⟩
  obtain ⟨t, h, hcompleted, htw⟩ := exec_mulBasecase_ok hreg
  exact ⟨t, h, hcompleted, htw, val_limbs (valAt_mul_valAt_lt s _ _ _ _)⟩

/-- Settles O28: no bit of the square is lost. -/
theorem sqrBasecaseStoresSquare : Obligations.SqrBasecaseStoresSquare := by
  refine ⟨by decide, fun s => ends_of_registerFailure_none rfl (footprint_square s (by decide))
    (overlap_square s (by decide)) fun hreg => ?_⟩
  obtain ⟨t, h, hcompleted, htw⟩ := exec_sqrBasecase_ok hreg
  exact ⟨t, h, hcompleted, htw, val_limbs (two_mul s.na.toNat ▸ valAt_mul_valAt_lt s _ _ _ _)⟩

/-- Settles O46: both runs store the base case's limbs, which are symmetric in the two operands. -/
theorem productsCommute : Obligations.ProductsCommute := by
  intro i s t u hi hc ht hterr hu huerr
  rw [mem_of_product hi hc ht hterr, mem_of_product (s := s.exchanged) hi hc hu huerr, productLimbs_exchanged]

/-- Settles O51: twice the off-diagonal sum is part of the square, which is below `β^(2n)`. -/
theorem schoolbookLoopsComputeProducts : Obligations.SchoolbookLoopsComputeProducts := by
  intro a b
  have hsquare := square_by_symmetry a
  refine ⟨mulByLoop_eq a b, hsquare.symm, ?_⟩
  calc 2 * offDiagonal a ≤ val a * val a := by omega
    _ < beta ^ (2 * a.length) := two_mul a.length ▸ product_lt rfl rfl

end
end

section
/-! PROOFS. Proofs/Karatsuba.lean: unit C3 (R141 to R153): the recursion of the Karatsuba multiplier, and how its two
commands end. -/

namespace Sys2Proof.Machine

variable {s : State} {i : Instr} {a b : List Limb} {n m : Nat}

/-! ### The recursion -/

theorem val_kara (ha : a.length = n) (hb : b.length = n) (K fuel : Nat) :
    val (kara K fuel a b n) = val a * val b := by
  rw [kara_eq K fuel a b n ha hb, val_limbs (two_mul n ▸ product_lt ha hb)]

/-- The bound on the recursion does not show in the product (R148). -/
theorem kara_fuel (ha : a.length = n) (hb : b.length = n) (K fuel fuel' : Nat) :
    kara K fuel a b n = kara K fuel' a b n :=
  (kara_eq K fuel a b n ha hb).trans (kara_eq K fuel' a b n ha hb).symm

/-- The sum of the halves of a list of `n` limbs, in one limb more than the longer half has (R145). -/
def halfSum (a : List Limb) (n : Nat) : List Limb :=
  limbs (val (a.take ((n + 1) / 2)) + val (a.drop ((n + 1) / 2))) ((n + 1) / 2 + 1)

theorem lowHalf_length (ha : a.length = n) : (a.take ((n + 1) / 2)).length = (n + 1) / 2 :=
  List.length_take_of_le (by omega)

theorem highHalf_length (ha : a.length = n) : (a.drop ((n + 1) / 2)).length = n - (n + 1) / 2 :=
  ha ▸ List.length_drop

theorem halfSum_length (a : List Limb) (n : Nat) : (halfSum a n).length = (n + 1) / 2 + 1 := limbs_length _ _

theorem val_halfSum (ha : a.length = n) :
    val (halfSum a n) = val (a.take ((n + 1) / 2)) + val (a.drop ((n + 1) / 2)) :=
  val_limbs (half_sum_lt (lowHalf_length ha).le (by rw [highHalf_length ha]; omega))

/-- The product of the sums contains the products of the halves, so the middle term is not negative (R146). -/
theorem outer_products_le (K : Nat) (ha : a.length = n) (hb : b.length = n) :
    let h := (n + 1) / 2
    let z0 := kara K h (a.take h) (b.take h) h
    let z2 := kara K (n - h) (a.drop h) (b.drop h) (n - h)
    let zs := kara K (h + 1) (halfSum a n) (halfSum b n) (h + 1)
    val z0 + val z2 ≤ val zs := by
  intro h z0 z2 zs
  have hz0 : val z0 = val (a.take h) * val (b.take h) := val_kara (lowHalf_length ha) (lowHalf_length hb) _ _
  have hz2 : val z2 = val (a.drop h) * val (b.drop h) := val_kara (highHalf_length ha) (highHalf_length hb) _ _
  have hzs : val zs = val (halfSum a n) * val (halfSum b n) := val_kara (halfSum_length a n) (halfSum_length b n) _ _
  rw [hz0, hz2, hzs, val_halfSum ha, val_halfSum hb, add_mul, mul_add, mul_add]
  exact Nat.add_le_add (Nat.le_add_right _ _) (Nat.le_add_left _ _)

/-- From the threshold on the product is put together from the three products (R142, R147), each with its own length as
the bound on its recursion. -/
theorem kara_three_way {K : Nat} (hn : 1 ≤ n) (hK : K ≤ n) (ha : a.length = n) (hb : b.length = n) :
    let h := (n + 1) / 2
    let z0 := kara K h (a.take h) (b.take h) h
    let z2 := kara K (n - h) (a.drop h) (b.drop h) (n - h)
    let zs := kara K (h + 1) (halfSum a n) (halfSum b n) (h + 1)
    kara K n a b n
      = limbs (val z0 + (val zs - val z0 - val z2) * beta ^ h + val z2 * beta ^ (2 * h)) (2 * n) := by
  obtain ⟨fuel, rfl⟩ := Nat.exists_eq_add_of_le' hn
  intro h z0 z2 zs
  have hz0 : kara K fuel (a.take h) (b.take h) h = z0 := kara_fuel (lowHalf_length ha) (lowHalf_length hb) ..
  have hz2 : kara K fuel (a.drop h) (b.drop h) (fuel + 1 - h) = z2 :=
    kara_fuel (highHalf_length ha) (highHalf_length hb) ..
  have hzs : kara K fuel (halfSum a (fuel + 1)) (halfSum b (fuel + 1)) (h + 1) = zs :=
    kara_fuel (halfSum_length a _) (halfSum_length b _) ..
  rw [kara, if_neg hK.not_gt, ← hz0, ← hz2, ← hzs]
  rfl

/-! ### The register checks of `mul_karatsuba`, in words -/

/-- Its ranges: two arrays of one length, and one twice as long (R61, R62). -/
theorem footprint_mulKaratsuba (s : State) :
    footprintInside .mulKaratsuba s.cfg s.operands = true ↔
      s.InLM s.ap.toNat s.na.toNat ∧ s.InLM s.bp.toNat s.na.toNat ∧ s.InLM s.rp.toNat (2 * s.na.toNat) := by
  simp only [footprintInside, inputs, outputs, Operands.a, Operands.bSame, List.all_cons, List.all_nil, Bool.and_true,
    Bool.and_eq_true, inside_iff, and_assoc, State.operands_ap, State.operands_bp, State.operands_rp, State.operands_na]

/-- Its overlap rule: the result is apart from both operands (R67). -/
theorem overlap_mulKaratsuba (s : State) :
    overlapOk .mulKaratsuba s.operands = true ↔
      Apart s.rp.toNat (2 * s.na.toNat) s.ap.toNat s.na.toNat ∧
        Apart s.rp.toNat (2 * s.na.toNat) s.bp.toNat s.na.toNat :=
  Bool.and_eq_true_iff.trans (and_congr (disjoint_iff _ _ _ _) (disjoint_iff _ _ _ _))

/-! ### How a command that needs scratch from the threshold on ends -/

/-- Scratch is no obstacle to an operation of size `m`: it needs none, or the platform grants it (R153, R296). -/
abbrev State.ScratchOk (s : State) (i : Instr) (m : Nat) : Prop := m < s.cfg.kThreshold ∨ s.allocOk i = true

theorem allocFailure_of_scratchOk (h : s.ScratchOk i m) :
    s.allocFailure i (s.cfg.kThreshold ≤ m) = none := by
  obtain h | h := h <;> simp [State.allocFailure, h]

theorem allocFailure_of_not_scratchOk (h : ¬s.ScratchOk i m) :
    s.allocFailure i (s.cfg.kThreshold ≤ m) = some .allocationFailure := by
  obtain ⟨hm, hdenied⟩ := not_or.mp h
  simp [State.allocFailure, Nat.le_of_not_lt hm, hdenied]

/-- A command whose only late check asks for scratch from the threshold on has four ends, for its register checks put in
words: completion, AddressRange, AliasViolation, and AllocationFailure (R153, R302). -/
theorem ends_of_threshold {ranges overlap : Prop} {C : State → Prop} {size : Operands → Nat}
    {eff : Operands → Effect}
    (hexec : exec i s = s.run i (fun o => s.allocFailure i (s.cfg.kThreshold ≤ size o)) eff)
    (hbad : badRegisters i s.operands = false) (hr : footprintInside i s.cfg s.operands = true ↔ ranges)
    (ho : overlapOk i s.operands = true ↔ overlap) (hc : C (s.complete (eff s.operands))) :
    (ranges → overlap → s.ScratchOk i (size s.operands) → ∃ t, exec i s = .next t ∧ C t) ∧
      (¬ranges → EndsIn i s 8) ∧ (ranges → ¬overlap → EndsIn i s 7) ∧
      (ranges → overlap → ¬s.ScratchOk i (size s.operands) → EndsIn i s 3 (pairsOf (outputs i s.operands))) := by
  have hreg (h : ranges) (h' : overlap) : registerFailure i s.cfg s.operands = none :=
    registerFailure_none.mpr ⟨hbad, hr.mpr h, ho.mpr h'⟩
  refine ⟨fun h h' hs => ?_, fun h => endsIn_addressRange hbad (mt hr.mp h),
    fun h h' => endsIn_aliasViolation hbad (hr.mpr h) (mt ho.mp h'), fun h h' hs => ?_⟩
  · exact ⟨_, hexec.trans (run_completes (hreg h h') (allocFailure_of_scratchOk hs)), hc⟩
  · exact ⟨_, hexec.trans (run_raises_late (hreg h h') (allocFailure_of_not_scratchOk hs)),
      errored_raise s .allocationFailure _⟩

/-! ### The two commands -/

/-- The run of `mul_karatsuba`, its effect in terms of the value equation (R141, R152). -/
theorem exec_mulKaratsuba (s : State) :
    exec .mulKaratsuba s = s.run .mulKaratsuba
      (fun o => s.allocFailure .mulKaratsuba (s.cfg.kThreshold ≤ o.na)) fun o =>
        { stores := [(o.rp, limbs (s.valAt o.ap o.na * s.valAt o.bp o.na) (2 * o.na))], ret := 0 } := by
  simp only [exec, execMulKaratsuba, kara_eq _ _ _ _ _ (memRead_length s _ _) (memRead_length s _ _)]

/-- The run of `sqr_karatsuba`, its effect in terms of the value equation (R150, R152). -/
theorem exec_sqrKaratsuba (s : State) :
    exec .sqrKaratsuba s = s.run .sqrKaratsuba
      (fun o => s.allocFailure .sqrKaratsuba (s.cfg.kThreshold ≤ o.na)) fun o =>
        { stores := [(o.rp, limbs (s.valAt o.ap o.na * s.valAt o.ap o.na) (2 * o.na))], ret := 0 } := by
  simp only [exec, execSqrKaratsuba, karaSqr_eq _ _ _ _ (memRead_length s _ _), basecaseSqr]

end Sys2Proof.Machine

section
open Sys2Proof Sys2Proof.Machine

/-- Settles O52: `kara` is the exact product whatever bounds its recursion, so each of the three products may
have its own bound. -/
theorem karatsubaRecursionIsExact : Obligations.KaratsubaRecursionIsExact :=
  ⟨fun K n a b ha hb => ⟨kara_eq K n a b n ha hb, karaSqr_eq K n a n ha⟩, fun K _ _ _ h16 hK ha hb =>
    ⟨outer_products_le K ha hb, kara_three_way (by omega) hK ha hb⟩⟩

/-- Settles O29: the limbs of `kara` are those of the product, whatever the threshold. -/
theorem mulKaratsubaStoresProduct : Obligations.MulKaratsubaStoresProduct :=
  ⟨by decide, fun s => ends_of_threshold (exec_mulKaratsuba s) rfl (footprint_mulKaratsuba s)
    (overlap_mulKaratsuba s) ⟨completed_single rfl rfl, rfl⟩⟩

/-- Settles O30: the limbs of `kara_sqr` are those of the square, whatever the threshold. -/
theorem sqrKaratsubaStoresSquare : Obligations.SqrKaratsubaStoresSquare :=
  ⟨by decide, fun s => ends_of_threshold (exec_sqrKaratsuba s) rfl
    (footprint_square s (by decide)) (overlap_square s (by decide)) ⟨completed_single rfl rfl, rfl⟩⟩

end
end

section
/-! PROOFS. Proofs/NttEngine.lean: unit C4 (R160 to R182): the permitted transform lengths, the convolution that steps 3 to 5
compute, how the engine's two commands end, and the realisations of R181 and R182. -/

namespace Sys2Proof

variable {c : Config} {m k n : Nat}

/-! ### Permitted lengths -/

theorem permits_iff : c.permits m k = true ↔
    c.nttKMin ≤ k ∧ m * 2 ^ k ≤ c.nMax ∧ ∀ p ∈ c.primes, m * 2 ^ k ∣ p - 1 := by
  simp only [Config.permits, Bool.and_eq_true, decide_eq_true_eq, List.all_eq_true, beq_iff_eq,
    Nat.dvd_iff_mod_eq_zero, and_assoc]

/-- The list of lengths reaches every exponent: `2^k` is at most the length, so at most `N_max` (R162). -/
theorem lt_log2_nMax_succ (hm : 0 < m) (hle : m * 2 ^ k ≤ c.nMax) : k < Nat.log2 c.nMax + 1 := by
  have hpow : 2 ^ k ≤ c.nMax := (Nat.le_mul_of_pos_left _ hm).trans hle
  exact Nat.lt_succ_of_le ((Nat.le_log2 ((Nat.two_pow_pos k).trans_le hpow).ne').mpr hpow)

/-- The listed lengths are the set `S` (R162). -/
theorem mem_sizes_iff : n ∈ c.sizes ↔
    ∃ m k, n = m * 2 ^ k ∧ m ∈ [1, 3, 5] ∧ c.nttKMin ≤ k ∧ n ≤ c.nMax ∧ ∀ p ∈ c.primes, n ∣ p - 1 := by
  simp only [Config.sizes, List.mem_flatMap, List.mem_range, List.mem_map, List.mem_filter, permits_iff]
  constructor
  · rintro ⟨k, -, m, ⟨hm, hk, hle, hdvd⟩, rfl⟩
    exact ⟨m, k, rfl, hm, hk, hle, hdvd⟩
  · rintro ⟨m, k, rfl, hm, hk, hle, hdvd⟩
    have hpos : 0 < m := (by decide : ∀ m ∈ [1, 3, 5], 0 < m) m hm
    exact ⟨k, lt_log2_nMax_succ hpos hle, m, ⟨hm, hk, hle, hdvd⟩, rfl⟩

/-- A permitted length is selected for itself (R162). -/
theorem selectSize_of_mem (hc : c.Legal) (hn : n ∈ c.sizes) : c.selectSize n = n := by
  obtain ⟨-, hle, -⟩ := mem_sizes hn
  obtain ⟨-, hge, hleast⟩ := selectSize_spec hc.nMax_mem hle
  exact le_antisymm (hleast n hn le_rfl) hge

end Sys2Proof

namespace Sys2Proof.Machine

variable {s : State} {i : Instr} {n : Nat}

/-! ### Steps 3 to 5 -/

theorem residues_length (c : Config) (i n : Nat) (a b : List Nat) : (residues c i n a b).length = n := by
  rw [residues, inverse, List.length_map, Config.twiddle, powersFrom_length]

/-- A coefficient of a product of digit lists is the sum R171 writes out. -/
theorem coeff_mul_eq_sum (a b : List Nat) (t : Nat) :
    (digitPoly a * digitPoly b).coeff t = ((List.range (t + 1)).map fun u => a.getD u 0 * b.getD (t - u) 0).sum := by
  rw [Polynomial.coeff_mul, Finset.Nat.sum_antidiagonal_eq_sum_range_succ_mk]
  simp only [coeff_digitPoly]
  rfl

/-! ### How a command of the engine ends -/

theorem nttFailure_none (hfit : viewLen s.cfg n ≤ s.cfg.nMax) (halloc : s.allocOk i = true) :
    s.nttFailure i n = none := by
  simp [State.nttFailure, nttFits, hfit, State.allocFailure, halloc]

theorem nttFailure_sizeLimit (hbig : s.cfg.nMax < viewLen s.cfg n) : s.nttFailure i n = some .sizeLimit := by
  simp [State.nttFailure, nttFits, hbig]

theorem nttFailure_allocationFailure (hfit : viewLen s.cfg n ≤ s.cfg.nMax) (halloc : s.allocOk i = false) :
    s.nttFailure i n = some .allocationFailure := by
  simp [State.nttFailure, nttFits, hfit, State.allocFailure, halloc]

/-- A command of the engine has five ends, for its register checks put in words: completion, AddressRange, AliasViolation,
SizeLimit, and AllocationFailure (R179, R180, R302). -/
theorem ends_of_engine {ranges overlap : Prop} {C : State → Prop} {size : Operands → Nat} {eff : Operands → Effect}
    (hexec : exec i s = s.run i (fun o => s.nttFailure i (size o)) eff)
    (hbad : badRegisters i s.operands = false) (hr : footprintInside i s.cfg s.operands = true ↔ ranges)
    (ho : overlapOk i s.operands = true ↔ overlap)
    (hc : s.cfg.Legal → nttFits s.cfg (size s.operands) = true → C (s.complete (eff s.operands))) :
    let len := viewLen s.cfg (size s.operands)
    let lost := pairsOf (outputs i s.operands)
    (s.cfg.Legal → ranges → overlap → len ≤ s.cfg.nMax → s.allocOk i = true → ∃ t, exec i s = .next t ∧ C t) ∧
      (¬ranges → EndsIn i s 8) ∧ (ranges → ¬overlap → EndsIn i s 7) ∧
      (ranges → overlap → s.cfg.nMax < len → EndsIn i s 4 lost) ∧
      (ranges → overlap → len ≤ s.cfg.nMax → s.allocOk i = false → EndsIn i s 3 lost) := by
  have hreg (h : ranges) (h' : overlap) : registerFailure i s.cfg s.operands = none :=
    registerFailure_none.mpr ⟨hbad, hr.mpr h, ho.mpr h'⟩
  refine ⟨fun hlegal h h' hfit halloc => ?_, fun h => endsIn_addressRange hbad (mt hr.mp h),
    fun h h' => endsIn_aliasViolation hbad (hr.mpr h) (mt ho.mp h'), fun h h' hbig => ?_,
    fun h h' hfit halloc => ?_⟩
  · exact ⟨_, hexec.trans (run_completes (hreg h h') (nttFailure_none hfit halloc)), hc hlegal (decide_eq_true hfit)⟩
  · exact ⟨_, hexec.trans (run_raises_late (hreg h h') (nttFailure_sizeLimit hbig)), errored_raise s .sizeLimit _⟩
  · exact ⟨_, hexec.trans (run_raises_late (hreg h h') (nttFailure_allocationFailure hfit halloc)),
      errored_raise s .allocationFailure _⟩

/-- The tables of a product of `n` limbs are those of the selected length, for every prime index (R166). -/
theorem tablesBuilt_complete {eff : Effect} (h : eff.tables = nttTables s.cfg n) :
    TablesBuilt s (s.complete eff) (s.cfg.selectSize (viewLen s.cfg n)) := by
  intro i m
  rw [State.complete_tw, h, addTables, mem_foldr_insertTable, nttTables, mem_tablesOf, or_comm]

/-! ### The two commands -/

theorem exec_mulNtt (s : State) :
    exec .mulNtt s = s.run .mulNtt (fun o => s.nttFailure .mulNtt (o.na + o.nb)) fun o =>
      { stores := [(o.rp, nttMul s.cfg (s.memRead o.ap o.na) o.na (s.memRead o.bp o.nb) o.nb)]
        ret := 0
        tables := nttTables s.cfg (o.na + o.nb) } := rfl

theorem exec_sqrNtt (s : State) :
    exec .sqrNtt s = s.run .sqrNtt (fun o => s.nttFailure .sqrNtt (2 * o.na)) fun o =>
      { stores := [(o.rp, nttSqr s.cfg (s.memRead o.ap o.na) o.na)]
        ret := 0
        tables := nttTables s.cfg (2 * o.na) } := rfl

/-- The engine's limbs for two arrays in memory are those of the value equation (R176). -/
theorem nttMul_memRead (hc : s.cfg.Legal) (p q : Nat) {m n : Nat} (hfit : nttFits s.cfg (m + n) = true) :
    nttMul s.cfg (s.memRead p m) m (s.memRead q n) n = limbs (s.valAt p m * s.valAt q n) (m + n) :=
  nttMul_eq hc (memRead_length s p m) (memRead_length s q n) hfit

/-- The squaring form's limbs for an array in memory are those of the value equation (R176, R177). -/
theorem nttSqr_memRead (hc : s.cfg.Legal) (p : Nat) (hfit : nttFits s.cfg (2 * n) = true) :
    nttSqr s.cfg (s.memRead p n) n = limbs (s.valAt p n * s.valAt p n) (2 * n) :=
  nttSqr_eq hc (memRead_length s p n) hfit

end Sys2Proof.Machine

section
open Sys2Proof Sys2Proof.Machine

/-- Settles O31: the engine's limbs are those of the product, for every length it fits. -/
theorem mulNttStoresProduct : Obligations.MulNttStoresProduct :=
  ⟨by decide, fun s => ends_of_engine (exec_mulNtt s) rfl (footprint_product s (by decide))
    (overlap_product s (by decide)) fun hc hfit =>
      ⟨completed_single (by rw [nttMul_memRead hc _ _ hfit]; rfl) rfl, tablesBuilt_complete rfl⟩⟩

/-- Settles O32: the engine's limbs are those of the square, for every length it fits. -/
theorem sqrNttStoresSquare : Obligations.SqrNttStoresSquare :=
  ⟨by decide, fun s => ends_of_engine (exec_sqrNtt s) rfl (footprint_square s (by decide))
    (overlap_square s (by decide)) fun hc hfit =>
      ⟨completed_single (by rw [nttSqr_memRead hc _ hfit]; rfl) rfl, tablesBuilt_complete rfl⟩⟩

/-- Settles O54: `N_max` is itself permitted, so it bounds the lengths for which one exists. -/
theorem selectSizeIsLeastPermitted : Obligations.SelectSizeIsLeastPermitted := by
  refine fun c len hc => ⟨⟨?_, fun hle => ⟨c.nMax, hc.nMax_mem, hle⟩⟩, selectSize_spec hc.nMax_mem,
    fun n => mem_sizes_iff⟩
  rintro ⟨n, hn, hle⟩
  obtain ⟨-, hmax, -⟩ := mem_sizes hn
  exact hle.trans hmax

/-- Settles O55: the residues are the coefficients of the product polynomial, which are the convolution's sums. -/
theorem residuesAreTheConvolution : Obligations.ResiduesAreTheConvolution := by
  intro c i n a b hc hi hik hn hab
  obtain ⟨j, rfl⟩ := Nat.exists_eq_add_of_le' hi
  obtain ⟨-, hmax, -⟩ := mem_sizes hn
  have hsize : c.selectSize n = n := selectSize_of_mem hc hn
  refine ⟨residues_length c _ n a b, fun t ht => ?_⟩
  have hcoeff := residues_getD hc hmax hik hab (hsize.symm ▸ ht)
  rwa [hsize, coeff_mul_eq_sum] at hcoeff

/-- Settles O56: what carry propagation loses is a multiple of `base^length`. -/
theorem reconstructionIsExact : Obligations.ReconstructionIsExact := by
  refine ⟨fun c x hc hx => garner_eq hc.prime hc.nodup hx, fun base coeffs hbase =>
    ⟨carryPropagate_length base coeffs 0, carryPropagate_lt hbase coeffs 0, fun hfit => ?_⟩⟩
  rw [← digitVal_eq_foldr] at hfit ⊢
  rw [← digitVal_eq_foldr, carryPropagate_val hbase, Nat.add_zero, Nat.mod_eq_of_lt hfit]

/-- Settles O57: the division by `R` is exact, and one subtraction of `p` is enough. -/
theorem redcDividesByR : Obligations.RedcDividesByR :=
  fun _ _ w _ _ _ hinv hT => redc_spec (Nat.two_pow_pos w) hinv hT

/-- Settles O58: the law of the stages, `difTransform_eq`, asks for its root of unity in `ZMod p`. -/
theorem butterfliesComputeTransform : Obligations.ButterfliesComputeTransform := by
  intro p w radices x hp hradices hlen hlt hw
  have hroot : (w : ZMod p) ^ radices.prod = 1 := by
    rw [← Nat.cast_pow, ← ZMod.natCast_mod, hw, Nat.cast_one]
  exact difTransform_eq hp hradices hlen hlt hroot

end
end

section
/-! PROOFS. Proofs/Dispatcher.lean: unit C5 (R210 to R220): how the dispatcher's two commands end, which rows make tables
present, and that the eight ways to square an array agree. -/

namespace Sys2Proof.Machine

variable {s t : State} {i : Instr} {n : Nat}

/-! ### How a command of the dispatcher ends -/

/-- A command that asks for scratch from the threshold on, and whose effect is known in a legal configuration, has four
ends: completion there, AddressRange, AliasViolation, and AllocationFailure; never SizeLimit (R210, R215, R220). -/
theorem ends_of_dispatcher {ranges overlap : Prop} {C : State → Prop} {size : Operands → Nat} {eff : Operands → Effect}
    (hexec : exec i s = s.run i (fun o => s.allocFailure i (s.cfg.kThreshold ≤ size o)) eff)
    (hbad : badRegisters i s.operands = false) (hr : footprintInside i s.cfg s.operands = true ↔ ranges)
    (ho : overlapOk i s.operands = true ↔ overlap) (hc : s.cfg.Legal → C (s.complete (eff s.operands))) :
    (s.cfg.Legal → ranges → overlap → s.ScratchOk i (size s.operands) → ∃ t, exec i s = .next t ∧ C t) ∧
      (¬ranges → EndsIn i s 8) ∧ (ranges → ¬overlap → EndsIn i s 7) ∧
      (ranges → overlap → ¬s.ScratchOk i (size s.operands) → EndsIn i s 3 (pairsOf (outputs i s.operands))) := by
  obtain ⟨hcompletes, herrors⟩ := ends_of_threshold (C := fun t => s.cfg.Legal → C t) hexec hbad hr ho hc
  refine ⟨fun hlegal h h' hs => ?_, herrors⟩
  obtain ⟨t, ht, hC⟩ := hcompletes h h' hs
  exact ⟨t, ht, hC hlegal⟩

/-! ### The NTT row -/

theorem takesNtt_iff (c : Config) (na nb : Nat) : takesNtt c na nb = true ↔
    c.kThreshold ≤ min na nb ∧ c.nThreshold ≤ min na nb ∧ viewLen c (na + nb) ≤ c.nMax := by
  simp only [takesNtt, nttFits, Bool.and_eq_true, decide_eq_true_eq, and_assoc]

theorem takesNtt_self_iff (c : Config) (n : Nat) : takesNtt c n n = true ↔
    c.kThreshold ≤ n ∧ c.nThreshold ≤ n ∧ viewLen c (2 * n) ≤ c.nMax := by
  rw [takesNtt_iff, min_self, two_mul]

/-- A command that adds the tables of a product of `n` limbs in one row alone makes exactly those present in that row, and
none in the others (R166, R214). -/
theorem tables_of_row {row : Prop} {taken : Bool} {eff : Effect} (hrow : taken = true ↔ row)
    (h : eff.tables = if taken then nttTables s.cfg n else []) :
    (row → TablesBuilt s (s.complete eff) (s.cfg.selectSize (viewLen s.cfg n))) ∧
      (¬row → (s.complete eff).tw = s.tw) := by
  refine ⟨fun hr => tablesBuilt_complete (h.trans (if_pos (hrow.mpr hr))), fun hr => ?_⟩
  rw [State.complete_tw, h, if_neg (mt hrow.mp hr)]
  rfl

/-! ### The two commands -/

theorem exec_mul (s : State) :
    exec .mul s = s.run .mul (fun o => s.allocFailure .mul (s.cfg.kThreshold ≤ min o.na o.nb)) fun o =>
      { stores :=
          [(o.rp, dispatch s.cfg (o.na + o.nb) (s.memRead o.ap o.na) o.na (s.memRead o.bp o.nb) o.nb true)]
        ret := 0
        tables := if takesNtt s.cfg o.na o.nb then nttTables s.cfg (o.na + o.nb) else [] } := rfl

theorem exec_sqr (s : State) :
    exec .sqr s = s.run .sqr (fun o => s.allocFailure .sqr (s.cfg.kThreshold ≤ o.na)) fun o =>
      { stores := [(o.rp, dispatchSqr s.cfg (s.memRead o.ap o.na) o.na)]
        ret := 0
        tables := if takesNtt s.cfg o.na o.na then nttTables s.cfg (2 * o.na) else [] } := rfl

/-- Whichever algorithm runs, the limbs for two arrays in memory are those of the value equation (R211). -/
theorem dispatch_memRead (hc : s.cfg.Legal) (p q m n : Nat) :
    dispatch s.cfg (m + n) (s.memRead p m) m (s.memRead q n) n true = limbs (s.valAt p m * s.valAt q n) (m + n) :=
  dispatch_eq hc _ _ _ _ _ _ (memRead_length s p m) (memRead_length s q n)

/-- Whichever algorithm runs, the limbs for the square of an array in memory are those of the value equation (R218). -/
theorem dispatchSqr_memRead (hc : s.cfg.Legal) (p n : Nat) :
    dispatchSqr s.cfg (s.memRead p n) n = limbs (s.valAt p n * s.valAt p n) (2 * n) :=
  dispatchSqr_eq hc _ _ (memRead_length s p n)

/-! ### The eight ways to square an array -/

/-- The commands that square an array if `BP` and `NB` name it too (R219). -/
abbrev squarings : List Instr :=
  [.sqr, .mul, .sqrBasecase, .mulBasecase, .sqrKaratsuba, .mulKaratsuba, .sqrNtt, .mulNtt]

/-- The limbs of a square command's result by the value equation: `limbs(A^2, 2·na)` (R134). -/
def State.squareLimbs (s : State) : List Limb := limbs (s.inA * s.inA) (2 * s.na.toNat)

/-- The product of an array by itself is its square. -/
theorem productLimbs_of_same (hbp : s.bp = s.ap) (hnb : s.nb = s.na) : s.productLimbs = s.squareLimbs := by
  rw [State.productLimbs, hbp, hnb, basecase, State.squareLimbs, two_mul]

/-- Each of the four square commands, when it ends without error, stored the limbs of the square (R134, R152, R176, R218). -/
theorem mem_of_square (hi : i ∈ [.sqrBasecase, .sqrKaratsuba, .sqrNtt, .sqr]) (hc : s.cfg.Legal)
    (h : exec i s = .next t) (herr : t.err = 0) : t.mem = s.mem.store [(s.rp.toNat, s.squareLimbs)] := by
  simp only [List.mem_cons, List.not_mem_nil, or_false] at hi
  obtain rfl | rfl | rfl | rfl := hi
  · rw [exec, execSqrBasecase] at h
    rw [run_eq_complete h herr]
    rfl
  · rw [exec_sqrKaratsuba] at h
    rw [run_eq_complete h herr]
    rfl
  · rw [exec_sqrNtt] at h
    have hfit : nttFits s.cfg (2 * s.na.toNat) = true := nttFits_of_nttFailure (run_checks_passed h herr).2
    rw [run_eq_complete h herr, State.squareLimbs, ← nttSqr_memRead hc _ hfit]
    rfl
  · rw [exec_sqr] at h
    rw [run_eq_complete h herr, State.squareLimbs, ← dispatchSqr_memRead hc]
    rfl

/-- `mul_karatsuba` that ends without error stored the limbs of the product (R141, R152). -/
theorem mem_of_mulKaratsuba (h : exec .mulKaratsuba s = .next t) (herr : t.err = 0) :
    t.mem = s.mem.store [(s.rp.toNat, limbs (s.inA * s.inB) (2 * s.na.toNat))] := by
  rw [exec_mulKaratsuba] at h
  rw [run_eq_complete h herr]
  rfl

/-- Each of the eight, when it ends without error, stored the limbs of the square (R219). -/
theorem mem_of_squaring (hi : i ∈ squarings) (hc : s.cfg.Legal) (hbp : s.bp = s.ap) (hnb : s.nb = s.na)
    (h : exec i s = .next t) (herr : t.err = 0) : t.mem = s.mem.store [(s.rp.toNat, s.squareLimbs)] := by
  have kinds : ∀ i ∈ squarings, (i = .mulBasecase ∨ i = .mulNtt ∨ i = .mul) ∨ i = .mulKaratsuba ∨
      i ∈ [.sqrBasecase, .sqrKaratsuba, .sqrNtt, .sqr] := by decide
  obtain hproduct | rfl | hsquare := kinds i hi
  · rw [mem_of_product hproduct hc h herr, productLimbs_of_same hbp hnb]
  · rw [mem_of_mulKaratsuba h herr, State.squareLimbs, State.inB, hbp]
  · exact mem_of_square hsquare hc h herr

/-- Each of the eight returns 0 when it ends without error (R131, R134, R141, R150, R160, R177, R210, R218). -/
theorem ret_of_squaring (hi : i ∈ squarings) (h : exec i s = .next t) (herr : t.err = 0) : t.ret = 0 := by
  simp only [squarings, List.mem_cons, List.not_mem_nil, or_false] at hi
  obtain rfl | rfl | rfl | rfl | rfl | rfl | rfl | rfl := hi <;> rw [exec] at h <;>
    exact congrArg State.ret (run_eq_complete h herr)

end Sys2Proof.Machine

section
open Sys2Proof Sys2Proof.Machine

/-- Settles O33: whichever algorithm runs, its limbs are the base case's. -/
theorem mulStoresProduct : Obligations.MulStoresProduct :=
  ⟨by decide, fun s => ends_of_dispatcher (exec_mul s) rfl (footprint_product s (by decide))
    (overlap_product s (by decide)) fun hc =>
      ⟨completed_single (by rw [dispatch_memRead hc]; rfl) rfl, tables_of_row (takesNtt_iff _ _ _) rfl⟩⟩

/-- Settles O34: whichever algorithm runs, its limbs are the base case's. -/
theorem sqrStoresSquare : Obligations.SqrStoresSquare :=
  ⟨by decide, fun s => ends_of_dispatcher (exec_sqr s) rfl (footprint_square s (by decide))
    (overlap_square s (by decide)) fun hc =>
      ⟨completed_single (by rw [dispatchSqr_memRead hc]; rfl) rfl, tables_of_row (takesNtt_self_iff _ _) rfl⟩⟩

/-- Settles O47: both commands store the limbs of the one square and return 0. -/
theorem squaringEquivalence : Obligations.SquaringEquivalence := by
  intro i j s t u hij hc hbp hnb ht hterr hu huerr
  have hi : i ∈ squarings := hij i (by simp)
  have hj : j ∈ squarings := hij j (by simp)
  constructor
  · rw [mem_of_squaring hj hc hbp hnb hu huerr, mem_of_squaring hi hc hbp hnb ht hterr]
  · rw [ret_of_squaring hj hu huerr, ret_of_squaring hi ht hterr]

end
end

section
/-! PROOFS. Proofs/Division.lean: unit C6 (R230 to R244): how `div_qr` ends, and that the divider's algorithm gives the
quotient and the remainder of the value equation. -/

namespace Sys2Proof.Machine

variable {s t : State}

/-! ### The quotient fits its limbs -/

/-- A list whose top limb is not 0 has a value with no limb to spare. -/
theorem pow_le_val {l : List Limb} (hl : 1 ≤ l.length) (htop : l.getD (l.length - 1) 0 ≠ 0) :
    beta ^ (l.length - 1) ≤ val l := by
  have htoNat : (l.getD (l.length - 1) 0).toNat ≠ 0 := mt (BitVec.eq_of_toNat_eq (y := 0)) htop
  rw [val_top (n := l.length - 1) (by omega)]
  exact (Nat.le_mul_of_pos_right _ (Nat.pos_of_ne_zero htoNat)).trans (Nat.le_add_left _ _)

/-- By a divisor whose top limb is not 0, the quotient has at most `nn - dn + 1` limbs (R231). -/
theorem quotient_lt {u v : List Limb} (hv : 1 ≤ v.length) (hle : v.length ≤ u.length)
    (htop : v.getD (v.length - 1) 0 ≠ 0) : val u / val v < beta ^ (u.length - v.length + 1) := by
  refine Nat.div_lt_of_lt_mul ?_
  calc val u < beta ^ u.length := val_lt u
    _ = beta ^ (v.length - 1) * beta ^ (u.length - v.length + 1) := by rw [← pow_add]; congr 1; omega
    _ ≤ val v * beta ^ (u.length - v.length + 1) := Nat.mul_le_mul_right _ (pow_le_val hv htop)

/-- The quotient in `nn - dn + 1` limbs and the remainder in `dn` limbs lose nothing of the value equation (R230). -/
theorem quotient_remainder_exact {u v : List Limb} (hv : 1 ≤ v.length) (hle : v.length ≤ u.length)
    (htop : v.getD (v.length - 1) 0 ≠ 0) :
    val u = val (limbs (val u / val v) (u.length - v.length + 1)) * val v + val (limbs (val u % val v) v.length) ∧
      val (limbs (val u % val v) v.length) < val v := by
  have hpos : 0 < val v := (Nat.pow_pos beta_pos).trans_le (pow_le_val hv htop)
  have hmod : val u % val v < val v := Nat.mod_lt _ hpos
  rw [val_limbs (quotient_lt hv hle htop), val_limbs (hmod.trans (val_lt v))]
  exact ⟨(Nat.div_add_mod' _ _).symm, hmod⟩

/-! ### Limbs of an array in memory -/

theorem memRead_getD (s : State) (p : Nat) {n i : Nat} (hi : i < n) : (s.memRead p n).getD i 0 = s.limb (p + i) := by
  simp [State.memRead, hi]

theorem valAt_zero (s : State) (p : Nat) : s.valAt p 0 = 0 := rfl

theorem valAt_one (s : State) (p : Nat) : s.valAt p 1 = (s.limb p).toNat := rfl

/-! ### The checks of `div_qr`, in words -/

/-- The quotient's length: `nn - dn + 1`, and 0 when `dn = 0` (R231). -/
abbrev State.quotLen (s : State) : Nat := if s.nb.toNat = 0 then 0 else s.na.toNat - s.nb.toNat + 1

/-- The value of the divisor (R230). -/
abbrev State.divisor (s : State) : Nat := s.valAt s.bp.toNat s.nb.toNat

/-- The divisor's top limb (R231 check 5). -/
abbrev State.topLimb (s : State) : Limb := s.limb (s.bp.toNat + (s.nb.toNat - 1))

theorem badRegisters_divQr (s : State) :
    badRegisters .divQr s.operands = true ↔ 1 ≤ s.nb.toNat ∧ s.na.toNat < s.nb.toNat :=
  Bool.and_eq_true_iff.trans (and_congr decide_eq_true_iff decide_eq_true_iff)

/-- The ranges of `div_qr`: dividend, divisor and quotient (R61, R62). -/
theorem footprint_divQr (s : State) :
    footprintInside .divQr s.cfg s.operands = true ↔
      s.InLM s.ap.toNat s.na.toNat ∧ s.InLM s.bp.toNat s.nb.toNat ∧ s.InLM s.rp.toNat s.quotLen := by
  simp only [footprintInside, inputs, outputs, Operands.a, Operands.b, Operands.quotient, List.all_cons, List.all_nil,
    Bool.and_true, Bool.and_eq_true, inside_iff, State.operands_ap, State.operands_bp, State.operands_rp,
    State.operands_na, State.operands_nb]
  tauto

/-- The overlap rule of `div_qr`: its three ranges are apart (R67). -/
theorem overlap_divQr (s : State) :
    overlapOk .divQr s.operands = true ↔
      Apart s.rp.toNat s.quotLen s.ap.toNat s.na.toNat ∧ Apart s.rp.toNat s.quotLen s.bp.toNat s.nb.toNat ∧
        Apart s.ap.toNat s.na.toNat s.bp.toNat s.nb.toNat :=
  (Bool.and_eq_true_iff.trans (and_congr
    (Bool.and_eq_true_iff.trans (and_congr (disjoint_iff _ _ _ _) (disjoint_iff _ _ _ _)))
    (disjoint_iff _ _ _ _))).trans and_assoc

theorem divFailure_divisionByZero (hv : s.divisor = 0) : s.divFailure s.operands = some .divisionByZero := if_pos hv

theorem divFailure_badOperand (hv : s.divisor ≠ 0) (htop : s.topLimb = 0) :
    s.divFailure s.operands = some .badOperand :=
  (if_neg hv).trans (if_pos htop)

theorem divFailure_of_topLimb (hv : s.divisor ≠ 0) (htop : s.topLimb ≠ 0) :
    s.divFailure s.operands = s.allocFailure .divQr true :=
  (if_neg hv).trans (if_neg htop)

theorem divFailure_allocationFailure (hv : s.divisor ≠ 0) (htop : s.topLimb ≠ 0) (halloc : s.allocOk .divQr = false) :
    s.divFailure s.operands = some .allocationFailure := by
  rw [divFailure_of_topLimb hv htop, State.allocFailure, halloc]
  rfl

theorem divFailure_none (hv : s.divisor ≠ 0) (htop : s.topLimb ≠ 0) (halloc : s.allocOk .divQr = true) :
    s.divFailure s.operands = none := by
  rw [divFailure_of_topLimb hv htop, State.allocFailure, halloc]
  rfl

/-! ### How `div_qr` ends -/

/-- The stores of `div_qr`: quotient, remainder, and zeros above the remainder (R230, R242). -/
abbrev State.divStores (s : State) : List (Nat × List Limb) :=
  [(s.rp.toNat, limbs (s.inA / s.divisor) (s.na.toNat - s.nb.toNat + 1)),
    (s.ap.toNat, limbs (s.inA % s.divisor) s.nb.toNat),
    (s.ap.toNat + s.nb.toNat, List.replicate (s.na.toNat - s.nb.toNat) 0)]

/-- A divisor that is not 0 has limbs, so the three stores lie in ranges that are apart, and none overwrites another. -/
theorem divStores_pairwise (hreg : registerFailure .divQr s.cfg s.operands = none) (hv : s.divisor ≠ 0) :
    s.divStores.Pairwise fun x y => ∀ b, x.1 ≤ b ∧ b < x.1 + x.2.length → ¬(y.1 ≤ b ∧ b < y.1 + y.2.length) := by
  obtain ⟨hbad, -, hov⟩ := registerFailure_none.mp hreg
  have hlen : ¬(1 ≤ s.nb.toNat ∧ s.na.toNat < s.nb.toNat) := mt (badRegisters_divQr s).mpr (by simp [hbad])
  have hnb : s.nb.toNat ≠ 0 := fun h => hv (by rw [State.divisor, h, valAt_zero])
  obtain ⟨hqu, -, -⟩ := (overlap_divQr s).mp hov
  rw [State.quotLen, if_neg hnb] at hqu
  simp only [List.pairwise_cons, List.mem_cons, List.not_mem_nil, or_false, forall_eq_or_imp, forall_eq, limbs_length,
    List.length_replicate, false_imp_iff, implies_true, List.Pairwise.nil, and_true]
  refine ⟨⟨?_, ?_⟩, ?_⟩ <;> omega

/-- `div_qr` that ends without error stored the quotient, the remainder and zeros above it, and returned 0 (R230). -/
theorem completed_divQr (h : exec .divQr s = .next t) (herr : t.err = 0) :
    Completed s t s.divStores 0 ∧ t.tw = s.tw := by
  rw [exec, execDivQr] at h
  obtain ⟨hreg, hlate⟩ := run_checks_passed h herr
  have hv : s.divisor ≠ 0 := fun h0 => by simp [divFailure_divisionByZero h0] at hlate
  rw [run_eq_complete h herr]
  exact ⟨completed_complete s _ (divStores_pairwise hreg hv), rfl⟩

/-- `div_qr` ends without error when the register checks pass, the divisor's top limb is not 0, and it gets scratch. -/
theorem exec_divQr_ok (hreg : registerFailure .divQr s.cfg s.operands = none) (hv : s.divisor ≠ 0)
    (htop : s.topLimb ≠ 0) (halloc : s.allocOk .divQr = true) : ∃ t, exec .divQr s = .next t ∧ t.err = 0 := by
  rw [exec, execDivQr]
  exact ⟨_, run_completes hreg (divFailure_none hv htop halloc), rfl⟩

/-- After the register checks `div_qr` ends in what its late checks find (R231 checks 4 to 6, R301). -/
theorem divQr_endsIn_late {e : ErrorKind} (hreg : registerFailure .divQr s.cfg s.operands = none)
    (hlate : s.divFailure s.operands = some e) :
    EndsIn .divQr s e.code
      (if e.clobbers then [(s.rp.toNat, s.quotLen), (s.ap.toNat, s.na.toNat)] else []) := by
  rw [EndsIn, exec, execDivQr]
  exact ⟨_, run_raises_late hreg hlate, errored_raise s e _⟩

end Sys2Proof.Machine

section
open Sys2Proof Sys2Proof.Machine

/-- Settles O35: the six checks one after another; the top limb that is not 0 makes the quotient fit its limbs. -/
theorem divQrStoresQuotientAndRemainder : Obligations.DivQrStoresQuotientAndRemainder := by
  refine ⟨by decide, fun s => ⟨fun h h' => endsIn_badOperand ((badRegisters_divQr s).mpr ⟨h, h'⟩), fun hlen => ?_⟩⟩
  have hbad : badRegisters .divQr s.operands = false :=
    Bool.eq_false_iff.mpr (mt (badRegisters_divQr s).mp (by omega))
  have hr := footprint_divQr s
  have ho := overlap_divQr s
  refine ⟨fun h => endsIn_addressRange hbad (mt hr.mp h),
    fun h h' => endsIn_aliasViolation hbad (hr.mpr h) (mt ho.mp h'), fun h h' hv => ?_, fun h h' hv htop => ?_,
    fun h h' hv htop halloc => ?_, fun h h' hv htop halloc => ?_⟩
  all_goals have hreg := registerFailure_none.mpr ⟨hbad, hr.mpr h, ho.mpr h'⟩
  · exact divQr_endsIn_late hreg (divFailure_divisionByZero hv)
  · exact divQr_endsIn_late hreg (divFailure_badOperand hv htop)
  · exact divQr_endsIn_late hreg (divFailure_allocationFailure hv htop halloc)
  · obtain ⟨t, ht, herr⟩ := exec_divQr_ok hreg hv htop halloc
    obtain ⟨hcompleted, htw⟩ := completed_divQr ht herr
    have hnb : s.nb.toNat ≠ 0 := fun h0 => hv (by rw [h0, valAt_zero])
    have hexact := quotient_remainder_exact (u := s.memRead s.ap.toNat s.na.toNat)
      (v := s.memRead s.bp.toNat s.nb.toNat)
    simp only [memRead_length, memRead_getD s s.bp.toNat (Nat.sub_one_lt hnb)] at hexact
    exact ⟨t, ht, hcompleted, htw, hexact (Nat.one_le_iff_ne_zero.mpr hnb) (hlen.resolve_left hnb) htop⟩

/-- Settles O45: with one limb the divisor's value is `SC`, so both commands divide the same two numbers. -/
theorem oneLimbDivisionsAgree : Obligations.OneLimbDivisionsAgree := by
  intro s t u hnb hna hsc ht hterr hu huerr
  have hone : s.nb.toNat = 1 := by rw [hnb]; rfl
  have hdivisor : s.divisor = s.sc.toNat := by rw [State.divisor, hone, valAt_one, hsc]
  have hdivrem := (completed_divrem1 hu huerr).2
  have hdiv := (completed_divQr ht hterr).1
  rw [State.divStores, hdivisor, hone, Nat.sub_add_cancel hna] at hdiv
  have hquot := hdiv.holds _ List.mem_cons_self
  have hrem := hdiv.holds _ (List.mem_cons_of_mem _ List.mem_cons_self)
  have hzeros := hdiv.holds _ (List.mem_cons_of_mem _ (List.mem_cons_of_mem _ List.mem_cons_self))
  refine ⟨fun j hj => ?_, ?_, fun j h1 hj => ?_⟩
  · have hj' : j < (limbs (s.inA / s.sc.toNat) s.na.toNat).length := by rwa [limbs_length]
    exact (hquot j hj').trans (hdivrem.holds _ List.mem_cons_self j hj').symm
  · refine (hrem 0 Nat.one_pos).trans (congrArg some (BitVec.eq_of_toNat_eq ?_))
    rw [hdivrem.ret]
    exact toNat_ofNat_of_lt (hdivrem.ret ▸ limb_lt u.ret)
  · have hread := hzeros (j - 1) (by rw [List.length_replicate]; omega)
    rwa [List.getElem_replicate, show s.ap.toNat + 1 + (j - 1) = s.ap.toNat + j by omega] at hread

/-- Settles O59: the pass's remainder is known by its value and its length. -/
theorem dividerPassFindsQuotientLimb : Obligations.DividerPassFindsQuotientLimb := by
  intro vn low top hlow hdn hnorm hlt
  have hbeta : beta = 2 * 2 ^ 63 := by decide
  obtain ⟨hquot, hlen, hrem, htop⟩ := divPass_spec rfl hlow hdn (hbeta.trans_le (Nat.mul_le_mul_left 2 hnorm)) hlt
  exact ⟨hquot, eq_limbs_of_val hlen hrem, htop⟩

/-- Settles O60: the algorithm's limbs are those of the value equation, which lose nothing of it. -/
theorem schoolbookDivisionIsExact : Obligations.SchoolbookDivisionIsExact := by
  intro u v hv hle htop
  rw [knuthDivide_eq hv hle htop]
  exact ⟨rfl, quotient_remainder_exact hv hle htop⟩

end
end

section
/-! PROOFS. Proofs/Exceptions.lean: the rules about errors (R290 to R302, R318): what leaves `STATUS` and `ERR` alone, and
which of a command's checks is the one reported. -/

namespace Sys2Proof.Machine

variable {s t : State} {i : Instr}

/-! ### `STATUS.DONE` -/

/-- However a command ends, it sets `DONE` (R28, R318). -/
theorem State.Ended.done (h : t.Ended) : t.done = true := by
  obtain ⟨hstatus, -⟩ | ⟨hstatus, -⟩ := h <;> rw [State.done, hstatus] <;> rfl

/-! ### The register checks (R302 checks 2 to 4) -/

/-- BadOperand from registers alone: a shift count of 64 or more, or a nonempty divisor longer than the dividend. -/
theorem badRegisters_iff (i : Instr) (o : Operands) :
    badRegisters i o = true ↔
      ((i = .lshift ∨ i = .rshift) ∧ 64 ≤ o.sc) ∨ (i = .divQr ∧ 1 ≤ o.nb ∧ o.na < o.nb) := by
  cases i <;> simp [badRegisters]

/-- A command known to end in an error has that error's code in `ERR`, whichever state it led to. -/
theorem err_of_endsIn {code : Limb} {lost : List (Nat × Nat)} (h : EndsIn i s code.toNat lost)
    (ht : exec i s = .next t) : t.err = code := by
  obtain ⟨t', ht', herrored⟩ := h
  obtain rfl := Host.Outcome.next.inj (ht'.symm.trans ht)
  exact BitVec.eq_of_toNat_eq herrored.err

/-! ### The late checks (R302 checks 5 to 8) -/

/-- The length of the second factor, for a command that has one: its own, or the first factor's (R78). -/
def secondLength (i : Instr) (o : Operands) : Nat :=
  match i with
  | .mulNtt | .mul => o.nb
  | _ => o.na

/-- Check 5: a division by zero (R293). -/
abbrev State.ZeroDivisor (s : State) (i : Instr) (o : Operands) : Prop :=
  (i = .divrem1 ∧ o.sc = 0) ∨ (i = .divQr ∧ s.valAt o.bp o.nb = 0)

/-- Check 6: a divisor whose top limb is 0 (R231 check 5). -/
abbrev State.ZeroTopLimb (s : State) (i : Instr) (o : Operands) : Prop :=
  i = .divQr ∧ s.limb (o.bp + (o.nb - 1)) = 0

/-- Check 7: a product too long for the engine (R294). -/
abbrev State.TooLong (s : State) (i : Instr) (o : Operands) : Prop :=
  (i = .mulNtt ∨ i = .sqrNtt) ∧ s.cfg.nMax < viewLen s.cfg (o.na + secondLength i o)

/-- The commands that need scratch: the engine and the divider always, four others from the Karatsuba threshold on
(R296). -/
abbrev State.NeedsScratch (s : State) (i : Instr) (o : Operands) : Prop :=
  i = .mulNtt ∨ i = .sqrNtt ∨ i = .divQr ∨
    ((i = .mulKaratsuba ∨ i = .sqrKaratsuba ∨ i = .mul ∨ i = .sqr) ∧ s.cfg.kThreshold ≤ min o.na (secondLength i o))

/-- Check 8: scratch is needed and refused (R295). -/
abbrev State.ScratchRefused (s : State) (i : Instr) (o : Operands) : Prop :=
  s.NeedsScratch i o ∧ s.allocOk i = false

/-- The first late check that fails: one chain for all commands (R302). -/
def State.lateFailure (s : State) (i : Instr) (o : Operands) : Option ErrorKind :=
  if s.ZeroDivisor i o then some .divisionByZero
  else if s.ZeroTopLimb i o then some .badOperand
  else if s.TooLong i o then some .sizeLimit
  else if s.ScratchRefused i o then some .allocationFailure
  else none

/-- Each command's own late checks find what the common chain finds. -/
theorem exec_run_late_eq (i : Instr) (s : State) :
    ∃ late eff, exec i s = s.run i late eff ∧ ∀ o, late o = s.lateFailure i o := by
  simp only [State.lateFailure, State.ZeroDivisor, State.ZeroTopLimb, State.TooLong, State.ScratchRefused,
    State.NeedsScratch]
  cases i <;> rw [exec]
  case divrem1 =>
    refine ⟨_, _, rfl, fun o => ?_⟩
    simp
  case divQr =>
    refine ⟨_, _, rfl, fun o => ?_⟩
    simp [State.divFailure, State.allocFailure, State.valB, State.valAt]
  case mulKaratsuba | sqrKaratsuba | mul | sqr =>
    refine ⟨_, _, rfl, fun o => ?_⟩
    simp [State.allocFailure, secondLength]
  case mulNtt | sqrNtt =>
    refine ⟨_, _, rfl, fun o => ?_⟩
    simp [State.nttFailure, nttFits, State.allocFailure, secondLength, two_mul]
  all_goals
    refine ⟨noLateCheck, _, rfl, fun o => ?_⟩
    simp [noLateCheck]

/-- So every command is a run whose late checks are that chain. -/
theorem exec_run_lateFailure (i : Instr) (s : State) : ∃ eff, exec i s = s.run i (s.lateFailure i) eff := by
  obtain ⟨late, eff, hexec, hlate⟩ := exec_run_late_eq i s
  exact ⟨eff, by rw [hexec, funext hlate]⟩

/-- `ERR` after a command whose checks found this: the error's code, or 0 (R29, R291). -/
def errWordOf : Option ErrorKind → Limb
  | some e => errWord e.code
  | none => errWord 0

/-- A command that passes the register checks reports what its late checks find (R302). -/
theorem err_of_registerFailure_none (hreg : registerFailure i s.cfg s.operands = none) (ht : exec i s = .next t) :
    t.err = errWordOf (s.lateFailure i s.operands) := by
  obtain ⟨eff, hexec⟩ := exec_run_lateFailure i s
  rw [hexec] at ht
  cases hlate : s.lateFailure i s.operands with
  | some e =>
    obtain rfl := Host.Outcome.next.inj ((run_raises_late hreg hlate).symm.trans ht)
    rfl
  | none =>
    obtain rfl := Host.Outcome.next.inj ((run_completes hreg hlate).symm.trans ht)
    rfl

/-- The codes of the late checks, in their order (R291, R302). -/
theorem errWordOf_lateFailure (s : State) (i : Instr) (o : Operands) :
    (s.ZeroDivisor i o → errWordOf (s.lateFailure i o) = 2) ∧
    (¬s.ZeroDivisor i o → s.ZeroTopLimb i o → errWordOf (s.lateFailure i o) = 6) ∧
    (¬s.ZeroDivisor i o → ¬s.ZeroTopLimb i o → s.TooLong i o → errWordOf (s.lateFailure i o) = 4) ∧
    (¬s.ZeroDivisor i o → ¬s.ZeroTopLimb i o → ¬s.TooLong i o → s.ScratchRefused i o →
      errWordOf (s.lateFailure i o) = 3) ∧
    (¬s.ZeroDivisor i o → ¬s.ZeroTopLimb i o → ¬s.TooLong i o → ¬s.ScratchRefused i o →
      errWordOf (s.lateFailure i o) = 0) := by
  unfold State.lateFailure
  refine ⟨fun hz => ?_, fun hz ht => ?_, fun hz ht hl => ?_, fun hz ht hl hs => ?_, fun hz ht hl hs => ?_⟩
  · rw [if_pos hz]; rfl
  · rw [if_neg hz, if_pos ht]; rfl
  · rw [if_neg hz, if_neg ht, if_pos hl]; rfl
  · rw [if_neg hz, if_neg ht, if_neg hl, if_pos hs]; rfl
  · rw [if_neg hz, if_neg ht, if_neg hl, if_neg hs]; rfl

end Sys2Proof.Machine

section
open Sys2Proof Sys2Proof.Machine

/-- Settles O6: a command sets `DONE` however it ends, and a host access leaves `STATUS` as it is. -/
theorem doneStaysUntilReset : Obligations.DoneStaysUntilReset := by
  intro s t h hr hdone
  obtain ⟨-, rfl⟩ | ⟨w, rest, i, -, -, he⟩ | ⟨w, rest, e, -, -, rfl⟩ | ⟨act, rest, hs, -, ha⟩ := step_cases h
  · exact hdone
  · exact (exec_ended he).done
  · exact (ended_raise _ (by decide) []).done
  · obtain ⟨rfl, -⟩ | ⟨-, -, -, -, hstatus, -⟩ := hostAct_keeps ha
    · exact absurd (by rw [hs]; rfl) hr
    · rwa [State.done, hstatus]

/-- Settles O7: such an action starts no command, and what it leaves alone is `hostAct_keeps`. -/
theorem hostAccessRaisesNoError : Obligations.HostAccessRaisesNoError := by
  intro s t act rest hs hcmd hreset h
  have hnone : act.commandWord = none :=
    Option.eq_none_iff_forall_ne_some.mpr fun w hw => hcmd w (commandWord_eq_some.mp hw)
  rw [step_of_hostAct hs hnone] at h
  obtain ⟨hact, -⟩ | ⟨hcfg, htw, hc, hret, hstatus, herr⟩ := hostAct_keeps h
  · exact absurd hact hreset
  · exact ⟨hstatus, herr, hret, hc, htw, hcfg⟩

/-- Settles O36: checks 2 to 4 end in the errors of the register checks; with these passed, the late checks report. -/
theorem firstFailingCheckIsReported : Obligations.FirstFailingCheckIsReported := by
  refine ⟨fun s w rest hs hw => ?_, fun i s => ?_⟩
  · cases hd : decode w with
    | ok i => exact absurd hd (hw i)
    | error e => exact ⟨_, (step_of_commandWrite hs).trans (execWord_of_decode_error hd _), rfl⟩
  · obtain ⟨t, ht⟩ := exec_next i s
    refine ⟨t, ht, fun hbad => err_of_endsIn (endsIn_badOperand ((badRegisters_iff _ _).mpr hbad)) ht,
      fun hbad hrange => ?_, fun hbad hrange hover => ?_, fun hbad hrange hover => ?_⟩
    all_goals replace hbad := Bool.eq_false_iff.mpr (mt (badRegisters_iff i s.operands).mp hbad)
    · exact err_of_endsIn (endsIn_addressRange hbad (Bool.eq_false_iff.mp hrange)) ht
    · exact err_of_endsIn
        (endsIn_aliasViolation hbad (eq_true_of_ne_false hrange) (Bool.eq_false_iff.mp hover)) ht
    · have hreg : registerFailure i s.cfg s.operands = none :=
        registerFailure_none.mpr ⟨hbad, eq_true_of_ne_false hrange, eq_true_of_ne_false hover⟩
      rw [err_of_registerFailure_none hreg ht]
      exact errWordOf_lateFailure s i s.operands

end
end

section
/-! PROOFS. Proofs/ResetAndConfiguration.lean: the platform's reset (R320, R321), and that the configuration shows in nothing
but three errors (R331). -/

namespace Sys2Proof.Machine

variable {s t t' : State} {i : Instr} {c : Config}

/-! ### The platform's reset -/

/-- The step of a reset leads to the reset state with the host's other actions still pending (R320). -/
theorem step_of_reset {rest : List HostAction} (h : s.host = .reset :: rest) :
    step s = .next (State.platformReset { s with host := rest }) :=
  step_of_hostAct h rfl

/-! ### The checks that ask nothing of the configuration -/

/-- The first check that fails, of those that read no configuration: AddressRange, SizeLimit and AllocationFailure are left
out of the chain of R302. -/
def State.configFreeFailure (s : State) (i : Instr) : Option ErrorKind :=
  if badRegisters i s.operands then some .badOperand
  else if !overlapOk i s.operands then some .aliasViolation
  else if s.ZeroDivisor i s.operands then some .divisionByZero
  else if s.ZeroTopLimb i s.operands then some .badOperand
  else none

theorem configFreeFailure_withCfg (s : State) (i : Instr) (c : Config) :
    State.configFreeFailure { s with cfg := c } i = s.configFreeFailure i := rfl

/-- Where the checks of a command find none of AddressRange, SizeLimit and AllocationFailure, leaving these out changes
nothing. -/
theorem failure_eq_configFreeFailure
    (h : ∀ e, (registerFailure i s.cfg s.operands).or (s.lateFailure i s.operands) = some e → e.code ∉ [3, 4, 8]) :
    (registerFailure i s.cfg s.operands).or (s.lateFailure i s.operands) = s.configFreeFailure i := by
  unfold registerFailure State.lateFailure at h ⊢
  unfold State.configFreeFailure
  by_cases hbad : badRegisters i s.operands = true
  · rw [if_pos hbad, if_pos hbad]
    rfl
  by_cases hrange : footprintInside i s.cfg s.operands = true
  case neg => exact absurd (h .addressRange (by simp [hbad, hrange])) (by decide)
  by_cases hover : overlapOk i s.operands = true
  case neg => simp [hbad, hrange, hover]
  simp only [hbad, hrange, hover, Bool.not_true, Bool.false_eq_true, if_false, Option.none_or] at h ⊢
  by_cases hzero : s.ZeroDivisor i s.operands
  · rw [if_pos hzero, if_pos hzero]
  by_cases htop : s.ZeroTopLimb i s.operands
  · rw [if_neg hzero, if_neg hzero, if_pos htop, if_pos htop]
  rw [if_neg hzero, if_neg htop] at h ⊢
  rw [if_neg hzero, if_neg htop]
  by_cases hlong : s.TooLong i s.operands
  · exact absurd (h .sizeLimit (if_pos hlong)) (by decide)
  rw [if_neg hlong] at h ⊢
  exact if_neg fun hscratch => absurd (h .allocationFailure (if_pos hscratch)) (by decide)

/-- A command that ends in none of the three errors that depend on the configuration ends in the error the other checks find,
or completes. -/
theorem exec_finish_configFree (h : exec i s = .next t) (herr : t.err.toNat ∉ [3, 4, 8]) :
    ∃ eff, s.finish (s.configFreeFailure i) (outputs i s.operands) (fun _ => eff) = .next t := by
  obtain ⟨eff, hexec⟩ := exec_run_lateFailure i s
  rw [hexec, run_eq_finish] at h
  refine ⟨_, failure_eq_configFreeFailure (fun e he => ?_) ▸ h⟩
  rw [he] at h
  obtain rfl := Host.Outcome.next.inj h
  rwa [(errored_raise s e _).err] at herr

/-! ### What a command stores and returns does not depend on the configuration -/

/-- In two legal configurations a command that completes leaves the same limb memory: the algorithm a configuration selects
computes the value equation's limbs (R176, R211), and the other commands do not ask for the configuration. -/
theorem mem_withCfg (hc : s.cfg.Legal) (hc' : c.Legal) (h : exec i s = .next t)
    (h' : exec i { s with cfg := c } = .next t') (herr : t.err = 0) (herr' : t'.err = 0) : t'.mem = t.mem := by
  cases i
  case mulBasecase | mulNtt | mul =>
    exact (mem_of_product (by decide) hc' h' herr').trans (mem_of_product (by decide) hc h herr).symm
  case sqrBasecase | sqrKaratsuba | sqrNtt | sqr =>
    exact (mem_of_square (by decide) hc' h' herr').trans (mem_of_square (by decide) hc h herr).symm
  case mulKaratsuba => exact (mem_of_mulKaratsuba h' herr').trans (mem_of_mulKaratsuba h herr).symm
  all_goals
    rw [exec] at h h'
    exact (congrArg State.mem (run_eq_complete h' herr')).trans (congrArg State.mem (run_eq_complete h herr)).symm

/-- No command's return value depends on the configuration. -/
theorem ret_withCfg (h : exec i s = .next t) (h' : exec i { s with cfg := c } = .next t') (herr : t.err = 0)
    (herr' : t'.err = 0) : t'.ret = t.ret := by
  cases i <;> rw [exec] at h h' <;>
    exact (congrArg State.ret (run_eq_complete h' herr')).trans (congrArg State.ret (run_eq_complete h herr)).symm

end Sys2Proof.Machine

section
open Sys2Proof Sys2Proof.Machine

/-- Settles O13: what the reset state holds is said of `State.resetOf` by `resetLeavesStatedValues`. -/
theorem platformResetGivesResetState : Obligations.PlatformResetGivesResetState := by
  intro s rest hs
  obtain ⟨hzero, -, -, -, -, -, hmem, htw⟩ := resetLeavesStatedValues s.cfg
  have hcfg : (State.platformReset { s with host := rest }).cfg = s.cfg := rfl
  exact ⟨_, step_of_reset hs, hcfg, rfl, hzero, fun r hr _ => readReg_of_cfg hcfg hr, hmem, htw⟩

/-- Settles O48: the checks that read no configuration decide both runs, so both raise the same error or both complete. -/
theorem configurationIsInvisible : Obligations.ConfigurationIsInvisible := by
  intro i s t t' c hc hc' h h' herr herr'
  obtain ⟨eff, hend⟩ := exec_finish_configFree h herr
  obtain ⟨eff', hend'⟩ := exec_finish_configFree h' herr'
  rw [configFreeFailure_withCfg] at hend'
  revert hend hend'
  cases s.configFreeFailure i with
  | some e =>
    rintro ⟨⟩ ⟨⟩
    exact ⟨rfl, fun _ => rfl, rfl, rfl⟩
  | none =>
    rintro ⟨⟩ ⟨⟩
    exact ⟨mem_withCfg hc hc' h h' rfl rfl, fun _ => ret_withCfg h h' rfl rfl, rfl, rfl⟩

end
end

section
/-! PROOFS. Proofs/CanonicalMemory.lean: a limb memory in canonical form is determined by its reads. -/

namespace Sys2Proof.Machine

/-- Memories in canonical form that read alike list the same cells. -/
theorem Memory.mem_iff_of_read_eq {m m' : Memory} (h : m.wf) (h' : m'.wf) (hread : ∀ a, m.read a = m'.read a)
    (c : Nat × Limb) : c ∈ m ↔ c ∈ m' :=
  calc c ∈ m ↔ m.read c.1 = some c.2 := (Memory.read_eq_some_iff h).symm
    _ ↔ m'.read c.1 = some c.2 := by rw [hread]
    _ ↔ c ∈ m' := Memory.read_eq_some_iff h'

end Sys2Proof.Machine

section
open Sys2Proof Sys2Proof.Machine

/-- Settles O49: the two memories list the same cells, and lists in one asymmetric order with the same members are equal. -/
theorem canonicalMemoryIsDetermined : Obligations.CanonicalMemoryIsDetermined := by
  intro m m' h h' hread
  have hasymm : Std.Asymm fun x y : Nat × Limb => x.1 < y.1 := ⟨fun _ _ => lt_asymm⟩
  exact h.eq_of_mem_iff h' (Memory.mem_iff_of_read_eq h h' hread)

end
end
